-- ==== Sys2Proof/Word.lean ====
section
/-! DEFINITION. The word of the codec, its bytes and its text.

An encoded word is exactly 32 bits and is a number (spec/10_state.md R18, spec/20_memory.md R34, R45 of
spec/30_encoding.md).  Text (a catalog line, a mnemonic, a rendering) is a finite string of bytes compared byte for
byte (spec/10_state.md R15, decision D4). -/

namespace Sys2Proof

/-- `EncodedWord`: exactly 32 bits, bit 31 the most significant (R18, R34, R45). -/
abbrev Word := BitVec 32

/-- One byte of text. -/
abbrev Byte := BitVec 8

/-- A finite string of bytes: a mnemonic, a catalog line, a rendering (R15, D4). -/
abbrev Text := List Byte

/-- The bytes of an ASCII string.  That a character of the grammar, of a mnemonic or of a rendering is its ASCII byte is
PRESUMED, notes/assumptions/14.md. -/
def ascii (s : String) : Text := s.toList.map fun c => BitVec.ofNat 8 c.toNat

end Sys2Proof
end

