-- ==== Sys2Proof/Syntax.lean ====
section
/-! DEFINITION. The data of the codec and the instructions of the opcode table.

Data types: spec/10_state.md R13 to R17.  `Instr` has one constructor for each of the 44 rows of
spec/opcode_table.json: six format rows ("any X-format template", whose fixed bits come from whatever template is
loaded) and 38 instruction rows.  An instruction is a SYMBOLIC instruction in the sense of R70: a mnemonic and an
ordered list of operand tokens, and every token is a mathematical integer (R8, R97, decision D9), so an operand value
outside its range can be written and is answered with the error the binder gives it. -/

namespace Sys2Proof

/-- `InstructionFormat` (R13): exactly six values. -/
inductive Format where
  | R | I | S | B | U | J
  deriving DecidableEq, Repr

/-- The width of an immediate kind, which counts stored bits: 12 or 20 (R14, conflict C1). -/
inductive ImmWidth where
  | w12 | w20
  deriving DecidableEq, Repr

/-- `OperandKind` (R14).  Every immediate kind is signed, so signedness is no field. -/
inductive OperandKind where
  | rd
  | rs1
  | rs2
  | imm (width : ImmWidth) (evenOnly : Bool)
  deriving DecidableEq, Repr

/-- `InstructionTemplate` (R15).  The funct-presence invariant is NOT part of the type (conflict C5): see
`Template.wellFormed`. -/
structure Template where
  mnemonic : Text
  opcode : BitVec 7
  format : Format
  funct3 : Option (BitVec 3)
  funct7 : Option (BitVec 7)
  deriving DecidableEq, Repr

/-- `BoundOperand` (R16): kind and resolved integer value.  A record built by hand may break R16; `ENCODE` refuses it
(R109). -/
structure BoundOperand where
  kind : OperandKind
  value : Int
  deriving DecidableEq, Repr

/-- `BoundInstruction` (R17): a template and its ordered operands. -/
structure BoundInstruction where
  template : Template
  operands : List BoundOperand
  deriving DecidableEq, Repr

/-- The instructions: one constructor per row of spec/opcode_table.json, operands in the codec's order (R54: rd, rs1,
rs2, imm, keeping those the format has). -/
inductive Instr where
  -- the six format rows: the instruction of any template of that format, named by its mnemonic (R66,
  -- notes/assumptions/10.md)
  | anyR (m : Text) (rd rs1 rs2 : Int)
  | anyI (m : Text) (rd rs1 imm : Int)
  | anyS (m : Text) (rs1 rs2 imm : Int)
  | anyB (m : Text) (rs1 rs2 imm : Int)
  | anyU (m : Text) (rd imm : Int)
  | anyJ (m : Text) (rd imm : Int)
  -- the 38 instruction rows, in the table's order (R147)
  | lui (rd imm : Int)
  | auipc (rd imm : Int)
  | jal (rd imm : Int)
  | jalr (rd rs1 imm : Int)
  | beq (rs1 rs2 imm : Int)
  | bne (rs1 rs2 imm : Int)
  | blt (rs1 rs2 imm : Int)
  | bge (rs1 rs2 imm : Int)
  | bltu (rs1 rs2 imm : Int)
  | bgeu (rs1 rs2 imm : Int)
  | lb (rd rs1 imm : Int)
  | lh (rd rs1 imm : Int)
  | lw (rd rs1 imm : Int)
  | lbu (rd rs1 imm : Int)
  | lhu (rd rs1 imm : Int)
  | sb (rs1 rs2 imm : Int)
  | sh (rs1 rs2 imm : Int)
  | sw (rs1 rs2 imm : Int)
  | addi (rd rs1 imm : Int)
  | slti (rd rs1 imm : Int)
  | sltiu (rd rs1 imm : Int)
  | xori (rd rs1 imm : Int)
  | ori (rd rs1 imm : Int)
  | andi (rd rs1 imm : Int)
  | slli (rd rs1 rs2 : Int)
  | srli (rd rs1 rs2 : Int)
  | srai (rd rs1 rs2 : Int)
  | add (rd rs1 rs2 : Int)
  | sub (rd rs1 rs2 : Int)
  | sll (rd rs1 rs2 : Int)
  | slt (rd rs1 rs2 : Int)
  | sltu (rd rs1 rs2 : Int)
  | xor (rd rs1 rs2 : Int)
  | srl (rd rs1 rs2 : Int)
  | sra (rd rs1 rs2 : Int)
  | or (rd rs1 rs2 : Int)
  | and (rd rs1 rs2 : Int)
  | fence (rd rs1 imm : Int)
  deriving DecidableEq, Repr

end Sys2Proof
end

