-- ==== Sys2Proof/Machine/Errors.lean ====
section
/-! DEFINITION. What an operation can end in: a value, one of the nine errors, or one of the three refusals
(spec/00_scope.md R10; spec/60_exceptions.md R150 to R162).

Errors are returned values, never traps: nothing is saved, no mode changes, and control goes back to the caller
(R150, R167, R168).  These types are data only; the numeric codes are in Machine/Flags.lean. -/

namespace Sys2Proof.Machine

/-- The five reasons of a `CatalogParseError` (R81, R151). -/
inductive ParseReason where
  | tooFewFields
  | badOpcodeLength
  | unknownFormat
  | malformedFunct
  | missingRequiredFunct
  deriving DecidableEq, Repr

/-- The nine errors of the document (R151 to R159).  Only the first carries data (R162). -/
inductive CodecError where
  | catalogParse (reason : ParseReason)
  | duplicateMnemonic
  | unknownMnemonic
  | arityMismatch
  | operandRange
  | alignment
  | missingFunct
  | ambiguousDecode
  | unknownEncoding
  deriving DecidableEq, Repr

/-- The three refusals of R160. -/
inductive RefusalReason where
  | registryFrozen
  | registryFull
  | invalidBoundInstruction
  deriving DecidableEq, Repr

/-- The outcome of an operation: exactly one of `Ok(value)`, `Err(e)`, `Refused(r)` (R10). -/
inductive Result (α : Type) where
  | ok (value : α)
  | err (e : CodecError)
  | refused (r : RefusalReason)
  deriving DecidableEq, Repr

end Sys2Proof.Machine
end

