-- ==== Sys2Proof/Machine/Operands.lean ====
section
/-! DEFINITION. Operand kinds, their order, and their value sets (spec/10_state.md R14 to R17; spec/30_encoding.md R54,
R55; spec/00_scope.md R8). -/

namespace Sys2Proof.Machine

/-- The count of stored bits of an immediate (R14). -/
def immBits : ImmWidth → Nat
  | .w12 => 12
  | .w20 => 20

/-- `fits_signed_n(v)`: -2^(n-1) ≤ v ≤ 2^(n-1) - 1 (R8). -/
def fitsSigned (n : Nat) (v : Int) : Bool :=
  decide (-(2 ^ (n - 1)) ≤ v) && decide (v ≤ 2 ^ (n - 1) - 1)

/-- "`v` is odd" is `v mod 2 = 1`, negative values included (R103). -/
def isEven (v : Int) : Bool := decide (v % 2 = 0)

/-- A register identifier is 0..31; none of the 32 is special (R24, R62, R100). -/
def isRegister (v : Int) : Bool := decide (0 ≤ v) && decide (v ≤ 31)

/-- The operand kinds of a format, in the codec's order (R54, decision D7): the ONE table of operand orders. -/
def operandKinds : Format → List OperandKind
  | .R => [.rd, .rs1, .rs2]
  | .I => [.rd, .rs1, .imm .w12 false]
  | .S => [.rs1, .rs2, .imm .w12 false]
  | .B => [.rs1, .rs2, .imm .w12 true]
  | .U => [.rd, .imm .w20 false]
  | .J => [.rd, .imm .w20 true]

/-- The range test of a kind.  For an even-only kind the stored quantity is v/2, so v itself is held to one bit more
(R100, R101, R102; conflict C1). -/
def inRange : OperandKind → Int → Bool
  | .rd, v => isRegister v
  | .rs1, v => isRegister v
  | .rs2, v => isRegister v
  | .imm w false, v => fitsSigned (immBits w) v
  | .imm w true, v => fitsSigned (immBits w + 1) v

/-- The alignment test of a kind: only an even-only immediate has one (R37, R103). -/
def isAligned : OperandKind → Int → Bool
  | .imm _ true, v => isEven v
  | .imm _ false, _ => true
  | .rd, _ => true
  | .rs1, _ => true
  | .rs2, _ => true

/-- The value set of a kind (R16, R55, R62). -/
def legalValue (k : OperandKind) (v : Int) : Bool := inRange k v && isAligned k v

/-- Are these values, taken in order, legal values of these kinds, one each? -/
def legalValues : List OperandKind → List Int → Bool
  | [], [] => true
  | k :: ks, v :: vs => legalValue k v && legalValues ks vs
  | [], _ :: _ => false
  | _ :: _, [] => false

/-- The invariants of R16 and R17: exactly the kinds of the format, in its order, and every value in its kind's set. -/
def validBound (bi : BoundInstruction) : Bool :=
  decide (bi.operands.map (·.kind) = operandKinds bi.template.format) &&
    bi.operands.all fun o => legalValue o.kind o.value

/-- funct3 is required in R, I, S and B (R15). -/
def required3 : Format → Bool
  | .R => true
  | .I => true
  | .S => true
  | .B => true
  | .U => false
  | .J => false

/-- funct7 is required in R only (R15). -/
def required7 : Format → Bool
  | .R => true
  | .I => false
  | .S => false
  | .B => false
  | .U => false
  | .J => false

/-- Pair the kinds of a format with values, in order (R105). -/
def boundOperands (f : Format) (vs : List Int) : List BoundOperand :=
  List.zipWith BoundOperand.mk (operandKinds f) vs

end Sys2Proof.Machine
end

