-- ==== Sys2Proof/Machine/Layouts.lean ====
section
/-! DEFINITION. The six bit layouts, packed and unpacked (spec/30_encoding.md R47 to R62; spec/43_field_encoder.md R111
to R116; spec/44_field_decoder.md R128 to R133).

`BitVec.ofInt n v` is `trunc_n(v)` = v mod 2^n; `BitVec.toInt` is `sext_n`; `x.extractLsb' lo len` is the slice of
`len` bits from bit `lo` up; `++` is concatenation, leftmost most significant (R7, R8). -/

namespace Sys2Proof.Machine

/-- A register identifier as its 5-bit field (R62). -/
def regField (r : Int) : BitVec 5 := BitVec.ofInt 5 r

/-! ### Packing: one function per format -/

/-- `ENC.R` (R47, R111). -/
def encR (funct7 : BitVec 7) (funct3 : BitVec 3) (opcode : BitVec 7) (rd rs1 rs2 : Int) : Word :=
  funct7 ++ regField rs2 ++ regField rs1 ++ funct3 ++ regField rd ++ opcode

/-- `ENC.I` (R48, R56, R112). -/
def encI (funct3 : BitVec 3) (opcode : BitVec 7) (rd rs1 imm : Int) : Word :=
  BitVec.ofInt 12 imm ++ regField rs1 ++ funct3 ++ regField rd ++ opcode

/-- `ENC.S` (R49, R57, R113). -/
def encS (funct3 : BitVec 3) (opcode : BitVec 7) (rs1 rs2 imm : Int) : Word :=
  let i := BitVec.ofInt 12 imm
  i.extractLsb' 5 7 ++ regField rs2 ++ regField rs1 ++ funct3 ++ i.extractLsb' 0 5 ++ opcode

/-- `ENC.B` (R50, R58, R114): imm[0] is dropped, imm[11] goes to word bit 7. -/
def encB (funct3 : BitVec 3) (opcode : BitVec 7) (rs1 rs2 imm : Int) : Word :=
  let i := BitVec.ofInt 13 imm
  i.extractLsb' 12 1 ++ i.extractLsb' 5 6 ++ regField rs2 ++ regField rs1 ++ funct3 ++ i.extractLsb' 1 4 ++
    i.extractLsb' 11 1 ++ opcode

/-- `ENC.U` (R51, R59, R115): the operand is the 20-bit field value (conflict C2). -/
def encU (opcode : BitVec 7) (rd imm : Int) : Word :=
  BitVec.ofInt 20 imm ++ regField rd ++ opcode

/-- `ENC.J` (R52, R60, R116): imm[0] is dropped. -/
def encJ (opcode : BitVec 7) (rd imm : Int) : Word :=
  let i := BitVec.ofInt 21 imm
  i.extractLsb' 20 1 ++ i.extractLsb' 1 10 ++ i.extractLsb' 11 1 ++ i.extractLsb' 12 8 ++ regField rd ++ opcode

/-- The format case of `ENCODE` on operand values in the codec's order (R109, R110).  A count other than the format's
is no bound instruction; a missing required funct value is `MissingFunctError`; surplus values are not read. -/
def packWord (t : Template) (vs : List Int) : Result Word :=
  match t.format, vs with
  | .R, [rd, rs1, rs2] =>
    match t.funct7, t.funct3 with
    | some f7, some f3 => .ok (encR f7 f3 t.opcode rd rs1 rs2)
    | _, _ => .err .missingFunct
  | .I, [rd, rs1, imm] =>
    match t.funct3 with
    | some f3 => .ok (encI f3 t.opcode rd rs1 imm)
    | none => .err .missingFunct
  | .S, [rs1, rs2, imm] =>
    match t.funct3 with
    | some f3 => .ok (encS f3 t.opcode rs1 rs2 imm)
    | none => .err .missingFunct
  | .B, [rs1, rs2, imm] =>
    match t.funct3 with
    | some f3 => .ok (encB f3 t.opcode rs1 rs2 imm)
    | none => .err .missingFunct
  | .U, [rd, imm] => .ok (encU t.opcode rd imm)
  | .J, [rd, imm] => .ok (encJ t.opcode rd imm)
  | _, _ => .refused .invalidBoundInstruction

/-! ### Unpacking: the fields of a word -/

/-- `rd`, word bits [11:7], unsigned (R46, R62). -/
def rdOf (w : Word) : Int := (w.extractLsb' 7 5).toNat

/-- `rs1`, word bits [19:15], unsigned (R46, R62). -/
def rs1Of (w : Word) : Int := (w.extractLsb' 15 5).toNat

/-- `rs2`, word bits [24:20], unsigned (R46, R62). -/
def rs2Of (w : Word) : Int := (w.extractLsb' 20 5).toNat

/-- I immediate: `sext_12(w[31:20])` (R56, R129). -/
def immIOf (w : Word) : Int := (w.extractLsb' 20 12).toInt

/-- S immediate: `sext_12({w[31:25], w[11:7]})` (R57, R130). -/
def immSOf (w : Word) : Int := (w.extractLsb' 25 7 ++ w.extractLsb' 7 5 : BitVec 12).toInt

/-- B immediate: `sext_13({w[31], w[7], w[30:25], w[11:8], 0})` (R58, R131). -/
def immBOf (w : Word) : Int :=
  (w.extractLsb' 31 1 ++ w.extractLsb' 7 1 ++ w.extractLsb' 25 6 ++ w.extractLsb' 8 4 ++ (0 : BitVec 1) : BitVec 13).toInt

/-- U immediate: `sext_20(w[31:12])`, the field value (R59, R132). -/
def immUOf (w : Word) : Int := (w.extractLsb' 12 20).toInt

/-- J immediate: `sext_21({w[31], w[19:12], w[20], w[30:21], 0})` (R60, R133). -/
def immJOf (w : Word) : Int :=
  (w.extractLsb' 31 1 ++ w.extractLsb' 12 8 ++ w.extractLsb' 20 1 ++ w.extractLsb' 21 10 ++ (0 : BitVec 1) : BitVec 21).toInt

/-- The operand values `DEC.R` .. `DEC.J` return, in the codec's order (R128 to R133). -/
def unpackValues (f : Format) (w : Word) : List Int :=
  match f with
  | .R => [rdOf w, rs1Of w, rs2Of w]
  | .I => [rdOf w, rs1Of w, immIOf w]
  | .S => [rs1Of w, rs2Of w, immSOf w]
  | .B => [rs1Of w, rs2Of w, immBOf w]
  | .U => [rdOf w, immUOf w]
  | .J => [rdOf w, immJOf w]

/-- `EXTRACT(f, w)`: each value with its kind (R134). -/
def extract (f : Format) (w : Word) : List BoundOperand := boundOperands f (unpackValues f w)

/-! ### The layout tables as data

The tables of R47 to R52, one row per field write, bit 31 first.  No operation reads them: they are what "every bit
written exactly once" (R18, R53) is said about, and `ENC.*` is shown to write what they say. -/

/-- Which bits of which value a field write takes (R46). -/
inductive FieldSource where
  | opcode
  | funct3
  | funct7
  | rd
  | rs1
  | rs2
  /-- Immediate bits `hi` down to `lo`. -/
  | imm (hi lo : Nat)
  deriving DecidableEq, Repr

/-- A field write: word bits `hi` down to `lo` hold `source`. -/
structure FieldWrite where
  hi : Nat
  lo : Nat
  source : FieldSource
  deriving DecidableEq, Repr

/-- The six layout tables (R47 to R52).  The U row takes the 20-bit field value (conflict C2). -/
def layout : Format → List FieldWrite
  | .R => [⟨31, 25, .funct7⟩, ⟨24, 20, .rs2⟩, ⟨19, 15, .rs1⟩, ⟨14, 12, .funct3⟩, ⟨11, 7, .rd⟩, ⟨6, 0, .opcode⟩]
  | .I => [⟨31, 20, .imm 11 0⟩, ⟨19, 15, .rs1⟩, ⟨14, 12, .funct3⟩, ⟨11, 7, .rd⟩, ⟨6, 0, .opcode⟩]
  | .S => [⟨31, 25, .imm 11 5⟩, ⟨24, 20, .rs2⟩, ⟨19, 15, .rs1⟩, ⟨14, 12, .funct3⟩, ⟨11, 7, .imm 4 0⟩, ⟨6, 0, .opcode⟩]
  | .B => [⟨31, 31, .imm 12 12⟩, ⟨30, 25, .imm 10 5⟩, ⟨24, 20, .rs2⟩, ⟨19, 15, .rs1⟩, ⟨14, 12, .funct3⟩,
           ⟨11, 8, .imm 4 1⟩, ⟨7, 7, .imm 11 11⟩, ⟨6, 0, .opcode⟩]
  | .U => [⟨31, 12, .imm 19 0⟩, ⟨11, 7, .rd⟩, ⟨6, 0, .opcode⟩]
  | .J => [⟨31, 31, .imm 20 20⟩, ⟨30, 21, .imm 10 1⟩, ⟨20, 20, .imm 11 11⟩, ⟨19, 12, .imm 19 12⟩, ⟨11, 7, .rd⟩,
           ⟨6, 0, .opcode⟩]

/-- The word positions a field write covers, highest first. -/
def FieldWrite.positions (f : FieldWrite) : List Nat := ((List.range (f.hi - f.lo + 1)).map fun k => f.lo + k).reverse

end Sys2Proof.Machine
end

