-- ==== Sys2Proof/Machine/Templates.lean ====
section
/-! DEFINITION. What a template selects: lookup by mnemonic, and the words a template claims (spec/41_registry.md R90;
spec/44_field_decoder.md R125, R139; spec/30_encoding.md R66). -/

namespace Sys2Proof.Machine

/-- The one comparison of mnemonics: byte for byte, case kept (R15, R90, decision D4). -/
def sameMnemonic (a b : Text) : Bool := decide (a = b)

/-- The template of a mnemonic, if there is one (R90). -/
def lookup (reg : List Template) (m : Text) : Option Template :=
  reg.find? fun u => sameMnemonic u.mnemonic m

/-- The opcode field, word bits [6:0] (R46). -/
def opcodeField (w : Word) : BitVec 7 := w.extractLsb' 0 7

/-- The funct3 field, word bits [14:12] (R46). -/
def funct3Field (w : Word) : BitVec 3 := w.extractLsb' 12 3

/-- The funct7 field, word bits [31:25] (R46). -/
def funct7Field (w : Word) : BitVec 7 := w.extractLsb' 25 7

/-- `MATCHES(t, w)` (R125): opcode, then the required funct3, then the required funct7.  A template that lacks a
required value matches nothing (R139, decision D12); a surplus value is not compared. -/
def matchesWord (t : Template) (w : Word) : Bool :=
  decide (opcodeField w = t.opcode) &&
    (!required3 t.format || decide (t.funct3 = some (funct3Field w))) &&
      (!required7 t.format || decide (t.funct7 = some (funct7Field w)))

/-- `mask(t)`, which depends on the format alone (R66). -/
def templateMask : Format → Word
  | .R => 0xFE00707F
  | .I => 0x0000707F
  | .S => 0x0000707F
  | .B => 0x0000707F
  | .U => 0x0000007F
  | .J => 0x0000007F

/-- `match(t)` (R66).  A template that lacks a required funct value has none. -/
def templateMatch (t : Template) : Option Word :=
  match t.format with
  | .R =>
    match t.funct7, t.funct3 with
    | some f7, some f3 => some (f7 ++ (0 : BitVec 10) ++ f3 ++ (0 : BitVec 5) ++ t.opcode)
    | _, _ => none
  | .I | .S | .B => t.funct3.map fun f3 => (0 : BitVec 17) ++ f3 ++ (0 : BitVec 5) ++ t.opcode
  | .U | .J => some ((0 : BitVec 25) ++ t.opcode)

/-- Does the template lack a funct value its format requires? (R15, R110) -/
def missingFunct (t : Template) : Bool :=
  (required3 t.format && t.funct3.isNone) || (required7 t.format && t.funct7.isNone)

end Sys2Proof.Machine
end

