-- ==== Sys2Proof/Machine/Symbols.lean ====
section
/-! DEFINITION. The symbolic form of an instruction: its mnemonic, the format its row has, and its operand tokens in
order (spec/30_encoding.md R54, R70; spec/45_reference_catalog.md R147), and the way back from the three to the
instruction. -/

namespace Sys2Proof

/-- The mnemonic of an instruction (R147; for a format row, the one it carries). -/
def Instr.mnemonic : Instr → Text
  | .anyR m _ _ _ => m
  | .anyI m _ _ _ => m
  | .anyS m _ _ _ => m
  | .anyB m _ _ _ => m
  | .anyU m _ _ => m
  | .anyJ m _ _ => m
  | .lui _ _ => ascii "lui"
  | .auipc _ _ => ascii "auipc"
  | .jal _ _ => ascii "jal"
  | .jalr _ _ _ => ascii "jalr"
  | .beq _ _ _ => ascii "beq"
  | .bne _ _ _ => ascii "bne"
  | .blt _ _ _ => ascii "blt"
  | .bge _ _ _ => ascii "bge"
  | .bltu _ _ _ => ascii "bltu"
  | .bgeu _ _ _ => ascii "bgeu"
  | .lb _ _ _ => ascii "lb"
  | .lh _ _ _ => ascii "lh"
  | .lw _ _ _ => ascii "lw"
  | .lbu _ _ _ => ascii "lbu"
  | .lhu _ _ _ => ascii "lhu"
  | .sb _ _ _ => ascii "sb"
  | .sh _ _ _ => ascii "sh"
  | .sw _ _ _ => ascii "sw"
  | .addi _ _ _ => ascii "addi"
  | .slti _ _ _ => ascii "slti"
  | .sltiu _ _ _ => ascii "sltiu"
  | .xori _ _ _ => ascii "xori"
  | .ori _ _ _ => ascii "ori"
  | .andi _ _ _ => ascii "andi"
  | .slli _ _ _ => ascii "slli"
  | .srli _ _ _ => ascii "srli"
  | .srai _ _ _ => ascii "srai"
  | .add _ _ _ => ascii "add"
  | .sub _ _ _ => ascii "sub"
  | .sll _ _ _ => ascii "sll"
  | .slt _ _ _ => ascii "slt"
  | .sltu _ _ _ => ascii "sltu"
  | .xor _ _ _ => ascii "xor"
  | .srl _ _ _ => ascii "srl"
  | .sra _ _ _ => ascii "sra"
  | .or _ _ _ => ascii "or"
  | .and _ _ _ => ascii "and"
  | .fence _ _ _ => ascii "fence"

/-- The format of an instruction's row. -/
def Instr.format : Instr → Format
  | .anyR _ _ _ _ => .R
  | .anyI _ _ _ _ => .I
  | .anyS _ _ _ _ => .S
  | .anyB _ _ _ _ => .B
  | .anyU _ _ _ => .U
  | .anyJ _ _ _ => .J
  | .lui _ _ => .U
  | .auipc _ _ => .U
  | .jal _ _ => .J
  | .jalr _ _ _ => .I
  | .beq _ _ _ => .B
  | .bne _ _ _ => .B
  | .blt _ _ _ => .B
  | .bge _ _ _ => .B
  | .bltu _ _ _ => .B
  | .bgeu _ _ _ => .B
  | .lb _ _ _ => .I
  | .lh _ _ _ => .I
  | .lw _ _ _ => .I
  | .lbu _ _ _ => .I
  | .lhu _ _ _ => .I
  | .sb _ _ _ => .S
  | .sh _ _ _ => .S
  | .sw _ _ _ => .S
  | .addi _ _ _ => .I
  | .slti _ _ _ => .I
  | .sltiu _ _ _ => .I
  | .xori _ _ _ => .I
  | .ori _ _ _ => .I
  | .andi _ _ _ => .I
  | .slli _ _ _ => .R
  | .srli _ _ _ => .R
  | .srai _ _ _ => .R
  | .add _ _ _ => .R
  | .sub _ _ _ => .R
  | .sll _ _ _ => .R
  | .slt _ _ _ => .R
  | .sltu _ _ _ => .R
  | .xor _ _ _ => .R
  | .srl _ _ _ => .R
  | .sra _ _ _ => .R
  | .or _ _ _ => .R
  | .and _ _ _ => .R
  | .fence _ _ _ => .I

/-- The operand tokens of an instruction, in the codec's order (R54). -/
def Instr.tokens : Instr → List Int
  | .anyR _ rd rs1 rs2 => [rd, rs1, rs2]
  | .anyI _ rd rs1 imm => [rd, rs1, imm]
  | .anyS _ rs1 rs2 imm => [rs1, rs2, imm]
  | .anyB _ rs1 rs2 imm => [rs1, rs2, imm]
  | .anyU _ rd imm => [rd, imm]
  | .anyJ _ rd imm => [rd, imm]
  | .lui rd imm => [rd, imm]
  | .auipc rd imm => [rd, imm]
  | .jal rd imm => [rd, imm]
  | .jalr rd rs1 imm => [rd, rs1, imm]
  | .beq rs1 rs2 imm => [rs1, rs2, imm]
  | .bne rs1 rs2 imm => [rs1, rs2, imm]
  | .blt rs1 rs2 imm => [rs1, rs2, imm]
  | .bge rs1 rs2 imm => [rs1, rs2, imm]
  | .bltu rs1 rs2 imm => [rs1, rs2, imm]
  | .bgeu rs1 rs2 imm => [rs1, rs2, imm]
  | .lb rd rs1 imm => [rd, rs1, imm]
  | .lh rd rs1 imm => [rd, rs1, imm]
  | .lw rd rs1 imm => [rd, rs1, imm]
  | .lbu rd rs1 imm => [rd, rs1, imm]
  | .lhu rd rs1 imm => [rd, rs1, imm]
  | .sb rs1 rs2 imm => [rs1, rs2, imm]
  | .sh rs1 rs2 imm => [rs1, rs2, imm]
  | .sw rs1 rs2 imm => [rs1, rs2, imm]
  | .addi rd rs1 imm => [rd, rs1, imm]
  | .slti rd rs1 imm => [rd, rs1, imm]
  | .sltiu rd rs1 imm => [rd, rs1, imm]
  | .xori rd rs1 imm => [rd, rs1, imm]
  | .ori rd rs1 imm => [rd, rs1, imm]
  | .andi rd rs1 imm => [rd, rs1, imm]
  | .slli rd rs1 rs2 => [rd, rs1, rs2]
  | .srli rd rs1 rs2 => [rd, rs1, rs2]
  | .srai rd rs1 rs2 => [rd, rs1, rs2]
  | .add rd rs1 rs2 => [rd, rs1, rs2]
  | .sub rd rs1 rs2 => [rd, rs1, rs2]
  | .sll rd rs1 rs2 => [rd, rs1, rs2]
  | .slt rd rs1 rs2 => [rd, rs1, rs2]
  | .sltu rd rs1 rs2 => [rd, rs1, rs2]
  | .xor rd rs1 rs2 => [rd, rs1, rs2]
  | .srl rd rs1 rs2 => [rd, rs1, rs2]
  | .sra rd rs1 rs2 => [rd, rs1, rs2]
  | .or rd rs1 rs2 => [rd, rs1, rs2]
  | .and rd rs1 rs2 => [rd, rs1, rs2]
  | .fence rd rs1 imm => [rd, rs1, imm]

namespace Machine

/-- The rows of the opcode table of R format (R147). -/
def namedR : List (Text × (Int → Int → Int → Instr)) :=
  [(ascii "slli", .slli), (ascii "srli", .srli), (ascii "srai", .srai), (ascii "add", .add),
   (ascii "sub", .sub), (ascii "sll", .sll), (ascii "slt", .slt), (ascii "sltu", .sltu),
   (ascii "xor", .xor), (ascii "srl", .srl), (ascii "sra", .sra), (ascii "or", .or),
   (ascii "and", .and)]

/-- The rows of the opcode table of I format (R147). -/
def namedI : List (Text × (Int → Int → Int → Instr)) :=
  [(ascii "jalr", .jalr), (ascii "lb", .lb), (ascii "lh", .lh), (ascii "lw", .lw),
   (ascii "lbu", .lbu), (ascii "lhu", .lhu), (ascii "addi", .addi), (ascii "slti", .slti),
   (ascii "sltiu", .sltiu), (ascii "xori", .xori), (ascii "ori", .ori), (ascii "andi", .andi),
   (ascii "fence", .fence)]

/-- The rows of the opcode table of S format (R147). -/
def namedS : List (Text × (Int → Int → Int → Instr)) :=
  [(ascii "sb", .sb), (ascii "sh", .sh), (ascii "sw", .sw)]

/-- The rows of the opcode table of B format (R147). -/
def namedB : List (Text × (Int → Int → Int → Instr)) :=
  [(ascii "beq", .beq), (ascii "bne", .bne), (ascii "blt", .blt), (ascii "bge", .bge),
   (ascii "bltu", .bltu), (ascii "bgeu", .bgeu)]

/-- The rows of the opcode table of U format (R147). -/
def namedU : List (Text × (Int → Int → Instr)) :=
  [(ascii "lui", .lui), (ascii "auipc", .auipc)]

/-- The rows of the opcode table of J format (R147). -/
def namedJ : List (Text × (Int → Int → Instr)) :=
  [(ascii "jal", .jal)]

/-- The instruction whose symbolic form is `m rd,rs1,rs2` under an R template: the row of that name, else the format
row. -/
def instrR (m : Text) (rd rs1 rs2 : Int) : Instr :=
  match namedR.find? fun r => decide (r.1 = m) with
  | some r => r.2 rd rs1 rs2
  | none => .anyR m rd rs1 rs2

/-- The same for I format. -/
def instrI (m : Text) (rd rs1 imm : Int) : Instr :=
  match namedI.find? fun r => decide (r.1 = m) with
  | some r => r.2 rd rs1 imm
  | none => .anyI m rd rs1 imm

/-- The same for S format. -/
def instrS (m : Text) (rs1 rs2 imm : Int) : Instr :=
  match namedS.find? fun r => decide (r.1 = m) with
  | some r => r.2 rs1 rs2 imm
  | none => .anyS m rs1 rs2 imm

/-- The same for B format. -/
def instrB (m : Text) (rs1 rs2 imm : Int) : Instr :=
  match namedB.find? fun r => decide (r.1 = m) with
  | some r => r.2 rs1 rs2 imm
  | none => .anyB m rs1 rs2 imm

/-- The same for U format. -/
def instrU (m : Text) (rd imm : Int) : Instr :=
  match namedU.find? fun r => decide (r.1 = m) with
  | some r => r.2 rd imm
  | none => .anyU m rd imm

/-- The same for J format. -/
def instrJ (m : Text) (rd imm : Int) : Instr :=
  match namedJ.find? fun r => decide (r.1 = m) with
  | some r => r.2 rd imm
  | none => .anyJ m rd imm

/-- Has this mnemonic a row of its own in this format? -/
def hasOwnRow (f : Format) (m : Text) : Bool :=
  match f with
  | .R => namedR.any fun r => decide (r.1 = m)
  | .I => namedI.any fun r => decide (r.1 = m)
  | .S => namedS.any fun r => decide (r.1 = m)
  | .B => namedB.any fun r => decide (r.1 = m)
  | .U => namedU.any fun r => decide (r.1 = m)
  | .J => namedJ.any fun r => decide (r.1 = m)

end Machine

end Sys2Proof
end

