-- ==== Sys2Proof/WellFormed.lean ====
section
/-! DEFINITION. Well-formed templates (spec/10_state.md R15) and well-formed instructions (R54, R55, R107). -/

namespace Sys2Proof

open Machine

/-- A template meets the funct-presence invariant (R15): R has both, I, S and B have funct3. -/
def Template.wellFormed (t : Template) : Bool :=
  (!required3 t.format || t.funct3.isSome) && (!required7 t.format || t.funct7.isSome)

/-- Every operand of the instruction is in the value set of its kind (R107). -/
def Instr.operandsLegal (i : Instr) : Bool := legalValues (operandKinds i.format) i.tokens

/-- The instruction is spelled by its own row: a format row does not carry a mnemonic that has a row of its own in
that format, which would be a second spelling of one symbolic instruction. -/
def Instr.canonical : Instr → Bool
  | .anyR m _ _ _ => !hasOwnRow .R m
  | .anyI m _ _ _ => !hasOwnRow .I m
  | .anyS m _ _ _ => !hasOwnRow .S m
  | .anyB m _ _ _ => !hasOwnRow .B m
  | .anyU m _ _ => !hasOwnRow .U m
  | .anyJ m _ _ => !hasOwnRow .J m
  | .lui _ _ | .auipc _ _ | .jal _ _ | .jalr _ _ _ | .beq _ _ _ | .bne _ _ _
  | .blt _ _ _ | .bge _ _ _ | .bltu _ _ _ | .bgeu _ _ _ | .lb _ _ _ | .lh _ _ _
  | .lw _ _ _ | .lbu _ _ _ | .lhu _ _ _ | .sb _ _ _ | .sh _ _ _ | .sw _ _ _
  | .addi _ _ _ | .slti _ _ _ | .sltiu _ _ _ | .xori _ _ _ | .ori _ _ _ | .andi _ _ _
  | .slli _ _ _ | .srli _ _ _ | .srai _ _ _ | .add _ _ _ | .sub _ _ _ | .sll _ _ _
  | .slt _ _ _ | .sltu _ _ _ | .xor _ _ _ | .srl _ _ _ | .sra _ _ _ | .or _ _ _
  | .and _ _ _ | .fence _ _ _ => true

/-- A well-formed instruction: legal operands, and its own row's spelling. -/
def Instr.wellFormed (i : Instr) : Bool := i.operandsLegal && i.canonical

end Sys2Proof
end

