-- ==== Sys2Proof/Decode.lean ====
section
/-! DEFINITION. The decoder, total on every word, and after it the encoder.

The codec has no built-in opcode table (spec/30_encoding.md R66): which instruction a word is depends on the templates
that are loaded, so the decoder takes them as an argument.  A word that no template claims, or that more than one
claims, is rejected by name: `UnknownEncodingError`, `AmbiguousDecodeError` (R67, R68; spec/44_field_decoder.md R127). -/

namespace Sys2Proof

open Machine

/-- The templates of a Registry that match a word, in Registry order (R127).  The whole Registry is examined. -/
def candidates (reg : List Template) (w : Word) : List Template := reg.filter fun t => matchesWord t w

/-- Search mode's choice of a template (R127): exactly one candidate, else one of the two errors. -/
def searchTemplate (reg : List Template) (w : Word) : Result Template :=
  match candidates reg w with
  | [] => .err .unknownEncoding
  | [t] => .ok t
  | _ :: _ :: _ => .err .ambiguousDecode

/-- The instruction that a word is under a template that matches it: the format's fields (R128 to R133). -/
def instrOf (t : Template) (w : Word) : Instr :=
  match t.format with
  | .R => instrR t.mnemonic (rdOf w) (rs1Of w) (rs2Of w)
  | .I => instrI t.mnemonic (rdOf w) (rs1Of w) (immIOf w)
  | .S => instrS t.mnemonic (rs1Of w) (rs2Of w) (immSOf w)
  | .B => instrB t.mnemonic (rs1Of w) (rs2Of w) (immBOf w)
  | .U => instrU t.mnemonic (rdOf w) (immUOf w)
  | .J => instrJ t.mnemonic (rdOf w) (immJOf w)

/-- The decoder: a word to an instruction, by the templates loaded, or an error by name (R127). -/
def decodeIn (reg : List Template) (w : Word) : Result Instr :=
  match searchTemplate reg w with
  | .ok t => .ok (instrOf t w)
  | .err e => .err e
  | .refused r => .refused r

/-! ### The reference catalog

The 38 templates of spec/45_reference_catalog.md R147.  They are NOT part of the codec (R146): no state holds them
unless a host loads them.  They say what the rows of the opcode table are, and `decodeTableWord` reads a word of the
table by them. -/

/-- A template without funct values. -/
def plainTemplate (m : String) (op : BitVec 7) (f : Format) : Template :=
  { mnemonic := ascii m, opcode := op, format := f, funct3 := none, funct7 := none }

/-- A template with a funct3 value. -/
def funct3Template (m : String) (op : BitVec 7) (f : Format) (f3 : BitVec 3) : Template :=
  { mnemonic := ascii m, opcode := op, format := f, funct3 := some f3, funct7 := none }

/-- An R template. -/
def rTemplate (m : String) (op : BitVec 7) (f3 : BitVec 3) (f7 : BitVec 7) : Template :=
  { mnemonic := ascii m, opcode := op, format := .R, funct3 := some f3, funct7 := some f7 }

/-- Lines 1 to 10 of R149: lui to bgeu. -/
def catalogControl : List Template :=
  [plainTemplate "lui" 0b0110111 .U,
   plainTemplate "auipc" 0b0010111 .U,
   plainTemplate "jal" 0b1101111 .J,
   funct3Template "jalr" 0b1100111 .I 0b000,
   funct3Template "beq" 0b1100011 .B 0b000,
   funct3Template "bne" 0b1100011 .B 0b001,
   funct3Template "blt" 0b1100011 .B 0b100,
   funct3Template "bge" 0b1100011 .B 0b101,
   funct3Template "bltu" 0b1100011 .B 0b110,
   funct3Template "bgeu" 0b1100011 .B 0b111]

/-- Lines 11 to 24 of R149: lb to andi. -/
def catalogLoadsStoresImmediates : List Template :=
  [funct3Template "lb" 0b0000011 .I 0b000,
   funct3Template "lh" 0b0000011 .I 0b001,
   funct3Template "lw" 0b0000011 .I 0b010,
   funct3Template "lbu" 0b0000011 .I 0b100,
   funct3Template "lhu" 0b0000011 .I 0b101,
   funct3Template "sb" 0b0100011 .S 0b000,
   funct3Template "sh" 0b0100011 .S 0b001,
   funct3Template "sw" 0b0100011 .S 0b010,
   funct3Template "addi" 0b0010011 .I 0b000,
   funct3Template "slti" 0b0010011 .I 0b010,
   funct3Template "sltiu" 0b0010011 .I 0b011,
   funct3Template "xori" 0b0010011 .I 0b100,
   funct3Template "ori" 0b0010011 .I 0b110,
   funct3Template "andi" 0b0010011 .I 0b111]

/-- Lines 25 to 38 of R149: slli to fence. -/
def catalogRegisterFence : List Template :=
  [rTemplate "slli" 0b0010011 0b001 0b0000000,
   rTemplate "srli" 0b0010011 0b101 0b0000000,
   rTemplate "srai" 0b0010011 0b101 0b0100000,
   rTemplate "add" 0b0110011 0b000 0b0000000,
   rTemplate "sub" 0b0110011 0b000 0b0100000,
   rTemplate "sll" 0b0110011 0b001 0b0000000,
   rTemplate "slt" 0b0110011 0b010 0b0000000,
   rTemplate "sltu" 0b0110011 0b011 0b0000000,
   rTemplate "xor" 0b0110011 0b100 0b0000000,
   rTemplate "srl" 0b0110011 0b101 0b0000000,
   rTemplate "sra" 0b0110011 0b101 0b0100000,
   rTemplate "or" 0b0110011 0b110 0b0000000,
   rTemplate "and" 0b0110011 0b111 0b0000000,
   funct3Template "fence" 0b0001111 .I 0b000]

/-- The reference catalog, in the order of R149. -/
def referenceCatalog : List Template := catalogControl ++ catalogLoadsStoresImmediates ++ catalogRegisterFence

/-- The bits of a table row as a word: the bits above `nbits` are 0, and a word is exactly 32 bits (R45). -/
def tableWord (nbits w : Nat) : Word := BitVec.ofNat 32 (w % 2 ^ nbits)

/-- The instruction the decoder reads from a word of the opcode table, numbered as the table numbers it: the reference
catalog is what the table's instruction rows stand for.  A format row has no word of its own: its fixed bits come from
the template a host loads. -/
def decodeTableWord (nbits w : Nat) : Option Instr :=
  match decodeIn referenceCatalog (tableWord nbits w) with
  | .ok i => some i
  | .err _ => none
  | .refused _ => none

/-! ### The encoder -/

/-- The word of an instruction by the templates loaded: the layout of its format (R47 to R52) filled with the fixed
fields of the template of its mnemonic and with its operands.  None where no template of that mnemonic and format is
loaded, a required funct value is missing, or an operand is outside its value set. -/
def encodeIn (reg : List Template) (i : Instr) : Option Word :=
  match lookup reg i.mnemonic with
  | none => none
  | some t =>
    if t.format = i.format && legalValues (operandKinds t.format) i.tokens then
      match packWord t i.tokens with
      | .ok w => some w
      | .err _ => none
      | .refused _ => none
    else none

/-- The word of an instruction row of the opcode table. -/
def encode (i : Instr) : Option Word := encodeIn referenceCatalog i

end Sys2Proof
end

