-- ==== Sys2Proof/Config.lean ====
section
/-! DEFINITION. The open parameters of the codec (spec/00_scope.md R6; spec/92_eei_decisions.md, "The four open
parameters"), and the one value the spec leaves open.

All four are fields of plain data that a machine carries unchanged (`State.cfg`), so that every claim about a state is
a claim for every setting of them.  No step writes them (notes/assumptions/9.md).

The open value is a constant without a body, so that a claim about it is a claim for every value it may have. -/

namespace Sys2Proof

/-- Order in which a host stores the four bytes of a word (`HOST_BYTE_ORDER`, decision D17).  No rule reads it.  The spec
lists no values for it: that there are these two is the model's DESIGN CHOICE (notes/assumptions/16.md). -/
inductive ByteOrder where
  | littleEndian
  | bigEndian
  deriving DecidableEq, Repr

/-- The four open parameters (R6). -/
structure Config where
  /-- `CAP`: the greatest number of templates the Registry holds; `none` is ∞ (D3, R95). -/
  cap : Option Nat
  /-- `MNEM_MAX`: the greatest length of a mnemonic in bytes; `none` is unbounded (D4, U12). -/
  mnemMax : Option Nat
  /-- `HOST_BYTE_ORDER`; `none` where the host chose none.  No rule reads it (R36, D17; notes/assumptions/16.md). -/
  hostByteOrder : Option ByteOrder
  /-- `PLATFORM_MAP`; `none` is "not mapped".  No rule reads it (R40, D1).  The spec gives it no form: that it is one base
  address is the model's DESIGN CHOICE (notes/assumptions/16.md). -/
  platformMap : Option Nat
  deriving DecidableEq, Repr

/-- The defaults a model may take: ∞, unbounded, none needed, not mapped (D3, D4, D17, D1). -/
def Config.default : Config :=
  { cap := none, mnemMax := none, hostByteOrder := none, platformMap := none }

/-- FREE VALUE: which of the two refusals of an `ADD` (R163) a mnemonic longer than a finite `MNEM_MAX` gets, `RegistryFull`
where this is true and `RegistryFrozen` where it is false.  The spec says `refuse` and names no reason (U12).  It may
depend on what the outcome of an `ADD` may depend on: the machine, the Registry and the template (R10;
notes/assumptions/7.md). -/
opaque Config.longMnemonicCountsAsFull : Config → List Template → Template → Bool

/-- `CAP` is "a positive integer or ∞" (D3). -/
def Config.wellFormed (c : Config) : Bool := decide (c.cap ≠ some 0)

end Sys2Proof
end

