-- ==== Sys2Proof/Machine/State.lean ====
section
/-! DEFINITION. The state of the codec, the operations a host can issue to it, and what it returns.

The spec's whole state is the pair (`REG`, `PHASE`) (spec/10_state.md R19, R20, R22); it has no registers, program
counter, flags, memory or hidden state (R24 to R28).  Beside the pair, `State` carries the machine's open parameters
(R6), and two fields that are the MODEL's own and no state of the codec: the operations the host has issued and that
have not been taken yet, and the response of the last step (notes/assumptions/1.md, 2.md). -/

namespace Sys2Proof.Machine

/-- `PHASE` (R20). -/
inductive Phase where
  | load
  | frozen
  deriving DecidableEq, Repr

/-- The mode of a `LOAD`, an argument of each call (R6, R82). -/
inductive LoadMode where
  | strict
  | lenient
  deriving DecidableEq, Repr

/-- The thirteen operations of R23. -/
inductive Operation where
  | parseLine (line : Text)
  | load (lines : List Text) (mode : LoadMode)
  | add (t : Template)
  | lookup (m : Text)
  | list
  | freeze
  | bind (m : Text) (tokens : List Int)
  | encode (bi : BoundInstruction)
  | assemble (m : Text) (tokens : List Int)
  | bitstring (w : Word)
  | hex (w : Word)
  | decodeT (w : Word) (t : Template)
  | decodeS (w : Word)
  deriving DecidableEq, Repr

/-- What the host can do to the codec in one step (R187): issue an operation, reset it, or hand it an instruction word
to be recognised by the loaded catalog and run as the instruction of the opcode table that it is
(notes/assumptions/3.md). -/
inductive Request where
  | op (o : Operation)
  | instr (w : Word)
  | reset
  deriving DecidableEq, Repr

/-- The value an operation returns with `Ok` (the "Ok result" column of R23). -/
inductive Value where
  | unit
  | template (t : Template)
  | warnings (ws : List (Nat × CodecError))
  | found (t : Option Template)
  | templates (ts : List Template)
  | bound (bi : BoundInstruction)
  | word (w : Word)
  | text (s : Text)
  | decoded (m : Text) (operands : List BoundOperand)
  /-- An instruction of the opcode table, run: the word the encoder packed, and the mnemonic and operands the decoder
  recovered from that word (R1, R3; notes/assumptions/3.md). -/
  | coded (w : Word) (m : Text) (operands : List BoundOperand)
  deriving DecidableEq, Repr

/-- What the host gets back.  A strict `LOAD` that fails reports the line with the error (R83); every other outcome is
plain (R162). -/
inductive Response where
  | done (r : Result Value)
  | stoppedAt (line : Nat) (e : CodecError)
  deriving DecidableEq, Repr

/-- The codec has no faults: every failure is a returned value, and no error stops it (R150, R167, R172).  Nobody
raises one, which is safe: there is no constructor (notes/assumptions/11.md). -/
inductive Fault where
  deriving DecidableEq, Repr

/-- Why a step has no meaning in the model.  No step is refused: every operation is total (R10).  The three refusals of
R160 are returned values (`RefusalReason`). -/
inductive Refusal where
  /-- Raised by `exec` for an instruction that has no meaning yet; none is left.  Safe: nothing is claimed of it. -/
  | notModelled (mnemonic : String)
  deriving DecidableEq, Repr

/-- The state of one codec instance, with its parameters and its two ports. -/
structure State where
  /-- `REG`: the templates in insertion order (R19). -/
  reg : List Template
  /-- `PHASE` (R20). -/
  phase : Phase
  /-- The open parameters of this machine (R6, notes/assumptions/9.md); no step writes them. -/
  cfg : Config
  /-- MODEL's own: what the host has issued and the codec has not taken yet, oldest first. -/
  requests : List Request
  /-- MODEL's own: what the last step returned to the host; none after reset. -/
  response : Option Response
  deriving DecidableEq, Repr

/-- The machine right after reset (R29, R173): `REG` empty, `PHASE` = `LOAD`; the parameters at their defaults, no
request pending and no response. -/
def State.reset : State :=
  { reg := [], phase := .load, cfg := Config.default, requests := [], response := none }

end Sys2Proof.Machine
end

