-- ==== Sys2Proof/Machine/Ops.lean ====
section
/-! DEFINITION. The shared operations over state and outcomes.

There is no memory and no register file to read or write (spec/20_memory.md R33; spec/10_state.md R24, R27).  The
codec's counterpart of taking an exception is returning an error: it saves nothing, changes no mode and goes nowhere
but back to the caller (spec/60_exceptions.md R150, R167), and there is nothing to return from (R168).  `State.answer`
is that one operation: it hands a response to the host and writes nothing else. -/

namespace Sys2Proof.Machine

/-- Hand a response to the host: the end of every operation, `Ok`, `Err` and `Refused` alike (R10, R150). -/
def State.answer (s : State) (r : Response) : State := { s with response := some r }

/-- End a step with a response. -/
def respond (s : State) (r : Result Value) : Host.Outcome State Fault Refusal := .next (s.answer (.done r))

/-- Use the value of an outcome, or pass its error or refusal on: "every component surfaces failures to its caller"
(R150). -/
def Result.andThen {α β : Type} (r : Result α) (f : α → Result β) : Result β :=
  match r with
  | .ok a => f a
  | .err e => .err e
  | .refused x => .refused x

/-- The value of an outcome that ends in `Ok`. -/
def Result.toOption {α : Type} : Result α → Option α
  | .ok a => some a
  | .err _ => none
  | .refused _ => none

/-- Is the Registry at its capacity, `length(REG) = CAP`? (R89, R95) -/
def atCapacity (c : Config) (reg : List Template) : Bool :=
  match c.cap with
  | none => false
  | some n => decide (reg.length = n)

/-- Does a mnemonic fit the entry layout? (`MNEM_MAX`, R21, U12) -/
def mnemonicFits (c : Config) (m : Text) : Bool :=
  match c.mnemMax with
  | none => true
  | some n => decide (m.length ≤ n)

/-- The reset event (R29, R173): `REG` empty, `PHASE` = `LOAD`.  It has no result.  The machine's parameters, and what
the host goes on to issue, are not the codec's to clear (notes/assumptions/5.md). -/
def State.clear (s : State) : State := { s with reg := [], phase := .load, response := none }

/-- Take the oldest request off the port. -/
def State.withRequests (s : State) (rs : List Request) : State := { s with requests := rs }

/-- What running an instruction word needs of the Registry: the reference templates that claim it, and no other. -/
def templatesFor (w : Word) : List Template := candidates referenceCatalog w

/-- The state in which the very next request is the instruction word `w`, with the templates it is read by loaded in
place of the Registry's content. -/
def State.withInstrWord (s : State) (w : Word) : State :=
  { s with reg := templatesFor w, requests := .instr w :: s.requests }

end Sys2Proof.Machine
end

