-- ==== Sys2Proof/Machine/Binder.lean ====
section
/-! DEFINITION. The Operand Binder: `BIND` (spec/42_operand_binder.md R97 to R107). -/

namespace Sys2Proof.Machine

/-- The checks on one operand: range first, then evenness (R100 to R103, decision D8). -/
def checkOperand (k : OperandKind) (v : Int) : Option CodecError :=
  if !inRange k v then some .operandRange
  else if !isAligned k v then some .alignment
  else none

/-- The first failure in operand position order; later operands are not examined (R104). -/
def checkOperands : List OperandKind → List Int → Option CodecError
  | k :: ks, v :: vs =>
    match checkOperand k v with
    | some e => some e
    | none => checkOperands ks vs
  | _, _ => none

/-- `BIND(m, tokens)` (R97): lookup, arity, then the operands in order; on success every token with the kind of its
position, its value unchanged (R105). -/
def bindTokens (reg : List Template) (m : Text) (tokens : List Int) : Result BoundInstruction :=
  match lookup reg m with
  | none => .err .unknownMnemonic
  | some t =>
    if tokens.length ≠ (operandKinds t.format).length then .err .arityMismatch
    else
      match checkOperands (operandKinds t.format) tokens with
      | some e => .err e
      | none => .ok { template := t, operands := boundOperands t.format tokens }

/-- The operation `BIND` (R106: it writes nothing). -/
def opBind (m : Text) (tokens : List Int) (s : State) : Host.Outcome State Fault Refusal :=
  respond s ((bindTokens s.reg m tokens).andThen fun bi => .ok (.bound bi))

end Sys2Proof.Machine
end

