-- ==== Sys2Proof/Machine/Encoder.lean ====
section
/-! DEFINITION. The Field Encoder: `ENCODE`, `ASSEMBLE`, and the renderings `BITSTRING`, `HEX`
(spec/43_field_encoder.md R109 to R120). -/

namespace Sys2Proof.Machine

/-- `ENCODE(bi)` (R109): an argument that breaks R16 or R17 is refused before the funct check; nothing is masked or
truncated.  It reads no state. -/
def encodeBound (bi : BoundInstruction) : Result Word :=
  if validBound bi then packWord bi.template (bi.operands.map (·.value)) else .refused .invalidBoundInstruction

/-- The operation `ENCODE`. -/
def opEncode (bi : BoundInstruction) (s : State) : Host.Outcome State Fault Refusal :=
  respond s ((encodeBound bi).andThen fun w => .ok (.word w))

/-- `ASSEMBLE(m, tokens)`: the binder, then the encoder (R120, R165). -/
def assemble (reg : List Template) (m : Text) (tokens : List Int) : Result Word :=
  (bindTokens reg m tokens).andThen encodeBound

/-- The operation `ASSEMBLE`. -/
def opAssemble (m : Text) (tokens : List Int) (s : State) : Host.Outcome State Fault Refusal :=
  respond s ((assemble s.reg m tokens).andThen fun w => .ok (.word w))

/-- `BITSTRING(word)`: 32 characters, most significant bit first (R35, R118).  The spec speaks of characters: one byte
for each is DEDUCED, and 0x30 and 0x31 for `0` and `1`, as ASCII has them, is PRESUMED, notes/assumptions/14.md. -/
def bitString (w : Word) : Text := (List.range 32).map fun k => if w.getLsbD (31 - k) then 0x31 else 0x30

/-- The operation `BITSTRING`. -/
def opBitstring (w : Word) (s : State) : Host.Outcome State Fault Refusal := respond s (.ok (.text (bitString w)))

/-- One hexadecimal digit, letters in upper case (R119).  Its byte, 0x30 to 0x39 and 0x41 to 0x46 as ASCII has them,
is PRESUMED, notes/assumptions/14.md. -/
def hexDigit (d : BitVec 4) : Byte :=
  if d.toNat < 10 then BitVec.ofNat 8 (0x30 + d.toNat) else BitVec.ofNat 8 (0x37 + d.toNat)

/-- `HEX(word)`: `0x` and exactly eight digits, most significant first (R119, decision D18).  One byte for each character
is DEDUCED, the ASCII byte PRESUMED, notes/assumptions/14.md. -/
def hexString (w : Word) : Text :=
  ascii "0x" ++ (List.range 8).map fun k => hexDigit (w.extractLsb' (28 - 4 * k) 4)

/-- The operation `HEX`. -/
def opHex (w : Word) (s : State) : Host.Outcome State Fault Refusal := respond s (.ok (.text (hexString w)))

end Sys2Proof.Machine
end

