-- ==== Sys2Proof/Machine/Decoder.lean ====
section
/-! DEFINITION. The Field Decoder: `DECODE_T`, `DECODE_S` (spec/44_field_decoder.md R125 to R140), and the codec's whole
data flow, which is what an instruction of the opcode table does. -/

namespace Sys2Proof.Machine

/-- What a decode recovers: the template it was read by and the ordered operands (R134). -/
def decodedBy (t : Template) (w : Word) : BoundInstruction := { template := t, operands := extract t.format w }

/-- `DECODE_T(w, t)`: the given template is a search list of one (R126, decision D11).  It reads no state. -/
def decodeTemplate (w : Word) (t : Template) : Result BoundInstruction :=
  if matchesWord t w then .ok (decodedBy t w) else .err .unknownEncoding

/-- `DECODE_S(w)`: the whole Registry is searched (R127). -/
def decodeSearch (reg : List Template) (w : Word) : Result BoundInstruction :=
  (searchTemplate reg w).andThen fun t => .ok (decodedBy t w)

/-- The value a decode returns: mnemonic and operands (R134). -/
def decodedValue (bi : BoundInstruction) : Result Value := .ok (.decoded bi.template.mnemonic bi.operands)

/-- The operation `DECODE_T`. -/
def opDecodeT (w : Word) (t : Template) (s : State) : Host.Outcome State Fault Refusal :=
  respond s ((decodeTemplate w t).andThen decodedValue)

/-- The operation `DECODE_S`. -/
def opDecodeS (w : Word) (s : State) : Host.Outcome State Fault Refusal :=
  respond s ((decodeSearch s.reg w).andThen decodedValue)

/-- The data flow of R3 on one symbolic instruction: the Operand Binder (which consults the Registry), the Field
Encoder, and the Field Decoder on the word under the same template, "for verification" (R1). -/
def dataFlow (reg : List Template) (m : Text) (tokens : List Int) : Result Value :=
  (bindTokens reg m tokens).andThen fun bi =>
    (encodeBound bi).andThen fun w =>
      (decodeTemplate w bi.template).andThen fun d => .ok (.coded w d.template.mnemonic d.operands)

/-- Run a symbolic instruction: the codec encodes it and decodes it back, and returns the word, the mnemonic and the
operands, or the first error (notes/assumptions/3.md). -/
def runSymbolic (m : Text) (tokens : List Int) (s : State) : Host.Outcome State Fault Refusal :=
  respond s (dataFlow s.reg m tokens)

end Sys2Proof.Machine
end

