-- ==== Sys2Proof/Machine/FormatB.lean ====
section
/-! DEFINITION. The meanings of the B-format rows of the opcode table: layout spec/30_encoding.md R50, encode rule
R114, decode rule R131, operands in the order rs1, rs2, imm (R54).  Each is the codec's data flow on the row's
symbolic instruction: the template is the one loaded under the mnemonic (spec/45_reference_catalog.md R146). -/

namespace Sys2Proof.Machine

/-- The instruction of any B-format template, named by its mnemonic (R114, R131). -/
def execAnyB (m : Text) (rs1 rs2 imm : Int) (s : State) : Host.Outcome State Fault Refusal :=
  runSymbolic m [rs1, rs2, imm] s

/-- `beq` (R147: `beq,1100011,B,funct3(000)`; R114, R131). -/
def execBeq (rs1 rs2 imm : Int) (s : State) : Host.Outcome State Fault Refusal :=
  runSymbolic (ascii "beq") [rs1, rs2, imm] s

/-- `bne` (R147: `bne,1100011,B,funct3(001)`; R114, R131). -/
def execBne (rs1 rs2 imm : Int) (s : State) : Host.Outcome State Fault Refusal :=
  runSymbolic (ascii "bne") [rs1, rs2, imm] s

/-- `blt` (R147: `blt,1100011,B,funct3(100)`; R114, R131). -/
def execBlt (rs1 rs2 imm : Int) (s : State) : Host.Outcome State Fault Refusal :=
  runSymbolic (ascii "blt") [rs1, rs2, imm] s

/-- `bge` (R147: `bge,1100011,B,funct3(101)`; R114, R131). -/
def execBge (rs1 rs2 imm : Int) (s : State) : Host.Outcome State Fault Refusal :=
  runSymbolic (ascii "bge") [rs1, rs2, imm] s

/-- `bltu` (R147: `bltu,1100011,B,funct3(110)`; R114, R131). -/
def execBltu (rs1 rs2 imm : Int) (s : State) : Host.Outcome State Fault Refusal :=
  runSymbolic (ascii "bltu") [rs1, rs2, imm] s

/-- `bgeu` (R147: `bgeu,1100011,B,funct3(111)`; R114, R131). -/
def execBgeu (rs1 rs2 imm : Int) (s : State) : Host.Outcome State Fault Refusal :=
  runSymbolic (ascii "bgeu") [rs1, rs2, imm] s

end Sys2Proof.Machine
end

