-- ==== Sys2Proof/Machine/FormatI.lean ====
section
/-! DEFINITION. The meanings of the I-format rows of the opcode table: layout spec/30_encoding.md R48, encode rule
R112, decode rule R129, operands in the order rd, rs1, imm (R54).  Each is the codec's data flow on the row's
symbolic instruction: the template is the one loaded under the mnemonic (spec/45_reference_catalog.md R146). -/

namespace Sys2Proof.Machine

/-- The instruction of any I-format template, named by its mnemonic (R112, R129). -/
def execAnyI (m : Text) (rd rs1 imm : Int) (s : State) : Host.Outcome State Fault Refusal :=
  runSymbolic m [rd, rs1, imm] s

/-- `jalr` (R147: `jalr,1100111,I,funct3(000)`; R112, R129). -/
def execJalr (rd rs1 imm : Int) (s : State) : Host.Outcome State Fault Refusal :=
  runSymbolic (ascii "jalr") [rd, rs1, imm] s

/-- `lb` (R147: `lb,0000011,I,funct3(000)`; R112, R129). -/
def execLb (rd rs1 imm : Int) (s : State) : Host.Outcome State Fault Refusal :=
  runSymbolic (ascii "lb") [rd, rs1, imm] s

/-- `lh` (R147: `lh,0000011,I,funct3(001)`; R112, R129). -/
def execLh (rd rs1 imm : Int) (s : State) : Host.Outcome State Fault Refusal :=
  runSymbolic (ascii "lh") [rd, rs1, imm] s

/-- `lw` (R147: `lw,0000011,I,funct3(010)`; R112, R129). -/
def execLw (rd rs1 imm : Int) (s : State) : Host.Outcome State Fault Refusal :=
  runSymbolic (ascii "lw") [rd, rs1, imm] s

/-- `lbu` (R147: `lbu,0000011,I,funct3(100)`; R112, R129). -/
def execLbu (rd rs1 imm : Int) (s : State) : Host.Outcome State Fault Refusal :=
  runSymbolic (ascii "lbu") [rd, rs1, imm] s

/-- `lhu` (R147: `lhu,0000011,I,funct3(101)`; R112, R129). -/
def execLhu (rd rs1 imm : Int) (s : State) : Host.Outcome State Fault Refusal :=
  runSymbolic (ascii "lhu") [rd, rs1, imm] s

/-- `addi` (R147: `addi,0010011,I,funct3(000)`; R112, R129). -/
def execAddi (rd rs1 imm : Int) (s : State) : Host.Outcome State Fault Refusal :=
  runSymbolic (ascii "addi") [rd, rs1, imm] s

/-- `slti` (R147: `slti,0010011,I,funct3(010)`; R112, R129). -/
def execSlti (rd rs1 imm : Int) (s : State) : Host.Outcome State Fault Refusal :=
  runSymbolic (ascii "slti") [rd, rs1, imm] s

/-- `sltiu` (R147: `sltiu,0010011,I,funct3(011)`; R112, R129). -/
def execSltiu (rd rs1 imm : Int) (s : State) : Host.Outcome State Fault Refusal :=
  runSymbolic (ascii "sltiu") [rd, rs1, imm] s

/-- `xori` (R147: `xori,0010011,I,funct3(100)`; R112, R129). -/
def execXori (rd rs1 imm : Int) (s : State) : Host.Outcome State Fault Refusal :=
  runSymbolic (ascii "xori") [rd, rs1, imm] s

/-- `ori` (R147: `ori,0010011,I,funct3(110)`; R112, R129). -/
def execOri (rd rs1 imm : Int) (s : State) : Host.Outcome State Fault Refusal :=
  runSymbolic (ascii "ori") [rd, rs1, imm] s

/-- `andi` (R147: `andi,0010011,I,funct3(111)`; R112, R129). -/
def execAndi (rd rs1 imm : Int) (s : State) : Host.Outcome State Fault Refusal :=
  runSymbolic (ascii "andi") [rd, rs1, imm] s

/-- `fence` (R147: `fence,0001111,I,funct3(000)`; R112, R129). -/
def execFence (rd rs1 imm : Int) (s : State) : Host.Outcome State Fault Refusal :=
  runSymbolic (ascii "fence") [rd, rs1, imm] s

end Sys2Proof.Machine
end

