-- ==== Sys2Proof/Machine/FormatJ.lean ====
section
/-! DEFINITION. The meanings of the J-format rows of the opcode table: layout spec/30_encoding.md R52, encode rule
R116, decode rule R133, operands in the order rd, imm (R54).  Each is the codec's data flow on the row's
symbolic instruction: the template is the one loaded under the mnemonic (spec/45_reference_catalog.md R146). -/

namespace Sys2Proof.Machine

/-- The instruction of any J-format template, named by its mnemonic (R116, R133). -/
def execAnyJ (m : Text) (rd imm : Int) (s : State) : Host.Outcome State Fault Refusal :=
  runSymbolic m [rd, imm] s

/-- `jal` (R147: `jal,1101111,J`; R116, R133). -/
def execJal (rd imm : Int) (s : State) : Host.Outcome State Fault Refusal :=
  runSymbolic (ascii "jal") [rd, imm] s

end Sys2Proof.Machine
end

