-- ==== Sys2Proof/Machine/FormatR.lean ====
section
/-! DEFINITION. The meanings of the R-format rows of the opcode table: layout spec/30_encoding.md R47, encode rule
R111, decode rule R128, operands in the order rd, rs1, rs2 (R54).  Each is the codec's data flow on the row's
symbolic instruction: the template is the one loaded under the mnemonic (spec/45_reference_catalog.md R146). -/

namespace Sys2Proof.Machine

/-- The instruction of any R-format template, named by its mnemonic (R111, R128). -/
def execAnyR (m : Text) (rd rs1 rs2 : Int) (s : State) : Host.Outcome State Fault Refusal :=
  runSymbolic m [rd, rs1, rs2] s

/-- `slli` (R147: `slli,0010011,R,funct3(001),funct7(0000000)`; R111, R128). -/
def execSlli (rd rs1 rs2 : Int) (s : State) : Host.Outcome State Fault Refusal :=
  runSymbolic (ascii "slli") [rd, rs1, rs2] s

/-- `srli` (R147: `srli,0010011,R,funct3(101),funct7(0000000)`; R111, R128). -/
def execSrli (rd rs1 rs2 : Int) (s : State) : Host.Outcome State Fault Refusal :=
  runSymbolic (ascii "srli") [rd, rs1, rs2] s

/-- `srai` (R147: `srai,0010011,R,funct3(101),funct7(0100000)`; R111, R128). -/
def execSrai (rd rs1 rs2 : Int) (s : State) : Host.Outcome State Fault Refusal :=
  runSymbolic (ascii "srai") [rd, rs1, rs2] s

/-- `add` (R147: `add,0110011,R,funct3(000),funct7(0000000)`; R111, R128). -/
def execAdd (rd rs1 rs2 : Int) (s : State) : Host.Outcome State Fault Refusal :=
  runSymbolic (ascii "add") [rd, rs1, rs2] s

/-- `sub` (R147: `sub,0110011,R,funct3(000),funct7(0100000)`; R111, R128). -/
def execSub (rd rs1 rs2 : Int) (s : State) : Host.Outcome State Fault Refusal :=
  runSymbolic (ascii "sub") [rd, rs1, rs2] s

/-- `sll` (R147: `sll,0110011,R,funct3(001),funct7(0000000)`; R111, R128). -/
def execSll (rd rs1 rs2 : Int) (s : State) : Host.Outcome State Fault Refusal :=
  runSymbolic (ascii "sll") [rd, rs1, rs2] s

/-- `slt` (R147: `slt,0110011,R,funct3(010),funct7(0000000)`; R111, R128). -/
def execSlt (rd rs1 rs2 : Int) (s : State) : Host.Outcome State Fault Refusal :=
  runSymbolic (ascii "slt") [rd, rs1, rs2] s

/-- `sltu` (R147: `sltu,0110011,R,funct3(011),funct7(0000000)`; R111, R128). -/
def execSltu (rd rs1 rs2 : Int) (s : State) : Host.Outcome State Fault Refusal :=
  runSymbolic (ascii "sltu") [rd, rs1, rs2] s

/-- `xor` (R147: `xor,0110011,R,funct3(100),funct7(0000000)`; R111, R128). -/
def execXor (rd rs1 rs2 : Int) (s : State) : Host.Outcome State Fault Refusal :=
  runSymbolic (ascii "xor") [rd, rs1, rs2] s

/-- `srl` (R147: `srl,0110011,R,funct3(101),funct7(0000000)`; R111, R128). -/
def execSrl (rd rs1 rs2 : Int) (s : State) : Host.Outcome State Fault Refusal :=
  runSymbolic (ascii "srl") [rd, rs1, rs2] s

/-- `sra` (R147: `sra,0110011,R,funct3(101),funct7(0100000)`; R111, R128). -/
def execSra (rd rs1 rs2 : Int) (s : State) : Host.Outcome State Fault Refusal :=
  runSymbolic (ascii "sra") [rd, rs1, rs2] s

/-- `or` (R147: `or,0110011,R,funct3(110),funct7(0000000)`; R111, R128). -/
def execOr (rd rs1 rs2 : Int) (s : State) : Host.Outcome State Fault Refusal :=
  runSymbolic (ascii "or") [rd, rs1, rs2] s

/-- `and` (R147: `and,0110011,R,funct3(111),funct7(0000000)`; R111, R128). -/
def execAnd (rd rs1 rs2 : Int) (s : State) : Host.Outcome State Fault Refusal :=
  runSymbolic (ascii "and") [rd, rs1, rs2] s

end Sys2Proof.Machine
end

