-- ==== Sys2Proof/Machine/FormatS.lean ====
section
/-! DEFINITION. The meanings of the S-format rows of the opcode table: layout spec/30_encoding.md R49, encode rule
R113, decode rule R130, operands in the order rs1, rs2, imm (R54).  Each is the codec's data flow on the row's
symbolic instruction: the template is the one loaded under the mnemonic (spec/45_reference_catalog.md R146). -/

namespace Sys2Proof.Machine

/-- The instruction of any S-format template, named by its mnemonic (R113, R130). -/
def execAnyS (m : Text) (rs1 rs2 imm : Int) (s : State) : Host.Outcome State Fault Refusal :=
  runSymbolic m [rs1, rs2, imm] s

/-- `sb` (R147: `sb,0100011,S,funct3(000)`; R113, R130). -/
def execSb (rs1 rs2 imm : Int) (s : State) : Host.Outcome State Fault Refusal :=
  runSymbolic (ascii "sb") [rs1, rs2, imm] s

/-- `sh` (R147: `sh,0100011,S,funct3(001)`; R113, R130). -/
def execSh (rs1 rs2 imm : Int) (s : State) : Host.Outcome State Fault Refusal :=
  runSymbolic (ascii "sh") [rs1, rs2, imm] s

/-- `sw` (R147: `sw,0100011,S,funct3(010)`; R113, R130). -/
def execSw (rs1 rs2 imm : Int) (s : State) : Host.Outcome State Fault Refusal :=
  runSymbolic (ascii "sw") [rs1, rs2, imm] s

end Sys2Proof.Machine
end

