-- ==== Sys2Proof/Machine/FormatU.lean ====
section
/-! DEFINITION. The meanings of the U-format rows of the opcode table: layout spec/30_encoding.md R51, encode rule
R115, decode rule R132, operands in the order rd, imm (R54).  Each is the codec's data flow on the row's
symbolic instruction: the template is the one loaded under the mnemonic (spec/45_reference_catalog.md R146). -/

namespace Sys2Proof.Machine

/-- The instruction of any U-format template, named by its mnemonic (R115, R132). -/
def execAnyU (m : Text) (rd imm : Int) (s : State) : Host.Outcome State Fault Refusal :=
  runSymbolic m [rd, imm] s

/-- `lui` (R147: `lui,0110111,U`; R115, R132). -/
def execLui (rd imm : Int) (s : State) : Host.Outcome State Fault Refusal :=
  runSymbolic (ascii "lui") [rd, imm] s

/-- `auipc` (R147: `auipc,0010111,U`; R115, R132). -/
def execAuipc (rd imm : Int) (s : State) : Host.Outcome State Fault Refusal :=
  runSymbolic (ascii "auipc") [rd, imm] s

end Sys2Proof.Machine
end

