-- ==== Sys2Proof/Machine/Parser.lean ====
section
/-! DEFINITION. The Catalog Parser: `PARSE_LINE` (spec/40_catalog_parser.md R73 to R81, R87, R88). -/

namespace Sys2Proof.Machine

/-- The comma, at which a line is cut (R74).  Its byte is the ASCII one: PRESUMED, notes/assumptions/14.md. -/
def comma : Byte := 0x2C

/-- White space: space, tab, carriage return, line feed (R74).  Their bytes are the ASCII ones: PRESUMED,
notes/assumptions/14.md. -/
def isWhite (b : Byte) : Bool := decide (b = 0x20) || decide (b = 0x09) || decide (b = 0x0D) || decide (b = 0x0A)

/-- Cut a line at every comma: `n` commas give `n+1` fields, some of which may be empty (R74). -/
def cutAtCommas : Text → List Text
  | [] => [[]]
  | b :: bs =>
    if b = comma then [] :: cutAtCommas bs
    else
      match cutAtCommas bs with
      | [] => [[b]]
      | f :: fs => (b :: f) :: fs

/-- A field without its leading and trailing white space; inner white space stays (R74). -/
def trim (t : Text) : Text := ((t.dropWhile isWhite).reverse.dropWhile isWhite).reverse

/-- `split_and_trim(line)` (R73, R74). -/
def splitAndTrim (line : Text) : List Text := (cutAtCommas line).map trim

/-- `is_binary(s, n)`: exactly `n` characters, each `0` or `1` (R73).  The digits are the ASCII bytes: PRESUMED,
notes/assumptions/14.md. -/
def isBinary (s : Text) (n : Nat) : Bool :=
  decide (s.length = n) && s.all fun b => decide (b = 0x30) || decide (b = 0x31)

/-- `value(s)`: a binary string read most significant digit first (R73, R80).  The digits are the ASCII bytes:
PRESUMED, notes/assumptions/14.md. -/
def binaryValue (s : Text) : Nat := s.foldl (fun a b => 2 * a + if b = 0x31 then 1 else 0) 0

/-- The format a letter names, letters compared exactly (R74, R77).  The letters are the ASCII bytes: PRESUMED,
notes/assumptions/14.md. -/
def formatOfLetter (t : Text) : Option Format :=
  if t = ascii "R" then some .R
  else if t = ascii "I" then some .I
  else if t = ascii "S" then some .S
  else if t = ascii "B" then some .B
  else if t = ascii "U" then some .U
  else if t = ascii "J" then some .J
  else none

/-- The value in a field `<opening><n binary digits>)`, where `opening` is `funct3(` or `funct7(` (R78). -/
def functPayload (opening : Text) (n : Nat) (field : Text) : Option Nat :=
  let digits := (field.drop opening.length).dropLast
  if field = opening ++ digits ++ ascii ")" && isBinary digits n then some (binaryValue digits) else none

/-- The fields after the format letter, left to right (R78): each a well-formed `funct3(...)` or `funct7(...)`, in any
order, each at most once.  None is `MalformedFunct`. -/
def parseFuncts :
    List Text → Option (BitVec 3) → Option (BitVec 7) → Option (Option (BitVec 3) × Option (BitVec 7))
  | [], f3, f7 => some (f3, f7)
  | x :: xs, f3, f7 =>
    match functPayload (ascii "funct3(") 3 x, f3 with
    | some b, none => parseFuncts xs (some (BitVec.ofNat 3 b)) f7
    | _, _ =>
      match functPayload (ascii "funct7(") 7 x, f7 with
      | some b, none => parseFuncts xs f3 (some (BitVec.ofNat 7 b))
      | _, _ => none

/-- `PARSE_LINE`'s five checks in their order (R73, R75 to R81).  The mnemonic is not checked (R80). -/
def parseTemplate (line : Text) : Except ParseReason Template :=
  match splitAndTrim line with
  | m :: op :: letter :: functs =>
    if !isBinary op 7 then .error .badOpcodeLength
    else
      match formatOfLetter letter with
      | none => .error .unknownFormat
      | some f =>
        match parseFuncts functs none none with
        | none => .error .malformedFunct
        | some (f3, f7) =>
          let t : Template :=
            { mnemonic := m, opcode := BitVec.ofNat 7 (binaryValue op), format := f, funct3 := f3, funct7 := f7 }
          if t.wellFormed then .ok t else .error .missingRequiredFunct
  | _ => .error .tooFewFields

/-- `PARSE_LINE(line)`: it touches no state but the response (R73). -/
def opParseLine (line : Text) (s : State) : Host.Outcome State Fault Refusal :=
  match parseTemplate line with
  | .ok t => respond s (.ok (.template t))
  | .error r => respond s (.err (.catalogParse r))

end Sys2Proof.Machine
end

