-- ==== Sys2Proof/Machine/Registry.lean ====
section
/-! DEFINITION. The Instruction Registry: `ADD`, `LOOKUP`, `LIST`, `FREEZE` (spec/41_registry.md R89 to R95), and the
catalog loader `LOAD` (spec/40_catalog_parser.md R82 to R86). -/

namespace Sys2Proof.Machine

/-- The reason an `ADD` of a mnemonic longer than a finite `MNEM_MAX` is refused with: one of the two an `ADD` can be refused
with (R163), and the spec does not say which (U12, notes/assumptions/7.md). -/
def longMnemonicReason (s : State) (t : Template) : RefusalReason :=
  if Config.longMnemonicCountsAsFull s.cfg s.reg t then .registryFull else .registryFrozen

/-- `ADD`'s tests in their order, and the append, the only write of `REG`; `Ok` carries the state after it (R89, R93, R94,
R95).  Well-formedness is not tested.  A mnemonic longer than a finite `MNEM_MAX` is refused (U12), where R89's own tests
find nothing (notes/assumptions/7.md). -/
def tryAdd (s : State) (t : Template) : Result State :=
  if s.phase = .frozen then .refused .registryFrozen
  else if (lookup s.reg t.mnemonic).isSome then .err .duplicateMnemonic
  else if atCapacity s.cfg s.reg then .refused .registryFull
  else if !mnemonicFits s.cfg t.mnemonic then .refused (longMnemonicReason s t)
  else .ok { s with reg := s.reg ++ [t] }

/-- `ADD(t)` (R89). -/
def opAdd (t : Template) (s : State) : Host.Outcome State Fault Refusal :=
  match tryAdd s t with
  | .ok s' => respond s' (.ok .unit)
  | .err e => respond s (.err e)
  | .refused r => respond s (.refused r)

/-- `LOOKUP(m)`: always `Ok` (R90). -/
def opLookup (m : Text) (s : State) : Host.Outcome State Fault Refusal := respond s (.ok (.found (lookup s.reg m)))

/-- `LIST()`: the Registry in insertion order (R91). -/
def opList (s : State) : Host.Outcome State Fault Refusal := respond s (.ok (.templates s.reg))

/-- `FREEZE()`: always `Ok`; idempotent (R92). -/
def opFreeze (s : State) : Host.Outcome State Fault Refusal := respond { s with phase := .frozen } (.ok .unit)

/-- One line that is neither the header nor blank: parse it, then `ADD` the template (R82, R85). -/
def loadLine (line : Text) (s : State) : Result State :=
  match parseTemplate line with
  | .error r => .err (.catalogParse r)
  | .ok t => tryAdd s t

/-- The lines from index `k` on, with the warnings so far (R82 to R85).  The templates of earlier lines stay, when an
error or a refusal ends the load (notes/assumptions/13.md). -/
def loadFrom (mode : LoadMode) :
    Nat → List Text → List (Nat × CodecError) → State → Host.Outcome State Fault Refusal
  | _, [], ws, s => respond s (.ok (.warnings ws))
  | k, line :: rest, ws, s =>
    if line.all isWhite then loadFrom mode (k + 1) rest ws s
    else
      match loadLine line s with
      | .ok s' => loadFrom mode (k + 1) rest ws s'
      | .err e =>
        match mode with
        | .strict => .next (s.answer (.stoppedAt k e))
        | .lenient => loadFrom mode (k + 1) rest (ws ++ [(k, e)]) s
      | .refused r => respond s (.refused r)

/-- `LOAD(lines, mode)`: refused when frozen; line 0 is the header, whatever it holds (R82, R180, conflict C3). -/
def opLoad (lines : List Text) (mode : LoadMode) (s : State) : Host.Outcome State Fault Refusal :=
  if s.phase = .frozen then respond s (.refused .registryFrozen)
  else loadFrom mode 1 lines.tail [] s

end Sys2Proof.Machine
end

