-- ==== Sys2Proof/Machine/Serve.lean ====
section
/-! DEFINITION. The thirteen operations of spec/10_state.md R23, each one atomic step (spec/20_memory.md R38). -/

namespace Sys2Proof.Machine

/-- Perform one operation on the codec (R23). -/
def serve (o : Operation) (s : State) : Host.Outcome State Fault Refusal :=
  match o with
  | .parseLine line => opParseLine line s
  | .load lines mode => opLoad lines mode s
  | .add t => opAdd t s
  | .lookup m => opLookup m s
  | .list => opList s
  | .freeze => opFreeze s
  | .bind m tokens => opBind m tokens s
  | .encode bi => opEncode bi s
  | .assemble m tokens => opAssemble m tokens s
  | .bitstring w => opBitstring w s
  | .hex w => opHex w s
  | .decodeT w t => opDecodeT w t s
  | .decodeS w => opDecodeS w s

end Sys2Proof.Machine
end

