-- ==== Sys2Proof/Machine/Step.lean ====
section
/-! DEFINITION. One step of the codec: the oldest request of the host, taken as one atomic transaction
(spec/10_state.md R23; spec/20_memory.md R38, R41; spec/70_reset_and_hazards.md R185, R187). -/

namespace Sys2Proof.Machine

/-- Run an instruction word: recognise it by the loaded templates, then run the instruction it is; a word that no
template, or more than one, claims is answered with the decoder's error (R67, R68, R127). -/
def runWord (w : Word) (s : State) : Host.Outcome State Fault Refusal :=
  match decodeIn s.reg w with
  | .ok i => exec i s
  | .err e => respond s (.err e)
  | .refused r => respond s (.refused r)

/-- Take one request. -/
def take (r : Request) (s : State) : Host.Outcome State Fault Refusal :=
  match r with
  | .op o => serve o s
  | .instr w => runWord w s
  | .reset => .next s.clear

/-- One step.  The codec never acts on its own: with nothing issued, the state stays as it is (R187,
notes/assumptions/4.md). -/
def step (s : State) : Host.Outcome State Fault Refusal :=
  match s.requests with
  | [] => .next s
  | r :: rest => take r (s.withRequests rest)

/-- `s` with a table word as the codec's very next request, and the reference templates that claim that word as the
Registry's content: this stands for the host's load of a catalog (R175, notes/assumptions/6.md). -/
def State.withFetchWord (s : State) (nbits w : Nat) : State := s.withInstrWord (tableWord nbits w)

end Sys2Proof.Machine
end

