-- ==== Sys2Proof/Machine/Flags.lean ====
section
/-! DEFINITION. Status and reason codes (spec/60_exceptions.md R161, decision D16).

The codec has no status flags, condition codes or sticky error bits (spec/10_state.md R26): the outcome is returned
with the operation.  What stands here is the number a status port carries for an outcome; the names are normative and
the numbers are for a port only. -/

namespace Sys2Proof.Machine

/-- The 4-bit status code of an error (R161). -/
def CodecError.status : CodecError → BitVec 4
  | .catalogParse _ => 1
  | .duplicateMnemonic => 2
  | .unknownMnemonic => 3
  | .arityMismatch => 4
  | .operandRange => 5
  | .alignment => 6
  | .missingFunct => 7
  | .ambiguousDecode => 8
  | .unknownEncoding => 9

/-- The 4-bit status code of a refusal (R161). -/
def RefusalReason.status : RefusalReason → BitVec 4
  | .registryFrozen => 13
  | .registryFull => 14
  | .invalidBoundInstruction => 15

/-- The 3-bit reason code (R161). -/
def ParseReason.code : ParseReason → BitVec 3
  | .tooFewFields => 1
  | .badOpcodeLength => 2
  | .unknownFormat => 3
  | .malformedFunct => 4
  | .missingRequiredFunct => 5

/-- The reason code that goes with an error: 0 unless it is a `CatalogParseError` (R161, R162). -/
def CodecError.reasonCode : CodecError → BitVec 3
  | .catalogParse r => r.code
  | .duplicateMnemonic => 0
  | .unknownMnemonic => 0
  | .arityMismatch => 0
  | .operandRange => 0
  | .alignment => 0
  | .missingFunct => 0
  | .ambiguousDecode => 0
  | .unknownEncoding => 0

/-- The status code of an outcome: 0 for `Ok` (R161). -/
def Result.status {α : Type} : Result α → BitVec 4
  | .ok _ => 0
  | .err e => e.status
  | .refused r => r.status

/-- The reason code of an outcome. -/
def Result.reasonCode {α : Type} : Result α → BitVec 3
  | .ok _ => 0
  | .err e => e.reasonCode
  | .refused _ => 0

/-- The status code of a response. -/
def Response.status : Response → BitVec 4
  | .done r => r.status
  | .stoppedAt _ e => e.status

end Sys2Proof.Machine
end

