-- ==== Sys2Proof/Machine/Ports.lean ====
section
/-! DEFINITION. The hardware views of the codec: the register-file view of the Registry (spec/10_state.md R21), and the
port binding the spec suggests (R31).

No rule depends on the binding and no step reads this file; it says what the views show of the transaction level, which
is the normative one (notes/assumptions/8.md).  Operand values on a port are `OPW` = 32 bits, two's complement
(decision D2). -/

namespace Sys2Proof.Machine

/-- The 3-bit format tag (R13, decision D16). -/
def formatTag : Format → BitVec 3
  | .R => 0
  | .I => 1
  | .S => 2
  | .B => 3
  | .U => 4
  | .J => 5

/-- The format of a tag; 6 and 7 are not formats (R13). -/
def formatOfTag (b : BitVec 3) : Option Format :=
  match b.toNat with
  | 0 => some .R
  | 1 => some .I
  | 2 => some .S
  | 3 => some .B
  | 4 => some .U
  | 5 => some .J
  | _ => none

/-- The fields of a valid Registry entry (R21).  `funct3` is meaningless when `f3v` = 0, so it is an option and no
value stands in its place; so is `funct7`. -/
structure EntryFields where
  mnemonic : Text
  opcode : BitVec 7
  format : BitVec 3
  f3v : Bool
  funct3 : Option (BitVec 3)
  f7v : Bool
  funct7 : Option (BitVec 7)
  deriving DecidableEq, Repr

/-- The entry a template is stored as (R21). -/
def entryOf (t : Template) : EntryFields :=
  { mnemonic := t.mnemonic, opcode := t.opcode, format := formatTag t.format, f3v := t.funct3.isSome,
    funct3 := t.funct3, f7v := t.funct7.isSome, funct7 := t.funct7 }

/-- Entry `k` of the Registry; none when its `valid` bit is 0, and then its other fields are unreadable (R21, R29,
U10). -/
def entryAt (reg : List Template) (k : Nat) : Option EntryFields := reg[k]?.map entryOf

/-- `valid[k]` (R21). -/
def entryValid (reg : List Template) (k : Nat) : Bool := (entryAt reg k).isSome

/-- The template inputs of the encoder and the decoder (R31). -/
structure TemplatePort where
  format : BitVec 3
  opcode : BitVec 7
  f3v : Bool
  funct3 : BitVec 3
  f7v : Bool
  funct7 : BitVec 7
  deriving DecidableEq, Repr

/-- The template the inputs stand for; a tag of 6 or 7 stands for none.  A port carries no mnemonic, and neither the
encoder nor the match reads one (R117). -/
def TemplatePort.template (p : TemplatePort) : Option Template :=
  (formatOfTag p.format).map fun f =>
    { mnemonic := [], opcode := p.opcode, format := f, funct3 := if p.f3v then some p.funct3 else none,
      funct7 := if p.f7v then some p.funct7 else none }

/-- The operand values of the format on the operand inputs, unused inputs ignored (R31, D2). -/
def portTokens (f : Format) (op0 op1 op2 : BitVec 32) : List Int :=
  ([op0, op1, op2].take (operandKinds f).length).map BitVec.toInt

/-- The outputs of the encoder.  A word stands only beside status `Ok`: what `enc_word` carries under another status the
spec does not say, and the view gives it no value (DESIGN CHOICE, notes/assumptions/8.md). -/
structure EncoderOut where
  word : Option Word
  status : BitVec 4
  deriving DecidableEq, Repr

/-- `enc_word` and `enc_status` (R31): the binder's checks on the signed values (D2), then the encoder.  None for a tag
that is no format. -/
def encodePort (p : TemplatePort) (op0 op1 op2 : BitVec 32) : Option EncoderOut :=
  p.template.map fun t =>
    let tokens := portTokens t.format op0 op1 op2
    let result : Result Word :=
      match checkOperands (operandKinds t.format) tokens with
      | some e => .err e
      | none => encodeBound { template := t, operands := boundOperands t.format tokens }
    { word := result.toOption, status := result.status }

/-- The outputs of the decoder.  `op2` has no value in the two-operand formats U and J, and no operand output has one
beside a status other than `Ok`: the spec does not say what they carry then (DESIGN CHOICE,
notes/assumptions/8.md). -/
structure DecoderOut where
  op0 : Option (BitVec 32)
  op1 : Option (BitVec 32)
  op2 : Option (BitVec 32)
  status : BitVec 4
  deriving DecidableEq, Repr

/-- What a decode shows on the decoder's outputs: the operands in the format's order, immediates sign-extended to
`OPW`. -/
def decoderOut (r : Result BoundInstruction) : DecoderOut :=
  let value (k : Nat) : Option (BitVec 32) :=
    r.toOption.bind fun bi => bi.operands[k]?.map fun o => BitVec.ofInt 32 o.value
  { op0 := value 0, op1 := value 1, op2 := value 2, status := r.status }

/-- `dec_op0..2` and `dec_status` of template mode (R31).  None for a tag that is no format. -/
def decodePort (p : TemplatePort) (w : Word) : Option DecoderOut :=
  p.template.map fun t => decoderOut (decodeTemplate w t)

/-- `dec_index` of search mode (R31): the index of the one entry that matches. -/
def searchIndex (reg : List Template) (w : Word) : Result Nat :=
  (searchTemplate reg w).andThen fun t => .ok (reg.idxOf t)

/-- The outputs of search mode: those of the decoder, and `dec_index`, which has a value beside status `Ok` only
(DESIGN CHOICE, notes/assumptions/8.md). -/
structure SearchOut where
  out : DecoderOut
  index : Option Nat
  deriving DecidableEq, Repr

/-- `dec_op0..2`, `dec_status` and `dec_index` of search mode (R31). -/
def searchPort (reg : List Template) (w : Word) : SearchOut :=
  { out := decoderOut (decodeSearch reg w), index := (searchIndex reg w).toOption }

/-- The Registry write port (R31): `add_valid` and the entry fields of R21. -/
structure WritePort where
  addValid : Bool
  mnemonic : Text
  fields : TemplatePort
  deriving DecidableEq, Repr

/-- The template on the write port; none while `add_valid` is 0, or for a tag that is no format. -/
def WritePort.template (p : WritePort) : Option Template :=
  if p.addValid then p.fields.template.map fun t => { t with mnemonic := p.mnemonic } else none

/-- What the write port does to the codec: the `ADD` of its template, and nothing without one (R31, R89). -/
def writePort (p : WritePort) (s : State) : Host.Outcome State Fault Refusal :=
  match p.template with
  | none => .next s
  | some t => opAdd t s

/-- `add_status` (R31): the status of the `ADD`; none when nothing is added.  What it carries then the spec does not say
(DESIGN CHOICE, notes/assumptions/8.md). -/
def addStatus (p : WritePort) (s : State) : Option (BitVec 4) :=
  p.template.bind fun t =>
    match opAdd t s with
    | .next s' => s'.response.map Response.status
    | .fault _ => none
    | .refused _ => none

end Sys2Proof.Machine
end

