-- ==== Sys2Proof/Machine/System.lean ====
section
/-! DEFINITION. Several codec instances side by side (spec/10_state.md R32; spec/60_exceptions.md R170): each has its own
Registry and phase, and they share nothing.  The rules, and `step`, are about one
instance (notes/assumptions/12.md). -/

namespace Sys2Proof.Machine

/-- Any number of instances. -/
abbrev System := List State

/-- Perform one request on instance `k`, out of any queue; none when there is no such instance or the request has no
meaning. -/
def System.perform (sys : System) (k : Nat) (r : Request) : Option System :=
  match sys[k]? with
  | none => none
  | some s =>
    match take r s with
    | .next s' => some (sys.set k s')
    | .fault _ => none
    | .refused _ => none

end Sys2Proof.Machine
end

