-- ==== Sys2Proof/Safety.lean ====
section
/-! DEFINITION. What counts as a good state and a safe run, in the terms the claims use (spec/41_registry.md R93;
spec/44_field_decoder.md R137; spec/60_exceptions.md R163, R172). -/

namespace Sys2Proof.Machine

/-- (a) of R93: no two templates have the same mnemonic. -/
def distinctMnemonics (reg : List Template) : Prop := (reg.map (·.mnemonic)).Nodup

/-- (d) of R93: `length(REG) ≤ CAP`. -/
def withinCapacity (c : Config) (reg : List Template) : Prop := ∀ n, c.cap = some n → reg.length ≤ n

/-- Every stored mnemonic fits the entry layout (R21). -/
def mnemonicsFit (c : Config) (reg : List Template) : Prop := ∀ t ∈ reg, mnemonicFits c t.mnemonic = true

/-- The invariant of a codec: what R93 says of `REG`, (a) and (d), and the bound of R21. -/
structure State.Inv (s : State) : Prop where
  distinct : distinctMnemonics s.reg
  capacity : withinCapacity s.cfg s.reg
  fit : mnemonicsFit s.cfg s.reg

/-- A Registry in which no two templates match a common word (R137). -/
def unambiguous (reg : List Template) : Prop := ∀ w : Word, (candidates reg w).length ≤ 1

/-- The codec itself is the same in two states: `REG` and `PHASE`, the whole of it (R22). -/
def State.sameCodec (s t : State) : Prop := t.reg = s.reg ∧ t.phase = s.phase

/-- Nothing but the response differs: `REG`, `PHASE`, the parameters and what the host has issued are the same. -/
def State.onlyAnswered (s t : State) : Prop :=
  t.reg = s.reg ∧ t.phase = s.phase ∧ t.cfg = s.cfg ∧ t.requests = s.requests

/-- Did an operation end in `Ok`? (R10) -/
def Response.isOk : Response → Bool
  | .done (.ok _) => true
  | .done (.err _) => false
  | .done (.refused _) => false
  | .stoppedAt _ _ => false

end Sys2Proof.Machine
end

