-- ==== Sys2Proof/Certificates/Slice0/Obligations.lean ====
section
/-! DEFINITION. The statements for the provers.

A response is named by what it hands back: `answered s v` is the next state that differs from `s` only in the response
`Ok(v)`, `failed s e` the one with `Err(e)`, `turnedDown s r` the one with `Refused(r)`.  What a statement expects of a
word is written as a number, in the arithmetic of the "as a number" lines of spec/43_field_encoder.md, not with the
model's own layout functions. -/

open Sys2Proof Sys2Proof.Machine

namespace Sys2Proof.Claims

/-- The next state after an operation that ends in `Ok(v)` and writes nothing. -/
def answered (s : State) (v : Value) : Host.Outcome State Fault Refusal := .next (s.answer (.done (.ok v)))

/-- The next state after an operation that ends in `Err(e)`. -/
def failed (s : State) (e : CodecError) : Host.Outcome State Fault Refusal := .next (s.answer (.done (.err e)))

/-- The next state after an operation that ends in `Refused(r)`. -/
def turnedDown (s : State) (r : RefusalReason) : Host.Outcome State Fault Refusal :=
  .next (s.answer (.done (.refused r)))

/-- The 32-bit word of a number. -/
def wordOf (n : Int) : Word := BitVec.ofInt 32 n

/-- The number `ENC.R` writes (R111); `v / 2^lo % 2^k` is the slice of `k` bits of `v` from bit `lo` up. -/
def numberR (f7 f3 op : Nat) (rd rs1 rs2 : Int) : Int :=
  f7 * 2 ^ 25 + rs2 * 2 ^ 20 + rs1 * 2 ^ 15 + f3 * 2 ^ 12 + rd * 2 ^ 7 + op

/-- The number `ENC.I` writes (R112); `v / 2^lo % 2^k` is the slice of `k` bits of `v` from bit `lo` up. -/
def numberI (f3 op : Nat) (rd rs1 imm : Int) : Int :=
  imm % 2 ^ 12 * 2 ^ 20 + rs1 * 2 ^ 15 + f3 * 2 ^ 12 + rd * 2 ^ 7 + op

/-- The number `ENC.S` writes (R113); `v / 2^lo % 2^k` is the slice of `k` bits of `v` from bit `lo` up. -/
def numberS (f3 op : Nat) (rs1 rs2 imm : Int) : Int :=
  imm / 2 ^ 5 % 2 ^ 7 * 2 ^ 25 + rs2 * 2 ^ 20 + rs1 * 2 ^ 15 + f3 * 2 ^ 12 + imm % 2 ^ 5 * 2 ^ 7 + op

/-- The number `ENC.B` writes (R114); `v / 2^lo % 2^k` is the slice of `k` bits of `v` from bit `lo` up. -/
def numberB (f3 op : Nat) (rs1 rs2 imm : Int) : Int :=
  imm / 2 ^ 12 % 2 * 2 ^ 31 + imm / 2 ^ 5 % 2 ^ 6 * 2 ^ 25 + rs2 * 2 ^ 20 + rs1 * 2 ^ 15 + f3 * 2 ^ 12
    + imm / 2 % 2 ^ 4 * 2 ^ 8 + imm / 2 ^ 11 % 2 * 2 ^ 7 + op

/-- The number `ENC.U` writes (R115); `v / 2^lo % 2^k` is the slice of `k` bits of `v` from bit `lo` up. -/
def numberU (op : Nat) (rd imm : Int) : Int :=
  imm % 2 ^ 20 * 2 ^ 12 + rd * 2 ^ 7 + op

/-- The number `ENC.J` writes (R116); `v / 2^lo % 2^k` is the slice of `k` bits of `v` from bit `lo` up. -/
def numberJ (op : Nat) (rd imm : Int) : Int :=
  imm / 2 ^ 20 % 2 * 2 ^ 31 + imm / 2 % 2 ^ 10 * 2 ^ 21 + imm / 2 ^ 11 % 2 * 2 ^ 20 + imm / 2 ^ 12 % 2 ^ 8 * 2 ^ 12
    + rd * 2 ^ 7 + op

/-- The operands `DEC.R` .. `DEC.J` read out of the number `n` (R128 to R133): registers unsigned, immediates
sign-extended from their 12, 12, 13, 20 and 21 bits. -/
def signed (bits u : Nat) : Int := if u < 2 ^ (bits - 1) then (u : Int) else (u : Int) - 2 ^ bits

def fieldsOf (f : Format) (n : Nat) : List BoundOperand :=
  let rd : Int := (n / 2 ^ 7 % 2 ^ 5 : Nat)
  let rs1 : Int := (n / 2 ^ 15 % 2 ^ 5 : Nat)
  let rs2 : Int := (n / 2 ^ 20 % 2 ^ 5 : Nat)
  match f with
  | .R => [⟨.rd, rd⟩, ⟨.rs1, rs1⟩, ⟨.rs2, rs2⟩]
  | .I => [⟨.rd, rd⟩, ⟨.rs1, rs1⟩, ⟨.imm .w12 false, signed 12 (n / 2 ^ 20)⟩]
  | .S => [⟨.rs1, rs1⟩, ⟨.rs2, rs2⟩, ⟨.imm .w12 false, signed 12 (n / 2 ^ 25 * 2 ^ 5 + n / 2 ^ 7 % 2 ^ 5)⟩]
  | .B => [⟨.rs1, rs1⟩, ⟨.rs2, rs2⟩,
      ⟨.imm .w12 true, signed 13 (n / 2 ^ 31 * 2 ^ 12 + n / 2 ^ 7 % 2 * 2 ^ 11 + n / 2 ^ 25 % 2 ^ 6 * 2 ^ 5
        + n / 2 ^ 8 % 2 ^ 4 * 2)⟩]
  | .U => [⟨.rd, rd⟩, ⟨.imm .w20 false, signed 20 (n / 2 ^ 12)⟩]
  | .J => [⟨.rd, rd⟩,
      ⟨.imm .w20 true, signed 21 (n / 2 ^ 31 * 2 ^ 20 + n / 2 ^ 12 % 2 ^ 8 * 2 ^ 12 + n / 2 ^ 20 % 2 * 2 ^ 11
        + n / 2 ^ 21 % 2 ^ 10 * 2)⟩]

/-- The least and the greatest value the range check of a kind lets through (R100 to R102). -/
def rangeOf : OperandKind → Int × Int
  | .rd => (0, 31)
  | .rs1 => (0, 31)
  | .rs2 => (0, 31)
  | .imm .w12 false => (-2048, 2047)
  | .imm .w20 false => (-524288, 524287)
  | .imm .w12 true => (-4096, 4095)
  | .imm .w20 true => (-1048576, 1048575)

/-- Must an operand of this kind be even? (R103) -/
def evenOnly : OperandKind → Prop
  | .imm _ true => True
  | .imm _ false => False
  | .rd => False
  | .rs1 => False
  | .rs2 => False

/-- The token lists the binder accepts, per format (the table of R107). -/
def accepted : Format → List Int → Prop
  | .R, [rd, rs1, rs2] => (0 ≤ rd ∧ rd ≤ 31) ∧ (0 ≤ rs1 ∧ rs1 ≤ 31) ∧ (0 ≤ rs2 ∧ rs2 ≤ 31)
  | .I, [rd, rs1, imm] => (0 ≤ rd ∧ rd ≤ 31) ∧ (0 ≤ rs1 ∧ rs1 ≤ 31) ∧ (-2048 ≤ imm ∧ imm ≤ 2047)
  | .S, [rs1, rs2, imm] => (0 ≤ rs1 ∧ rs1 ≤ 31) ∧ (0 ≤ rs2 ∧ rs2 ≤ 31) ∧ (-2048 ≤ imm ∧ imm ≤ 2047)
  | .B, [rs1, rs2, imm] =>
    (0 ≤ rs1 ∧ rs1 ≤ 31) ∧ (0 ≤ rs2 ∧ rs2 ≤ 31) ∧ (-4096 ≤ imm ∧ imm ≤ 4094 ∧ imm % 2 = 0)
  | .U, [rd, imm] => (0 ≤ rd ∧ rd ≤ 31) ∧ (-524288 ≤ imm ∧ imm ≤ 524287)
  | .J, [rd, imm] => (0 ≤ rd ∧ rd ≤ 31) ∧ (-1048576 ≤ imm ∧ imm ≤ 1048574 ∧ imm % 2 = 0)
  | _, _ => False

/-- Does the template lack a funct value its format requires? R needs both, I, S and B need funct3 (R15). -/
def lacksFunct (t : Template) : Prop :=
  (t.format = .R ∧ (t.funct3 = none ∨ t.funct7 = none)) ∨
    ((t.format = .I ∨ t.format = .S ∨ t.format = .B) ∧ t.funct3 = none)

/-- `mask(t)`, by the format of `t` (the table of R66). -/
def maskOf : Format → Nat
  | .R => 0xFE00707F
  | .I => 0x0000707F
  | .S => 0x0000707F
  | .B => 0x0000707F
  | .U => 0x0000007F
  | .J => 0x0000007F

/-- `match(t)` as a number (the table of R66). -/
def matchNumber (t : Template) : Nat :=
  let f3 := (t.funct3.map BitVec.toNat).getD 0
  let f7 := (t.funct7.map BitVec.toNat).getD 0
  match t.format with
  | .R => f7 * 2 ^ 25 + f3 * 2 ^ 12 + t.opcode.toNat
  | .I => f3 * 2 ^ 12 + t.opcode.toNat
  | .S => f3 * 2 ^ 12 + t.opcode.toNat
  | .B => f3 * 2 ^ 12 + t.opcode.toNat
  | .U => t.opcode.toNat
  | .J => t.opcode.toNat

/-- The lines of a catalog that are definitions: not the first, and not blank (R82). -/
def definitionLines (lines : List Text) : List Text := lines.tail.filter fun l => !l.all isWhite

/-- The definition lines of a catalog that have no warning, in line order. -/
def loadedLines (lines : List Text) (ws : List (Nat × CodecError)) : List Text :=
  ((lines.tail.zipIdx 1).filter fun p => !p.1.all isWhite && !(ws.map Prod.fst).contains p.2).map Prod.fst

/-- What a lenient load makes of these lines, beginning with the Registry `reg`: `added` are the templates of the
definition lines without a warning, in line order, and `ws` has one warning for each of the others, in line order, with
the line's parse error, or with the duplicate error where its mnemonic is in `reg` or on an earlier line without a
warning (R84, R85). -/
def accountsFor (reg : List Template) (lines : List Text) (added : List Template)
    (ws : List (Nat × CodecError)) : Prop :=
  (loadedLines lines ws).map parseTemplate = added.map Except.ok ∧
  (distinctMnemonics reg → distinctMnemonics (reg ++ added)) ∧
  (ws.map Prod.fst).Pairwise (· < ·) ∧
  ∀ p ∈ ws, ∃ line, 1 ≤ p.1 ∧ lines[p.1]? = some line ∧ line.all isWhite = false ∧
    ((∃ r, parseTemplate line = .error r ∧ p.2 = .catalogParse r) ∨
      ∃ u x, parseTemplate line = .ok u ∧ x.mnemonic = u.mnemonic ∧ p.2 = .duplicateMnemonic ∧
        (x ∈ reg ∨ ∃ l ∈ loadedLines (lines.take p.1) ws, parseTemplate l = .ok x))

/-- The number of a format's tag (R13). -/
def tagNumber : Format → Nat
  | .R => 0
  | .I => 1
  | .S => 2
  | .B => 3
  | .U => 4
  | .J => 5

/-- `n` binary digits of `v`, most significant first, each its ASCII byte (notes/assumptions/14.md). -/
def binaryDigits (n v : Nat) : Text := (List.range n).map fun k => if v.testBit (n - 1 - k) then 0x31 else 0x30

/-- The letter of a format. -/
def letterOf : Format → Text
  | .R => ascii "R"
  | .I => ascii "I"
  | .S => ascii "S"
  | .B => ascii "B"
  | .U => ascii "U"
  | .J => ascii "J"

/-- The `funct3(...)` and `funct7(...)` fields of a template, in either order. -/
def functFields (t : Template) (funct7First : Bool) : List Text :=
  let three := t.funct3.toList.map fun f => ascii "funct3(" ++ binaryDigits 3 f.toNat ++ ascii ")"
  let seven := t.funct7.toList.map fun f => ascii "funct7(" ++ binaryDigits 7 f.toNat ++ ascii ")"
  if funct7First then seven ++ three else three ++ seven

/-- The catalog line of a template in the grammar of R73, with `pad` after every comma. -/
def catalogLine (t : Template) (pad : Text) (funct7First : Bool) : Text :=
  List.intercalate (ascii "," ++ pad)
    (t.mnemonic :: binaryDigits 7 t.opcode.toNat :: letterOf t.format :: functFields t funct7First)

/-- A string of exactly `n` binary digits (R73), each its ASCII byte (notes/assumptions/14.md). -/
def digitString (n : Nat) (x : Text) : Prop := x.length = n ∧ ∀ b ∈ x, b = 0x30 ∨ b = 0x31

/-- `funct3(` and three binary digits and `)` (R78). -/
def funct3Text (x : Text) : Prop := ∃ digits, digitString 3 digits ∧ x = ascii "funct3(" ++ digits ++ ascii ")"

/-- `funct7(` and seven binary digits and `)` (R78). -/
def funct7Text (x : Text) : Prop := ∃ digits, digitString 7 digits ∧ x = ascii "funct7(" ++ digits ++ ascii ")"

/-- The fields after the format letter are all funct fields, none of them given twice (R78). -/
def goodFuncts (xs : List Text) : Prop :=
  (∀ x ∈ xs, funct3Text x ∨ funct7Text x) ∧
    xs.Pairwise fun x y => ¬ (funct3Text x ∧ funct3Text y) ∧ ¬ (funct7Text x ∧ funct7Text y)

/-- The funct fields that a format requires are there (R79). -/
def requiredThere (f : Format) (xs : List Text) : Prop :=
  (f = .R ∨ f = .I ∨ f = .S ∨ f = .B → ∃ x ∈ xs, funct3Text x) ∧ (f = .R → ∃ x ∈ xs, funct7Text x)

/-- The first operand that `p` holds of, as a number. -/
def operandValue (p : OperandKind → Bool) (bi : BoundInstruction) : Int :=
  ((bi.operands.find? fun o => p o.kind).map (·.value)).getD 0

/-- The number a field write of a layout table stores (R46): the slice of the value that the table names. -/
def sourceNumber (bi : BoundInstruction) : FieldSource → Int
  | .opcode => bi.template.opcode.toNat
  | .funct3 => (bi.template.funct3.map BitVec.toNat).getD 0
  | .funct7 => (bi.template.funct7.map BitVec.toNat).getD 0
  | .rd => operandValue (fun k => decide (k = .rd)) bi
  | .rs1 => operandValue (fun k => decide (k = .rs1)) bi
  | .rs2 => operandValue (fun k => decide (k = .rs2)) bi
  | .imm hi lo =>
    operandValue (fun k => decide (k ≠ .rd ∧ k ≠ .rs1 ∧ k ≠ .rs2)) bi / 2 ^ lo % 2 ^ (hi - lo + 1)

end Sys2Proof.Claims

open Sys2Proof.Claims

/-! ### The instructions of the opcode table -/

/-- Every R-format row completes: under the R template loaded for its mnemonic and legal operands, the next state
returns the word of R111 and the decoded mnemonic and operands.  (That both come back from one step is the model's
choice, notes/assumptions/3.md; that a mnemonic's characters are their ASCII bytes is its reading,
notes/assumptions/14.md.) -/
def Obligations.RFormatRowsComplete : Prop :=
  ∀ (s : State) (m : Text) (t : Template) (f7 : BitVec 7) (f3 : BitVec 3) (rd rs1 rs2 : Int),
    t.format = .R → t.funct7 = some f7 → t.funct3 = some f3 →
    0 ≤ rd → rd ≤ 31 →
    0 ≤ rs1 → rs1 ≤ 31 →
    0 ≤ rs2 → rs2 ≤ 31 →
    ∀ row ∈ [(ascii "slli", Instr.slli), (ascii "srli", Instr.srli), (ascii "srai", Instr.srai), (ascii "add", Instr.add),
        (ascii "sub", Instr.sub), (ascii "sll", Instr.sll), (ascii "slt", Instr.slt), (ascii "sltu", Instr.sltu),
        (ascii "xor", Instr.xor), (ascii "srl", Instr.srl), (ascii "sra", Instr.sra), (ascii "or", Instr.or),
        (ascii "and", Instr.and), (m, Instr.anyR m)],
      lookup s.reg row.1 = some t →
        exec (row.2 rd rs1 rs2) s =
          answered s (.coded (wordOf (numberR f7.toNat f3.toNat t.opcode.toNat rd rs1 rs2)) row.1
            [⟨.rd, rd⟩, ⟨.rs1, rs1⟩, ⟨.rs2, rs2⟩])

/-- Every I-format row completes: under the I template loaded for its mnemonic and legal operands, the next state
returns the word of R112 and the decoded mnemonic and operands.  (That both come back from one step is the model's
choice, notes/assumptions/3.md; that a mnemonic's characters are their ASCII bytes is its reading,
notes/assumptions/14.md.) -/
def Obligations.IFormatRowsComplete : Prop :=
  ∀ (s : State) (m : Text) (t : Template) (f3 : BitVec 3) (rd rs1 imm : Int),
    t.format = .I → t.funct3 = some f3 →
    0 ≤ rd → rd ≤ 31 →
    0 ≤ rs1 → rs1 ≤ 31 →
    -2048 ≤ imm → imm ≤ 2047 →
    ∀ row ∈ [(ascii "jalr", Instr.jalr), (ascii "lb", Instr.lb), (ascii "lh", Instr.lh), (ascii "lw", Instr.lw),
        (ascii "lbu", Instr.lbu), (ascii "lhu", Instr.lhu), (ascii "addi", Instr.addi), (ascii "slti", Instr.slti),
        (ascii "sltiu", Instr.sltiu), (ascii "xori", Instr.xori), (ascii "ori", Instr.ori), (ascii "andi", Instr.andi),
        (ascii "fence", Instr.fence), (m, Instr.anyI m)],
      lookup s.reg row.1 = some t →
        exec (row.2 rd rs1 imm) s =
          answered s (.coded (wordOf (numberI f3.toNat t.opcode.toNat rd rs1 imm)) row.1
            [⟨.rd, rd⟩, ⟨.rs1, rs1⟩, ⟨.imm .w12 false, imm⟩])

/-- Every S-format row completes: under the S template loaded for its mnemonic and legal operands, the next state
returns the word of R113 and the decoded mnemonic and operands.  (That both come back from one step is the model's
choice, notes/assumptions/3.md; that a mnemonic's characters are their ASCII bytes is its reading,
notes/assumptions/14.md.) -/
def Obligations.SFormatRowsComplete : Prop :=
  ∀ (s : State) (m : Text) (t : Template) (f3 : BitVec 3) (rs1 rs2 imm : Int),
    t.format = .S → t.funct3 = some f3 →
    0 ≤ rs1 → rs1 ≤ 31 →
    0 ≤ rs2 → rs2 ≤ 31 →
    -2048 ≤ imm → imm ≤ 2047 →
    ∀ row ∈ [(ascii "sb", Instr.sb), (ascii "sh", Instr.sh), (ascii "sw", Instr.sw), (m, Instr.anyS m)],
      lookup s.reg row.1 = some t →
        exec (row.2 rs1 rs2 imm) s =
          answered s (.coded (wordOf (numberS f3.toNat t.opcode.toNat rs1 rs2 imm)) row.1
            [⟨.rs1, rs1⟩, ⟨.rs2, rs2⟩, ⟨.imm .w12 false, imm⟩])

/-- Every B-format row completes: under the B template loaded for its mnemonic and legal operands, the next state
returns the word of R114 and the decoded mnemonic and operands.  (That both come back from one step is the model's
choice, notes/assumptions/3.md; that a mnemonic's characters are their ASCII bytes is its reading,
notes/assumptions/14.md.) -/
def Obligations.BFormatRowsComplete : Prop :=
  ∀ (s : State) (m : Text) (t : Template) (f3 : BitVec 3) (rs1 rs2 imm : Int),
    t.format = .B → t.funct3 = some f3 →
    0 ≤ rs1 → rs1 ≤ 31 →
    0 ≤ rs2 → rs2 ≤ 31 →
    -4096 ≤ imm → imm ≤ 4094 → imm % 2 = 0 →
    ∀ row ∈ [(ascii "beq", Instr.beq), (ascii "bne", Instr.bne), (ascii "blt", Instr.blt), (ascii "bge", Instr.bge),
        (ascii "bltu", Instr.bltu), (ascii "bgeu", Instr.bgeu), (m, Instr.anyB m)],
      lookup s.reg row.1 = some t →
        exec (row.2 rs1 rs2 imm) s =
          answered s (.coded (wordOf (numberB f3.toNat t.opcode.toNat rs1 rs2 imm)) row.1
            [⟨.rs1, rs1⟩, ⟨.rs2, rs2⟩, ⟨.imm .w12 true, imm⟩])

/-- Every U-format row completes: under the U template loaded for its mnemonic and legal operands, the next state
returns the word of R115 and the decoded mnemonic and operands.  (That both come back from one step is the model's
choice, notes/assumptions/3.md; that a mnemonic's characters are their ASCII bytes is its reading,
notes/assumptions/14.md.) -/
def Obligations.UFormatRowsComplete : Prop :=
  ∀ (s : State) (m : Text) (t : Template) (rd imm : Int),
    t.format = .U →
    0 ≤ rd → rd ≤ 31 →
    -524288 ≤ imm → imm ≤ 524287 →
    ∀ row ∈ [(ascii "lui", Instr.lui), (ascii "auipc", Instr.auipc), (m, Instr.anyU m)],
      lookup s.reg row.1 = some t →
        exec (row.2 rd imm) s =
          answered s (.coded (wordOf (numberU t.opcode.toNat rd imm)) row.1
            [⟨.rd, rd⟩, ⟨.imm .w20 false, imm⟩])

/-- Every J-format row completes: under the J template loaded for its mnemonic and legal operands, the next state
returns the word of R116 and the decoded mnemonic and operands.  (That both come back from one step is the model's
choice, notes/assumptions/3.md; that a mnemonic's characters are their ASCII bytes is its reading,
notes/assumptions/14.md.) -/
def Obligations.JFormatRowsComplete : Prop :=
  ∀ (s : State) (m : Text) (t : Template) (rd imm : Int),
    t.format = .J →
    0 ≤ rd → rd ≤ 31 →
    -1048576 ≤ imm → imm ≤ 1048574 → imm % 2 = 0 →
    ∀ row ∈ [(ascii "jal", Instr.jal), (m, Instr.anyJ m)],
      lookup s.reg row.1 = some t →
        exec (row.2 rd imm) s =
          answered s (.coded (wordOf (numberJ t.opcode.toNat rd imm)) row.1
            [⟨.rd, rd⟩, ⟨.imm .w20 true, imm⟩])

/-- A row that cannot be assembled (its mnemonic is not loaded, its operands do not bind, or its template lacks a
required funct value) reports that error and no other.  (What running a row does is the model's choice,
notes/assumptions/3.md.) -/
def Obligations.RowsReportTheFirstError : Prop :=
  ∀ (i : Instr) (s : State) (e : CodecError),
    serve (.assemble i.mnemonic i.tokens) s = failed s e → exec i s = failed s e

/-- A row that can be assembled, under whatever template is loaded for its mnemonic, returns the assembled word, and the
mnemonic and operands that decoding that word by that template gives back, which are the row's own.  (The model's
choice, notes/assumptions/3.md.) -/
def Obligations.RowsAssembleAndDecodeBack : Prop :=
  ∀ (i : Instr) (s : State) (w : Word), serve (.assemble i.mnemonic i.tokens) s = answered s (.word w) →
    ∃ t ops, lookup s.reg i.mnemonic = some t ∧
      serve (.decodeT w t) s = answered s (.decoded i.mnemonic ops) ∧ ops.map (·.value) = i.tokens ∧
        exec i s = answered s (.coded w i.mnemonic ops)

/-- The frame of all 44 rows: the Registry, the phase, the parameters and the pending requests stay.  (What running a
row does is the model's choice, notes/assumptions/3.md.) -/
def Obligations.RowsLeaveTheCodecUnchanged : Prop :=
  ∀ (i : Instr) (s t : State), exec i s = .next t → s.onlyAnswered t

/-! ### Steps -/

/-- A step whose request is an instruction word that decodes to `i` is `exec i` with the request taken.  (The request
queue and the instruction request are the model's own, notes/assumptions/1.md, 3.md; which constructor of `Instr` a
word decodes to is notes/assumptions/10.md.) -/
def Obligations.StepRunsTheDecodedInstruction : Prop :=
  ∀ (s : State) (w : Word) (rest : List Request) (i : Instr),
    s.requests = .instr w :: rest → decodeIn s.reg w = .ok i → step s = exec i (s.withRequests rest)

/-- A step whose request is an operation performs it with the request taken; a word that does not decode is answered
with the decoder's error; with no request the state stays.  (The request queue is the model's own,
notes/assumptions/1.md, 3.md, 4.md.) -/
def Obligations.StepTakesTheOldestRequest : Prop :=
  (∀ (s : State) (o : Operation) (rest : List Request),
    s.requests = .op o :: rest → step s = serve o (s.withRequests rest)) ∧
  (∀ (s : State) (w : Word) (rest : List Request) (e : CodecError),
    s.requests = .instr w :: rest → decodeIn s.reg w = .err e → step s = failed (s.withRequests rest) e) ∧
  (∀ s : State, s.requests = [] → step s = .next s)

/-- The reset event: the Registry empty and the phase LOAD.  (That the response port is cleared, and the parameters and
the pending requests are kept, is the model's choice, notes/assumptions/5.md.) -/
def Obligations.ResetEmptiesTheRegistry : Prop :=
  ∀ (s : State) (rest : List Request), s.requests = .reset :: rest →
    step s = .next { reg := [], phase := .load, cfg := s.cfg, requests := rest, response := none }

/-- What holds right after reset, and in any state with an empty Registry: nothing is known.  (The clause about rows is
the model's, notes/assumptions/3.md.) -/
def Obligations.AfterResetNothingIsKnown : Prop :=
  (State.reset.reg = [] ∧ State.reset.phase = .load) ∧
  ∀ s : State, s.reg = [] →
    (∀ (m : Text) (tokens : List Int), serve (.bind m tokens) s = failed s .unknownMnemonic) ∧
    (∀ w : Word, serve (.decodeS w) s = failed s .unknownEncoding) ∧
    (∀ i : Instr, exec i s = failed s .unknownMnemonic)

/-- A word of the opcode table, placed as the next request, runs as the instruction it is and comes back unchanged, with
that instruction's mnemonic and operands.  (The placing, the templates loaded for it and the reference catalog that
`decodeTableWord` reads by are the model's own, notes/assumptions/6.md; so are that a word can be a request which runs as
an instruction, and that one step returns word, mnemonic and operands together, notes/assumptions/3.md, and which
constructor of `Instr` a word decodes to, notes/assumptions/10.md.) -/
def Obligations.FetchedTableWordsRoundTrip : Prop :=
  ∀ (s : State) (w : Nat) (i : Instr), decodeTableWord 32 w = some i →
    step (s.withFetchWord 32 w) = exec i { s with reg := templatesFor (BitVec.ofNat 32 w) } ∧
      exec i { s with reg := templatesFor (BitVec.ofNat 32 w) } =
        answered { s with reg := templatesFor (BitVec.ofNat 32 w) }
          (.coded (BitVec.ofNat 32 w) i.mnemonic (boundOperands i.format i.tokens))

/-- Every step has a next state: every operation is total, and no error and no refusal stops the codec.  An `ADD` of a
mnemonic longer than a finite `MNEM_MAX`, where none of R89's own tests turns it down, ends in one of the two refusals of
R163 and changes nothing (U12; which of the two is a free value, and the place of the test is the model's choice,
notes/assumptions/7.md). -/
def Obligations.EveryStepHasANextState : Prop :=
  (∀ s : State, ∃ t, step s = .next t) ∧
  (∀ (s : State) (u : Template), s.phase = .load → (∀ x ∈ s.reg, x.mnemonic ≠ u.mnemonic) →
    s.cfg.cap ≠ some s.reg.length → mnemonicFits s.cfg u.mnemonic = false →
      serve (.add u) s = turnedDown s .registryFrozen ∨ serve (.add u) s = turnedDown s .registryFull)

/-- The invariant of the codec is kept by every step, from every state that has it. -/
def Obligations.StepKeepsTheRegistryInvariant : Prop :=
  ∀ s t : State, s.Inv → step s = .next t → t.Inv

/-- The invariant holds at reset. -/
def Obligations.ResetHasTheRegistryInvariant : Prop := State.reset.Inv

/-- Insert-once: every step but a reset leaves the Registry an initial part of the Registry after it, so that no
template is removed, changed or moved. -/
def Obligations.TemplatesAreInsertOnce : Prop :=
  ∀ s t : State, step s = .next t → s.requests.head? ≠ some .reset → s.reg <+: t.reg

/-- The lifecycle: a frozen Registry never changes, only reset leaves FROZEN, and only FREEZE enters it. -/
def Obligations.FrozenRegistriesNeverChange : Prop :=
  ∀ s t : State, step s = .next t → s.requests.head? ≠ some .reset →
    (s.phase = .frozen → t.reg = s.reg ∧ t.phase = .frozen) ∧
      (s.phase = .load → t.phase = .frozen → s.requests.head? = some (.op .freeze))

/-! ### Words and instructions -/

/-- For every well-formed instruction that has a row of its own: it encodes to a word of the opcode table, and that word
decodes to it.  (That `encode` and `decodeTableWord` read by the built-in reference catalog is the model's choice,
notes/assumptions/6.md: the spec gives the codec no catalog of its own.  That the decoder answers the instruction row,
not the format row that carries its mnemonic, is the model's choice, notes/assumptions/10.md.) -/
def Obligations.TableInstructionsDecodeAfterEncode : Prop :=
  ∀ i : Instr, i.wellFormed = true → hasOwnRow i.format i.mnemonic = true →
    ∃ w, encode i = some w ∧ decodeTableWord 32 w.toNat = some i

/-- Under any loaded templates: a well-formed instruction's word decodes to that instruction when no other template
claims it.  (Which constructor the decoder answers, the row of its own where there is one and else the format row, and
that `wellFormed` asks for that one spelling, is the model's choice, notes/assumptions/10.md: under the other choice the
instruction rows would come back as format rows.  R137, that such a word decodes in search mode, the spec marks as its
own inference.) -/
def Obligations.AnyInstructionDecodesAfterEncode : Prop :=
  ∀ (reg : List Template) (i : Instr) (w : Word), i.wellFormed = true → encodeIn reg i = some w →
    (candidates reg w).length = 1 → decodeIn reg w = .ok i

/-- Under any loaded templates with distinct mnemonics: a word that decodes is the word of the instruction it decodes
to, and that instruction is well-formed.  (R136, R140 and the laws of R61 the spec marks as its own inference.
Well-formed says that the operands are legal, as R140 has it, and that the instruction is in the one spelling the decoder
answers, which is the model's choice, notes/assumptions/10.md.) -/
def Obligations.AnyInstructionEncodesAfterDecode : Prop :=
  ∀ (reg : List Template) (w : Word) (i : Instr), distinctMnemonics reg → decodeIn reg w = .ok i →
    encodeIn reg i = some w ∧ i.wellFormed = true

/-- A few words, read off the encodings of the spec by hand.  (That `decodeTableWord` reads by the reference catalog is the
model's choice, notes/assumptions/6.md, and so is which constructor it answers, notes/assumptions/10.md.) -/
def Obligations.SomeTableWordsDecode : Prop :=
  decodeTableWord 32 0x003100B3 = some (.add 1 2 3) ∧ decodeTableWord 32 0xFFF10093 = some (.addi 1 2 (-1)) ∧
    decodeTableWord 32 0x00512423 = some (.sw 2 5 8) ∧ decodeTableWord 32 0x7E208FE3 = some (.beq 1 2 4094) ∧
      decodeTableWord 32 0x123452B7 = some (.lui 5 74565) ∧ decodeTableWord 32 0xFF5FF06F = some (.jal 0 (-12)) ∧
        decodeTableWord 32 0x00000073 = none

/-- Every layout table writes each of the 32 word positions exactly once. -/
def Obligations.LayoutsWriteEveryBitOnce : Prop :=
  ∀ f : Format, (layout f).flatMap FieldWrite.positions = (List.range 32).reverse

/-- The encoder writes what the layout tables say: the word is the sum of the field writes at their places. -/
def Obligations.EncoderWritesTheLayoutTables : Prop :=
  ∀ (bi : BoundInstruction) (w : Word), encodeBound bi = .ok w →
    (w.toNat : Int) = ((layout bi.template.format).map fun f => sourceNumber bi f.source * 2 ^ f.lo).sum

/-! ### The Field Encoder -/

/-- `ENC.R`: the word of a bound R instruction. -/
def Obligations.EncodePacksRInstructions : Prop :=
  ∀ (s : State) (t : Template) (f7 : BitVec 7) (f3 : BitVec 3) (rd rs1 rs2 : Int),
    t.format = .R → t.funct7 = some f7 → t.funct3 = some f3 →
    0 ≤ rd → rd ≤ 31 →
    0 ≤ rs1 → rs1 ≤ 31 →
    0 ≤ rs2 → rs2 ≤ 31 →
      serve (.encode ⟨t, [⟨.rd, rd⟩, ⟨.rs1, rs1⟩, ⟨.rs2, rs2⟩]⟩) s =
        answered s (.word (wordOf (numberR f7.toNat f3.toNat t.opcode.toNat rd rs1 rs2)))

/-- `ENC.I`: the word of a bound I instruction. -/
def Obligations.EncodePacksIInstructions : Prop :=
  ∀ (s : State) (t : Template) (f3 : BitVec 3) (rd rs1 imm : Int),
    t.format = .I → t.funct3 = some f3 →
    0 ≤ rd → rd ≤ 31 →
    0 ≤ rs1 → rs1 ≤ 31 →
    -2048 ≤ imm → imm ≤ 2047 →
      serve (.encode ⟨t, [⟨.rd, rd⟩, ⟨.rs1, rs1⟩, ⟨.imm .w12 false, imm⟩]⟩) s =
        answered s (.word (wordOf (numberI f3.toNat t.opcode.toNat rd rs1 imm)))

/-- `ENC.S`: the word of a bound S instruction. -/
def Obligations.EncodePacksSInstructions : Prop :=
  ∀ (s : State) (t : Template) (f3 : BitVec 3) (rs1 rs2 imm : Int),
    t.format = .S → t.funct3 = some f3 →
    0 ≤ rs1 → rs1 ≤ 31 →
    0 ≤ rs2 → rs2 ≤ 31 →
    -2048 ≤ imm → imm ≤ 2047 →
      serve (.encode ⟨t, [⟨.rs1, rs1⟩, ⟨.rs2, rs2⟩, ⟨.imm .w12 false, imm⟩]⟩) s =
        answered s (.word (wordOf (numberS f3.toNat t.opcode.toNat rs1 rs2 imm)))

/-- `ENC.B`: the word of a bound B instruction. -/
def Obligations.EncodePacksBInstructions : Prop :=
  ∀ (s : State) (t : Template) (f3 : BitVec 3) (rs1 rs2 imm : Int),
    t.format = .B → t.funct3 = some f3 →
    0 ≤ rs1 → rs1 ≤ 31 →
    0 ≤ rs2 → rs2 ≤ 31 →
    -4096 ≤ imm → imm ≤ 4094 → imm % 2 = 0 →
      serve (.encode ⟨t, [⟨.rs1, rs1⟩, ⟨.rs2, rs2⟩, ⟨.imm .w12 true, imm⟩]⟩) s =
        answered s (.word (wordOf (numberB f3.toNat t.opcode.toNat rs1 rs2 imm)))

/-- `ENC.U`: the word of a bound U instruction. -/
def Obligations.EncodePacksUInstructions : Prop :=
  ∀ (s : State) (t : Template) (rd imm : Int),
    t.format = .U →
    0 ≤ rd → rd ≤ 31 →
    -524288 ≤ imm → imm ≤ 524287 →
      serve (.encode ⟨t, [⟨.rd, rd⟩, ⟨.imm .w20 false, imm⟩]⟩) s =
        answered s (.word (wordOf (numberU t.opcode.toNat rd imm)))

/-- `ENC.J`: the word of a bound J instruction. -/
def Obligations.EncodePacksJInstructions : Prop :=
  ∀ (s : State) (t : Template) (rd imm : Int),
    t.format = .J →
    0 ≤ rd → rd ≤ 31 →
    -1048576 ≤ imm → imm ≤ 1048574 → imm % 2 = 0 →
      serve (.encode ⟨t, [⟨.rd, rd⟩, ⟨.imm .w20 true, imm⟩]⟩) s =
        answered s (.word (wordOf (numberJ t.opcode.toNat rd imm)))

/-- A bound instruction that breaks the invariants is refused before anything else, and no word is made of it. -/
def Obligations.EncodeRefusesInvalidBoundInstructions : Prop :=
  ∀ (s : State) (t : Template) (ops : List BoundOperand),
    ¬ (ops.map (·.kind) = operandKinds t.format ∧ accepted t.format (ops.map (·.value))) →
      serve (.encode ⟨t, ops⟩) s = turnedDown s .invalidBoundInstruction

/-- A valid bound instruction whose template lacks a required funct value fails with MissingFunctError; one whose
template does not lack any is packed. -/
def Obligations.EncodeFailsExactlyWhenAFunctIsMissing : Prop :=
  ∀ (s : State) (t : Template) (ops : List BoundOperand),
    ops.map (·.kind) = operandKinds t.format → accepted t.format (ops.map (·.value)) →
      (lacksFunct t → serve (.encode ⟨t, ops⟩) s = failed s .missingFunct) ∧
        (¬ lacksFunct t → ∃ w, serve (.encode ⟨t, ops⟩) s = answered s (.word w))

/-- Encoding depends on nothing but the format, the opcode, the required funct values and the operands. -/
def Obligations.EncodingIgnoresMnemonicAndSurplusFuncts : Prop :=
  ∀ (t u : Template) (ops : List BoundOperand), t.format = u.format → t.opcode = u.opcode →
    ((t.format = .R ∨ t.format = .I ∨ t.format = .S ∨ t.format = .B) → t.funct3 = u.funct3) →
      (t.format = .R → t.funct7 = u.funct7) → encodeBound ⟨t, ops⟩ = encodeBound ⟨u, ops⟩

/-- `BITSTRING`: 32 characters, and character k is the digit of word bit 31-k (R118).  (That a rendering is a list of
bytes, one for each character, and that the digits are 0x30 and 0x31, is the model's reading, notes/assumptions/14.md.) -/
def Obligations.BitstringIsMostSignificantFirst : Prop :=
  ∀ (s : State) (w : Word), ∃ text, serve (.bitstring w) s = answered s (.text text) ∧ text.length = 32 ∧
    ∀ k < 32, text[k]? = some (if w.toNat / 2 ^ (31 - k) % 2 = 1 then 0x31 else 0x30)

/-- `HEX`: `0x` and eight upper-case digits, most significant first (R119).  (That a rendering is a list of bytes, one for
each character, and that the characters are their ASCII bytes, is the model's reading, notes/assumptions/14.md.) -/
def Obligations.HexIsEightUpperCaseDigits : Prop :=
  ∀ (s : State) (w : Word), ∃ digits, serve (.hex w) s = answered s (.text (ascii "0x" ++ digits)) ∧ digits.length = 8 ∧
    ∀ k < 8, digits[k]? = (ascii "0123456789ABCDEF")[w.toNat / 16 ^ (7 - k) % 16]?

/-- `ASSEMBLE` is the binder and then the encoder: it reports the binder's error if there is one, else what `ENCODE`
reports, and it never refuses. -/
def Obligations.AssembleIsBindThenEncode : Prop :=
  ∀ (s : State) (m : Text) (tokens : List Int),
    (∀ e, serve (.bind m tokens) s = failed s e → serve (.assemble m tokens) s = failed s e) ∧
    (∀ bi, serve (.bind m tokens) s = answered s (.bound bi) → serve (.assemble m tokens) s = serve (.encode bi) s) ∧
    (∀ r, serve (.assemble m tokens) s ≠ turnedDown s r)

/-! ### The Field Decoder -/

/-- A template with its required funct values matches a word exactly when the masked word equals its match value, both
as the table of R66 gives them; one that lacks any has no match value and matches no word. -/
def Obligations.MatchingIsMaskAndCompare : Prop :=
  ∀ (t : Template) (w : Word),
    (¬ lacksFunct t → templateMask t.format = BitVec.ofNat 32 (maskOf t.format) ∧
      templateMatch t = some (BitVec.ofNat 32 (matchNumber t)) ∧
      (matchesWord t w = true ↔ w.toNat &&& maskOf t.format = matchNumber t)) ∧
      (lacksFunct t → templateMatch t = none ∧ matchesWord t w = false)

/-- `DECODE_T`: a word that the template does not match is an unknown encoding; one that it matches yields the mnemonic
and the fields of the word, immediates sign-extended. -/
def Obligations.TemplateDecodeExtractsTheFields : Prop :=
  ∀ (s : State) (t : Template) (w : Word),
    (matchesWord t w = false → serve (.decodeT w t) s = failed s .unknownEncoding) ∧
      (matchesWord t w = true →
        serve (.decodeT w t) s = answered s (.decoded t.mnemonic (fieldsOf t.format w.toNat)))

/-- `DECODE_S`: no match in the whole Registry is an unknown encoding, more than one is ambiguous, and exactly one
yields that template's mnemonic and the fields of the word. -/
def Obligations.SearchDecodeNeedsExactlyOneMatch : Prop :=
  ∀ (s : State) (w : Word),
    ((∀ t ∈ s.reg, matchesWord t w = false) → serve (.decodeS w) s = failed s .unknownEncoding) ∧
    ((∃ before t between u after, s.reg = before ++ t :: between ++ u :: after ∧
        matchesWord t w = true ∧ matchesWord u w = true) → serve (.decodeS w) s = failed s .ambiguousDecode) ∧
    (∀ before t after, s.reg = before ++ t :: after → matchesWord t w = true →
      (∀ u ∈ before ++ after, matchesWord u w = false) →
        serve (.decodeS w) s = answered s (.decoded t.mnemonic (fieldsOf t.format w.toNat)))

/-- Round trip: what the encoder packs, the decoder recovers, mnemonic and operands. -/
def Obligations.DecodeUndoesEncode : Prop :=
  ∀ (s : State) (bi : BoundInstruction) (w : Word), serve (.encode bi) s = answered s (.word w) →
    serve (.decodeT w bi.template) s = answered s (.decoded bi.template.mnemonic bi.operands)

/-- Round trip: what the decoder recovers, the encoder packs to the same word. -/
def Obligations.EncodeUndoesDecode : Prop :=
  ∀ (s : State) (t : Template) (w : Word) (m : Text) (ops : List BoundOperand),
    serve (.decodeT w t) s = answered s (.decoded m ops) →
      m = t.mnemonic ∧ serve (.encode ⟨t, ops⟩) s = answered s (.word w)

/-- Round trip in search mode: the instruction comes back exactly when no other template of the Registry matches its
word, and otherwise the decode is ambiguous; never a wrong instruction. -/
def Obligations.SearchRoundTripUnlessAmbiguous : Prop :=
  ∀ (s : State) (bi : BoundInstruction) (w : Word), s.Inv → bi.template ∈ s.reg →
    serve (.encode bi) s = answered s (.word w) →
      ((∀ u ∈ s.reg, matchesWord u w = true → u = bi.template) →
        serve (.decodeS w) s = answered s (.decoded bi.template.mnemonic bi.operands)) ∧
      ((∃ u ∈ s.reg, u ≠ bi.template ∧ matchesWord u w = true) → serve (.decodeS w) s = failed s .ambiguousDecode)

/-- What search mode decodes, the binder accepts, with the same operands. -/
def Obligations.DecodedOperandsBind : Prop :=
  ∀ (s : State) (w : Word) (m : Text) (ops : List BoundOperand), s.Inv →
    serve (.decodeS w) s = answered s (.decoded m ops) →
      ∃ t ∈ s.reg, t.mnemonic = m ∧ serve (.bind m (ops.map (·.value))) s = answered s (.bound ⟨t, ops⟩)

/-! ### The Operand Binder -/

/-- Unknown mnemonic before arity, and arity before any value. -/
def Obligations.BindChecksMnemonicThenArity : Prop :=
  ∀ (s : State) (m : Text) (tokens : List Int),
    ((∀ t ∈ s.reg, t.mnemonic ≠ m) → serve (.bind m tokens) s = failed s .unknownMnemonic) ∧
    (∀ t, lookup s.reg m = some t →
      tokens.length ≠ (match t.format with | .R | .I | .S | .B => 3 | .U | .J => 2) →
        serve (.bind m tokens) s = failed s .arityMismatch)

/-- The first operand that fails decides: out of its range is OperandRangeError; in range but odd where it must be even
is AlignmentError; later operands are not examined. -/
def Obligations.BindReportsTheFirstBadOperand : Prop :=
  ∀ (s : State) (m : Text) (t : Template) (before after : List Int) (v : Int) (k : OperandKind),
    lookup s.reg m = some t → (before ++ v :: after).length = (operandKinds t.format).length →
    (operandKinds t.format)[before.length]? = some k →
    (∀ (j : Nat) (u : Int) (kj : OperandKind), before[j]? = some u → (operandKinds t.format)[j]? = some kj →
      (rangeOf kj).1 ≤ u ∧ u ≤ (rangeOf kj).2 ∧ (evenOnly kj → u % 2 = 0)) →
      ((v < (rangeOf k).1 ∨ (rangeOf k).2 < v) → serve (.bind m (before ++ v :: after)) s = failed s .operandRange) ∧
      ((rangeOf k).1 ≤ v → v ≤ (rangeOf k).2 → evenOnly k → v % 2 = 1 →
        serve (.bind m (before ++ v :: after)) s = failed s .alignment)

/-- The binder accepts exactly the token lists of the table, and returns them unchanged with their kinds under the
template of the mnemonic. -/
def Obligations.BindAcceptsExactlyTheTable : Prop :=
  ∀ (s : State) (m : Text) (t : Template) (tokens : List Int), lookup s.reg m = some t →
    (accepted t.format tokens ↔ ∃ bi, serve (.bind m tokens) s = answered s (.bound bi)) ∧
      ∀ bi, serve (.bind m tokens) s = answered s (.bound bi) →
        bi.template = t ∧ bi.operands.map (·.kind) = operandKinds t.format ∧ bi.operands.map (·.value) = tokens

/-! ### The Registry and the catalog -/

/-- `ADD`: its three tests in order, and the append, of a mnemonic within `MNEM_MAX`.  (What a longer one comes to in place
of the append is part of `Obligations.EveryStepHasANextState`.) -/
def Obligations.AddAppendsOnceInOrder : Prop :=
  ∀ (s : State) (t : Template),
    (s.phase = .frozen → serve (.add t) s = turnedDown s .registryFrozen) ∧
    (s.phase = .load → (∃ u ∈ s.reg, u.mnemonic = t.mnemonic) → serve (.add t) s = failed s .duplicateMnemonic) ∧
    (s.phase = .load → (∀ u ∈ s.reg, u.mnemonic ≠ t.mnemonic) →
      (s.cfg.cap = some s.reg.length → serve (.add t) s = turnedDown s .registryFull) ∧
      (s.cfg.cap ≠ some s.reg.length → mnemonicFits s.cfg t.mnemonic = true →
        serve (.add t) s = answered { s with reg := s.reg ++ [t] } .unit))

/-- A template added is what its mnemonic looks up from then on, and no other mnemonic's answer changes. -/
def Obligations.AddedTemplatesAreVisible : Prop :=
  ∀ (s t : State) (u : Template), serve (.add u) s = .next t → t.response = some (.done (.ok .unit)) →
    serve (.lookup u.mnemonic) t = answered t (.found (some u)) ∧
      ∀ m, m ≠ u.mnemonic → lookup t.reg m = lookup s.reg m

/-- `LOOKUP` finds a template of that very mnemonic, and answers absent exactly when there is none; `LIST` answers the
Registry; `FREEZE` sets the phase and nothing else. -/
def Obligations.LookupListFreezeAlwaysAnswer : Prop :=
  ∀ s : State,
    (∀ m, (∀ u ∈ s.reg, u.mnemonic ≠ m) → serve (.lookup m) s = answered s (.found none)) ∧
    (∀ u ∈ s.reg, distinctMnemonics s.reg → serve (.lookup u.mnemonic) s = answered s (.found (some u))) ∧
    serve .list s = answered s (.templates s.reg) ∧
    serve .freeze s = answered { s with phase := .frozen } .unit

/-- The five checks of the parser, in their order, on the fields between the commas, each without its outer white
space: the reported reason is that of the first check that fails, and a line that fails none yields a template.  (That a
line is a list of bytes, and that the letters of the grammar are their ASCII bytes, is the model's reading,
notes/assumptions/14.md.) -/
def Obligations.ParseReportsTheFirstFailingCheck : Prop :=
  ∀ (s : State) (fields : List Text), fields ≠ [] → (∀ x ∈ fields, 0x2C ∉ x) →
    let parsed := serve (.parseLine (List.intercalate [0x2C] fields)) s
    (fields.length < 3 → parsed = failed s (.catalogParse .tooFewFields)) ∧
    ∀ m op letter functs, fields.map trim = m :: op :: letter :: functs →
      (¬ digitString 7 op → parsed = failed s (.catalogParse .badOpcodeLength)) ∧
      (digitString 7 op → (∀ f, letter ≠ letterOf f) → parsed = failed s (.catalogParse .unknownFormat)) ∧
      (digitString 7 op → ∀ f, letter = letterOf f →
        (¬ goodFuncts functs → parsed = failed s (.catalogParse .malformedFunct)) ∧
        (goodFuncts functs → ¬ requiredThere f functs → parsed = failed s (.catalogParse .missingRequiredFunct)) ∧
        (goodFuncts functs → requiredThere f functs →
          ∃ t, parsed = answered s (.template t) ∧ t.mnemonic = m ∧ t.format = f))

/-- Every template the parser returns is well-formed. -/
def Obligations.ParsedTemplatesAreWellFormed : Prop :=
  ∀ (s : State) (line : Text) (t : Template), serve (.parseLine line) s = answered s (.template t) → ¬ lacksFunct t

/-- The parser reads back every well-formed template from its line in the grammar, with white space after the commas and
the funct fields in either order.  (That a line is a list of bytes, and that the letters of the grammar are their ASCII
bytes, is the model's reading, notes/assumptions/14.md.) -/
def Obligations.ParseReadsTheGrammar : Prop :=
  ∀ (s : State) (t : Template) (pad : Text) (funct7First : Bool),
    ¬ lacksFunct t → 0x2C ∉ t.mnemonic → trim t.mnemonic = t.mnemonic → pad.all isWhite = true →
      serve (.parseLine (catalogLine t pad funct7First)) s = answered s (.template t)

/-- A catalog whose lines after the first all parse to new mnemonics, blank lines aside, with room for them, loads whole
and in order, in either mode, without a warning.  (What line is blank is the model's reading, notes/assumptions/14.md.) -/
def Obligations.GoodCatalogsLoadWhole : Prop :=
  ∀ (s : State) (mode : LoadMode) (lines : List Text) (ts : List Template), s.phase = .load →
    (definitionLines lines).map parseTemplate = ts.map Except.ok →
    distinctMnemonics (s.reg ++ ts) → withinCapacity s.cfg (s.reg ++ ts) → mnemonicsFit s.cfg ts →
      serve (.load lines mode) s = answered { s with reg := s.reg ++ ts } (.warnings [])

/-- A strict load stops at the first line that does not parse, or whose mnemonic is there already; it reports that line
and its error, reads no further, and keeps the templates of the lines before it; and only so does it stop at a line.  In
either mode a load is refused when frozen, and it stops at the first line whose `ADD` is refused, because the Registry is
full or the mnemonic longer than a finite `MNEM_MAX`, with that refusal and with the earlier lines' templates kept (the
keeping is the model's reading, notes/assumptions/13.md; that the Registry is tested before the mnemonic's length, and
the free reason of the latter, are notes/assumptions/7.md; what line is blank is notes/assumptions/14.md). -/
def Obligations.StrictLoadStopsAtTheFirstFailure : Prop :=
  (∀ (s : State) (lines : List Text) (mode : LoadMode), s.phase = .frozen →
    serve (.load lines mode) s = turnedDown s .registryFrozen) ∧
  (∀ (s : State) (before : List Text) (line : Text) (after : List Text) (added : List Template), s.phase = .load →
    before ≠ [] → (definitionLines before).map parseTemplate = added.map Except.ok →
    distinctMnemonics (s.reg ++ added) → withinCapacity s.cfg (s.reg ++ added) → mnemonicsFit s.cfg added →
    line.all isWhite = false →
      (∀ r, parseTemplate line = .error r → serve (.load (before ++ line :: after) .strict) s =
        .next (({ s with reg := s.reg ++ added } : State).answer (.stoppedAt before.length (.catalogParse r)))) ∧
      (∀ u, parseTemplate line = .ok u → (∃ x ∈ s.reg ++ added, x.mnemonic = u.mnemonic) →
        serve (.load (before ++ line :: after) .strict) s =
          .next (({ s with reg := s.reg ++ added } : State).answer (.stoppedAt before.length .duplicateMnemonic))) ∧
      (∀ u, parseTemplate line = .ok u → (∀ x ∈ s.reg ++ added, x.mnemonic ≠ u.mnemonic) →
        (s.cfg.cap = some (s.reg ++ added).length → ∀ mode, serve (.load (before ++ line :: after) mode) s =
          turnedDown { s with reg := s.reg ++ added } .registryFull) ∧
        (s.cfg.cap ≠ some (s.reg ++ added).length → mnemonicFits s.cfg u.mnemonic = false →
          ∃ r, (r = .registryFrozen ∨ r = .registryFull) ∧
            serve (.add u) { s with reg := s.reg ++ added } = turnedDown { s with reg := s.reg ++ added } r ∧
            ∀ mode, serve (.load (before ++ line :: after) mode) s =
              turnedDown { s with reg := s.reg ++ added } r))) ∧
  ∀ (s t : State) (lines : List Text) (k : Nat) (e : CodecError),
    serve (.load lines .strict) s = .next t → t.response = some (.stoppedAt k e) →
      ∃ line added, 1 ≤ k ∧ lines[k]? = some line ∧ line.all isWhite = false ∧
        (definitionLines (lines.take k)).map parseTemplate = added.map Except.ok ∧ t.reg = s.reg ++ added ∧
        ((∃ r, parseTemplate line = .error r ∧ e = .catalogParse r) ∨
          (∃ u, parseTemplate line = .ok u ∧ (∃ x ∈ t.reg, x.mnemonic = u.mnemonic) ∧ e = .duplicateMnemonic))

/-- In the LOAD phase, with no bound on the Registry and on mnemonics, a lenient load always ends in `Ok` with one warning
for each failing line, and the Registry gains the template of every other line, in line order.  Under any parameters it
ends so, or is refused: as frozen in the FROZEN phase, or at a line with a new mnemonic whose `ADD` is refused, because
the Registry had reached `CAP` or, where it had not, because the mnemonic is longer than a finite `MNEM_MAX`, the lines
before it loaded (the keeping is the model's reading, notes/assumptions/13.md; the place of the length test and the free
reason of its refusal are notes/assumptions/7.md; what line is blank is notes/assumptions/14.md). -/
def Obligations.LenientLoadWarnsAndGoesOn : Prop :=
  (∀ (s : State) (lines : List Text), s.phase = .load → s.cfg.cap = none → s.cfg.mnemMax = none →
    ∃ added ws, serve (.load lines .lenient) s = answered { s with reg := s.reg ++ added } (.warnings ws) ∧
      accountsFor s.reg lines added ws) ∧
  ∀ (s : State) (lines : List Text),
    (s.phase = .frozen ∧ serve (.load lines .lenient) s = turnedDown s .registryFrozen) ∨
    (s.phase = .load ∧ ∃ added ws, accountsFor s.reg lines added ws ∧
      serve (.load lines .lenient) s = answered { s with reg := s.reg ++ added } (.warnings ws)) ∨
    (s.phase = .load ∧ ∃ k line u added ws r, 1 ≤ k ∧ lines[k]? = some line ∧ line.all isWhite = false ∧
      parseTemplate line = .ok u ∧ accountsFor s.reg (lines.take k) added ws ∧
      (∀ x ∈ s.reg ++ added, x.mnemonic ≠ u.mnemonic) ∧
      ((s.cfg.cap = some (s.reg ++ added).length ∧ r = .registryFull) ∨
        (s.cfg.cap ≠ some (s.reg ++ added).length ∧ mnemonicFits s.cfg u.mnemonic = false ∧
          (r = .registryFrozen ∨ r = .registryFull))) ∧
      serve (.add u) { s with reg := s.reg ++ added } = turnedDown { s with reg := s.reg ++ added } r ∧
      serve (.load lines .lenient) s = turnedDown { s with reg := s.reg ++ added } r)

/-! ### All operations -/

/-- What operations write: only `FREEZE` the phase, only `ADD` and `LOAD` the Registry, none the parameters or the
pending requests; and one that does not end in `Ok` writes nothing, a `LOAD`, whose earlier lines stay, excepted. -/
def Obligations.OperationsWriteOnlyWhatTheyMay : Prop :=
  ∀ (o : Operation) (s t : State) (r : Response), serve o s = .next t → t.response = some r →
    (t.cfg = s.cfg ∧ t.requests = s.requests) ∧
    (t.phase ≠ s.phase → o = .freeze) ∧
    (t.reg ≠ s.reg → (∃ u, o = .add u) ∨ ∃ lines mode, o = .load lines mode) ∧
    (r.isOk = false → (∀ lines mode, o ≠ .load lines mode) → s.onlyAnswered t)

/-- The status and reason codes. -/
def Obligations.StatusCodesAreAsListed : Prop :=
  (∀ v : Value, (Response.done (.ok v)).status = 0) ∧
  (∀ r, (CodecError.catalogParse r).status = 1) ∧
  [CodecError.duplicateMnemonic, .unknownMnemonic, .arityMismatch, .operandRange, .alignment, .missingFunct,
    .ambiguousDecode, .unknownEncoding].map CodecError.status = [2, 3, 4, 5, 6, 7, 8, 9] ∧
  [RefusalReason.registryFrozen, .registryFull, .invalidBoundInstruction].map RefusalReason.status = [13, 14, 15] ∧
  (∀ r, (CodecError.catalogParse r).reasonCode = r.code) ∧
  [ParseReason.tooFewFields, .badOpcodeLength, .unknownFormat, .malformedFunct, .missingRequiredFunct].map
    ParseReason.code = [1, 2, 3, 4, 5] ∧
  [CodecError.duplicateMnemonic, .unknownMnemonic, .arityMismatch, .operandRange, .alignment, .missingFunct,
    .ambiguousDecode, .unknownEncoding].map CodecError.reasonCode = [0, 0, 0, 0, 0, 0, 0, 0] ∧
  (∀ v : Value, (Result.ok v).reasonCode = 0)

/-- The register-file view: entry k is valid exactly below the length of the Registry, and shows the template as
stored. -/
def Obligations.EntriesShowTheRegistry : Prop :=
  ∀ (reg : List Template) (k : Nat), (entryValid reg k = true ↔ k < reg.length) ∧
    ∀ t, reg[k]? = some t → ∃ e, entryAt reg k = some e ∧ e.mnemonic = t.mnemonic ∧ e.opcode = t.opcode ∧
      e.format.toNat = tagNumber t.format ∧ formatOfTag e.format = some t.format ∧ e.f3v = t.funct3.isSome ∧ e.funct3 = t.funct3 ∧
        e.f7v = t.funct7.isSome ∧ e.funct7 = t.funct7

/-- Instances share nothing: a request on one is that instance's step, and leaves every other as it was. -/
def Obligations.InstancesShareNothing : Prop :=
  ∀ (sys sys' : System) (k : Nat) (r : Request), sys.perform k r = some sys' →
    (∃ s t, sys[k]? = some s ∧ take r s = .next t ∧ sys'[k]? = some t) ∧ ∀ j ≠ k, sys'[j]? = sys[j]?
end

