-- ==== Sys2Proof/Laws/Words.lean ====
section
/-! SUPPORT. The packed words as numbers, and the fields read back: what each layout function of
Machine/Layouts.lean comes to in arithmetic, once, so that no later proof opens a bit vector. -/

namespace Sys2Proof.Machine

/-! ### Pieces -/

theorem append_toNat {m n : Nat} (a : BitVec m) (b : BitVec n) : (a ++ b).toNat = a.toNat * 2 ^ n + b.toNat := by
  rw [BitVec.toNat_append, Nat.shiftLeft_eq, ← Nat.shiftLeft_eq, ← Nat.shiftLeft_add_eq_or_of_lt b.isLt,
    Nat.shiftLeft_eq]

theorem slice_toNat {n : Nat} (x : BitVec n) (lo len : Nat) :
    (x.extractLsb' lo len).toNat = x.toNat / 2 ^ lo % 2 ^ len := by
  rw [BitVec.extractLsb'_toNat, Nat.shiftRight_eq_div_pow]

theorem regField_toNat {r : Int} (h0 : 0 ≤ r) (h1 : r ≤ 31) : ((regField r).toNat : Int) = r := by
  unfold regField
  rw [BitVec.toNat_ofInt]
  omega

theorem trunc_toNat (n : Nat) (v : Int) : ((BitVec.ofInt n v).toNat : Int) = v % (2 ^ n : Nat) := by
  rw [BitVec.toNat_ofInt, Int.toNat_of_nonneg]
  exact Int.emod_nonneg _ (by positivity)

theorem word_ofInt_toNat (w : Word) (v : Int) (h : (w.toNat : Int) = v) : w = BitVec.ofInt 32 v := by
  apply BitVec.eq_of_toNat_eq
  have := w.isLt
  rw [BitVec.toNat_ofInt]
  omega

/-! ### The six layouts as numbers (the "as a number" lines of R111 to R116) -/

theorem encR_toNat (f7 : BitVec 7) (f3 : BitVec 3) (op : BitVec 7) {rd rs1 rs2 : Int} (hd0 : 0 ≤ rd) (hd1 : rd ≤ 31)
    (ha0 : 0 ≤ rs1) (ha1 : rs1 ≤ 31) (hb0 : 0 ≤ rs2) (hb1 : rs2 ≤ 31) :
    ((encR f7 f3 op rd rs1 rs2).toNat : Int) =
      f7.toNat * 2 ^ 25 + rs2 * 2 ^ 20 + rs1 * 2 ^ 15 + f3.toNat * 2 ^ 12 + rd * 2 ^ 7 + op.toNat := by
  have h1 := regField_toNat hd0 hd1
  have h2 := regField_toNat ha0 ha1
  have h3 := regField_toNat hb0 hb1
  simp only [encR, append_toNat]
  omega

theorem encI_toNat (f3 : BitVec 3) (op : BitVec 7) {rd rs1 : Int} (imm : Int) (hd0 : 0 ≤ rd) (hd1 : rd ≤ 31)
    (ha0 : 0 ≤ rs1) (ha1 : rs1 ≤ 31) :
    ((encI f3 op rd rs1 imm).toNat : Int) =
      imm % 2 ^ 12 * 2 ^ 20 + rs1 * 2 ^ 15 + f3.toNat * 2 ^ 12 + rd * 2 ^ 7 + op.toNat := by
  have h1 := regField_toNat hd0 hd1
  have h2 := regField_toNat ha0 ha1
  have h3 := trunc_toNat 12 imm
  simp only [encI, append_toNat]
  omega

theorem encS_toNat (f3 : BitVec 3) (op : BitVec 7) {rs1 rs2 : Int} (imm : Int)
    (ha0 : 0 ≤ rs1) (ha1 : rs1 ≤ 31) (hb0 : 0 ≤ rs2) (hb1 : rs2 ≤ 31) :
    ((encS f3 op rs1 rs2 imm).toNat : Int) =
      imm % 2 ^ 12 / 2 ^ 5 * 2 ^ 25 + rs2 * 2 ^ 20 + rs1 * 2 ^ 15 + f3.toNat * 2 ^ 12 + imm % 2 ^ 5 * 2 ^ 7
        + op.toNat := by
  have h2 := regField_toNat ha0 ha1
  have h3 := regField_toNat hb0 hb1
  have h4 := trunc_toNat 12 imm
  simp only [encS, append_toNat, slice_toNat]
  omega

theorem encB_toNat (f3 : BitVec 3) (op : BitVec 7) {rs1 rs2 : Int} (imm : Int)
    (ha0 : 0 ≤ rs1) (ha1 : rs1 ≤ 31) (hb0 : 0 ≤ rs2) (hb1 : rs2 ≤ 31) :
    ((encB f3 op rs1 rs2 imm).toNat : Int) =
      imm % 2 ^ 13 / 2 ^ 12 * 2 ^ 31 + imm % 2 ^ 11 / 2 ^ 5 * 2 ^ 25 + rs2 * 2 ^ 20 + rs1 * 2 ^ 15
        + f3.toNat * 2 ^ 12 + imm % 2 ^ 5 / 2 * 2 ^ 8 + imm % 2 ^ 12 / 2 ^ 11 * 2 ^ 7 + op.toNat := by
  have h2 := regField_toNat ha0 ha1
  have h3 := regField_toNat hb0 hb1
  have h4 := trunc_toNat 13 imm
  simp only [encB, append_toNat, slice_toNat]
  omega

theorem encU_toNat (op : BitVec 7) {rd : Int} (imm : Int) (hd0 : 0 ≤ rd) (hd1 : rd ≤ 31) :
    ((encU op rd imm).toNat : Int) = imm % 2 ^ 20 * 2 ^ 12 + rd * 2 ^ 7 + op.toNat := by
  have h1 := regField_toNat hd0 hd1
  have h4 := trunc_toNat 20 imm
  simp only [encU, append_toNat]
  omega

theorem encJ_toNat (op : BitVec 7) {rd : Int} (imm : Int) (hd0 : 0 ≤ rd) (hd1 : rd ≤ 31) :
    ((encJ op rd imm).toNat : Int) =
      imm % 2 ^ 21 / 2 ^ 20 * 2 ^ 31 + imm % 2 ^ 11 / 2 * 2 ^ 21 + imm % 2 ^ 12 / 2 ^ 11 * 2 ^ 20
        + imm % 2 ^ 20 / 2 ^ 12 * 2 ^ 12 + rd * 2 ^ 7 + op.toNat := by
  have h1 := regField_toNat hd0 hd1
  have h4 := trunc_toNat 21 imm
  simp only [encJ, append_toNat, slice_toNat]
  generalize (BitVec.ofInt 21 imm).toNat = n at h4
  have sign : ((n / 2 ^ 20 % 2 ^ 1 : Nat) : Int) = imm % 2 ^ 21 / 2 ^ 20 := by omega
  have low : ((n / 2 ^ 1 % 2 ^ 10 : Nat) : Int) = imm % 2 ^ 11 / 2 := by omega
  have eleven : ((n / 2 ^ 11 % 2 ^ 1 : Nat) : Int) = imm % 2 ^ 12 / 2 ^ 11 := by omega
  have high : ((n / 2 ^ 12 % 2 ^ 8 : Nat) : Int) = imm % 2 ^ 20 / 2 ^ 12 := by omega
  rw [← sign, ← low, ← eleven, ← high]
  push_cast [h1]
  ring

/-! ### The fields of a word as numbers (R128 to R133) -/

theorem rdOf_eq (w : Word) : rdOf w = (w.toNat / 2 ^ 7 % 2 ^ 5 : Nat) := by rw [rdOf, slice_toNat]

theorem rs1Of_eq (w : Word) : rs1Of w = (w.toNat / 2 ^ 15 % 2 ^ 5 : Nat) := by rw [rs1Of, slice_toNat]

theorem rs2Of_eq (w : Word) : rs2Of w = (w.toNat / 2 ^ 20 % 2 ^ 5 : Nat) := by rw [rs2Of, slice_toNat]

/-- `sext_n(u)` is `u`, less 2^n where the sign bit is set (R8). -/
theorem sext_eq {n : Nat} (x : BitVec n) :
    x.toInt = if 2 * x.toNat < 2 ^ n then (x.toNat : Int) else (x.toNat : Int) - (2 ^ n : Nat) := by
  rw [BitVec.toInt_eq_toNat_cond]

/-- The bit 0 that the B and J immediates do not store. -/
theorem toNat_zero_bit : (0 : BitVec 1).toNat = 0 := rfl

theorem immIOf_eq (w : Word) :
    immIOf w = let u : Nat := w.toNat / 2 ^ 20 % 2 ^ 12; if u < 2 ^ 11 then (u : Int) else (u : Int) - 2 ^ 12 := by
  simp only [immIOf, sext_eq, slice_toNat]
  split_ifs <;> omega

theorem immSOf_eq (w : Word) :
    immSOf w = let u : Nat := w.toNat / 2 ^ 25 % 2 ^ 7 * 2 ^ 5 + w.toNat / 2 ^ 7 % 2 ^ 5
      if u < 2 ^ 11 then (u : Int) else (u : Int) - 2 ^ 12 := by
  simp only [immSOf, sext_eq, append_toNat, slice_toNat]
  split_ifs <;> omega

theorem immBOf_eq (w : Word) :
    immBOf w = let u : Nat := w.toNat / 2 ^ 31 % 2 * 2 ^ 12 + w.toNat / 2 ^ 7 % 2 * 2 ^ 11 + w.toNat / 2 ^ 25 % 2 ^ 6 * 2 ^ 5
        + w.toNat / 2 ^ 8 % 2 ^ 4 * 2
      if u < 2 ^ 12 then (u : Int) else (u : Int) - 2 ^ 13 := by
  simp only [immBOf, sext_eq, append_toNat, slice_toNat, toNat_zero_bit]
  split_ifs <;> omega

theorem immUOf_eq (w : Word) :
    immUOf w = let u : Nat := w.toNat / 2 ^ 12 % 2 ^ 20; if u < 2 ^ 19 then (u : Int) else (u : Int) - 2 ^ 20 := by
  simp only [immUOf, sext_eq, slice_toNat]
  split_ifs <;> omega

theorem immJOf_eq (w : Word) :
    immJOf w = let u : Nat := w.toNat / 2 ^ 31 % 2 * 2 ^ 20 + w.toNat / 2 ^ 12 % 2 ^ 8 * 2 ^ 12 + w.toNat / 2 ^ 20 % 2 * 2 ^ 11
        + w.toNat / 2 ^ 21 % 2 ^ 10 * 2
      if u < 2 ^ 20 then (u : Int) else (u : Int) - 2 ^ 21 := by
  simp only [immJOf, sext_eq, append_toNat, slice_toNat, toNat_zero_bit]
  split_ifs <;> omega

end Sys2Proof.Machine
end

