-- ==== Sys2Proof/Laws/Layouts.lean ====
section
/-! SUPPORT. Packing and unpacking undo each other, format by format, and then once for `packWord`. -/

namespace Sys2Proof.Machine

/-! ### Value sets as inequalities -/

theorem isRegister_iff (v : Int) : isRegister v = true ↔ 0 ≤ v ∧ v ≤ 31 := by simp [isRegister]

theorem isEven_iff (v : Int) : isEven v = true ↔ v % 2 = 0 := by simp [isEven]

theorem fitsSigned_iff (n : Nat) (v : Int) : fitsSigned n v = true ↔ -(2 ^ (n - 1)) ≤ v ∧ v ≤ 2 ^ (n - 1) - 1 := by
  simp [fitsSigned]

theorem legalValue_rd (v : Int) : legalValue .rd v = true ↔ 0 ≤ v ∧ v ≤ 31 := by
  simp [legalValue, inRange, isAligned, isRegister_iff]

theorem legalValue_rs1 (v : Int) : legalValue .rs1 v = true ↔ 0 ≤ v ∧ v ≤ 31 := by
  simp [legalValue, inRange, isAligned, isRegister_iff]

theorem legalValue_rs2 (v : Int) : legalValue .rs2 v = true ↔ 0 ≤ v ∧ v ≤ 31 := by
  simp [legalValue, inRange, isAligned, isRegister_iff]

theorem legalValue_imm12 (v : Int) : legalValue (.imm .w12 false) v = true ↔ -2048 ≤ v ∧ v ≤ 2047 := by
  simp [legalValue, inRange, isAligned, fitsSigned_iff, immBits]

theorem legalValue_imm20 (v : Int) : legalValue (.imm .w20 false) v = true ↔ -524288 ≤ v ∧ v ≤ 524287 := by
  simp [legalValue, inRange, isAligned, fitsSigned_iff, immBits]

theorem legalValue_even12 (v : Int) :
    legalValue (.imm .w12 true) v = true ↔ -4096 ≤ v ∧ v ≤ 4095 ∧ v % 2 = 0 := by
  simp [legalValue, inRange, isAligned, fitsSigned_iff, isEven_iff, immBits, and_assoc]

theorem legalValue_even20 (v : Int) :
    legalValue (.imm .w20 true) v = true ↔ -1048576 ≤ v ∧ v ≤ 1048575 ∧ v % 2 = 0 := by
  simp [legalValue, inRange, isAligned, fitsSigned_iff, isEven_iff, immBits, and_assoc]

/-! ### The fixed fields of a word as numbers -/

theorem opcodeField_iff (w : Word) (op : BitVec 7) : opcodeField w = op ↔ w.toNat % 2 ^ 7 = op.toNat := by
  rw [← BitVec.toNat_inj, opcodeField, slice_toNat]
  simp

theorem funct3Field_iff (w : Word) (f3 : BitVec 3) : funct3Field w = f3 ↔ w.toNat / 2 ^ 12 % 2 ^ 3 = f3.toNat := by
  rw [← BitVec.toNat_inj, funct3Field, slice_toNat]

theorem funct7Field_iff (w : Word) (f7 : BitVec 7) : funct7Field w = f7 ↔ w.toNat / 2 ^ 25 % 2 ^ 7 = f7.toNat := by
  rw [← BitVec.toNat_inj, funct7Field, slice_toNat]

/-! ### The stored pieces of a scattered immediate, as digits -/

theorem digitsS {v : Int} (h : -2048 ≤ v ∧ v ≤ 2047) : ∃ hi lo : Int, v % 2 ^ 12 / 2 ^ 5 = hi ∧ v % 2 ^ 5 = lo ∧
    (0 ≤ hi ∧ hi ≤ 127) ∧ (0 ≤ lo ∧ lo ≤ 31) ∧ v = (if hi < 64 then hi * 32 + lo else hi * 32 + lo - 4096) := by
  refine ⟨_, _, rfl, rfl, by omega, by omega, ?_⟩
  split_ifs <;> omega

theorem digitsB {v : Int} (h : -4096 ≤ v ∧ v ≤ 4095 ∧ v % 2 = 0) : ∃ sg ten four el : Int,
    v % 2 ^ 13 / 2 ^ 12 = sg ∧ v % 2 ^ 11 / 2 ^ 5 = ten ∧ v % 2 ^ 5 / 2 = four ∧ v % 2 ^ 12 / 2 ^ 11 = el ∧
      (0 ≤ sg ∧ sg ≤ 1) ∧ (0 ≤ ten ∧ ten ≤ 63) ∧ (0 ≤ four ∧ four ≤ 15) ∧ (0 ≤ el ∧ el ≤ 1) ∧
        v = el * 2048 + ten * 32 + four * 2 - sg * 4096 := by
  refine ⟨_, _, _, _, rfl, rfl, rfl, rfl, by omega, by omega, by omega, by omega, ?_⟩
  omega

theorem digitsJ {v : Int} (h : -1048576 ≤ v ∧ v ≤ 1048575 ∧ v % 2 = 0) : ∃ sg ten el high : Int,
    v % 2 ^ 21 / 2 ^ 20 = sg ∧ v % 2 ^ 11 / 2 = ten ∧ v % 2 ^ 12 / 2 ^ 11 = el ∧ v % 2 ^ 20 / 2 ^ 12 = high ∧
      (0 ≤ sg ∧ sg ≤ 1) ∧ (0 ≤ ten ∧ ten ≤ 1023) ∧ (0 ≤ el ∧ el ≤ 1) ∧ (0 ≤ high ∧ high ≤ 255) ∧
        v = high * 4096 + el * 2048 + ten * 2 - sg * 1048576 := by
  refine ⟨_, _, _, _, rfl, rfl, rfl, rfl, by omega, by omega, by omega, by omega, ?_⟩
  omega

/-! ### Unpack after pack -/

section
variable (f7 : BitVec 7) (f3 : BitVec 3) (op : BitVec 7) {rd rs1 rs2 imm : Int}

theorem encR_fields (hd : 0 ≤ rd ∧ rd ≤ 31) (ha : 0 ≤ rs1 ∧ rs1 ≤ 31) (hb : 0 ≤ rs2 ∧ rs2 ≤ 31) :
    let w := encR f7 f3 op rd rs1 rs2
    opcodeField w = op ∧ funct3Field w = f3 ∧ funct7Field w = f7 ∧ unpackValues .R w = [rd, rs1, rs2] := by
  have h := encR_toNat f7 f3 op hd.1 hd.2 ha.1 ha.2 hb.1 hb.2
  simp only [opcodeField_iff, funct3Field_iff, funct7Field_iff, unpackValues, rdOf_eq, rs1Of_eq, rs2Of_eq]
  generalize (encR f7 f3 op rd rs1 rs2).toNat = n at h
  refine ⟨by omega, by omega, by omega, ?_⟩
  congr 1
  · omega
  congr 1
  · omega
  congr 1
  omega

theorem encI_fields (hd : 0 ≤ rd ∧ rd ≤ 31) (ha : 0 ≤ rs1 ∧ rs1 ≤ 31) (hi : -2048 ≤ imm ∧ imm ≤ 2047) :
    let w := encI f3 op rd rs1 imm
    opcodeField w = op ∧ funct3Field w = f3 ∧ unpackValues .I w = [rd, rs1, imm] := by
  have h := encI_toNat f3 op imm hd.1 hd.2 ha.1 ha.2
  simp only [opcodeField_iff, funct3Field_iff, unpackValues, rdOf_eq, rs1Of_eq, immIOf_eq]
  generalize (encI f3 op rd rs1 imm).toNat = n at h
  refine ⟨by omega, by omega, ?_⟩
  congr 1
  · omega
  congr 1
  · omega
  congr 1
  split_ifs <;> omega

theorem encS_fields (ha : 0 ≤ rs1 ∧ rs1 ≤ 31) (hb : 0 ≤ rs2 ∧ rs2 ≤ 31) (hi : -2048 ≤ imm ∧ imm ≤ 2047) :
    let w := encS f3 op rs1 rs2 imm
    opcodeField w = op ∧ funct3Field w = f3 ∧ unpackValues .S w = [rs1, rs2, imm] := by
  have h := encS_toNat f3 op imm ha.1 ha.2 hb.1 hb.2
  simp only [opcodeField_iff, funct3Field_iff, unpackValues, rs1Of_eq, rs2Of_eq, immSOf_eq]
  obtain ⟨hi5, lo5, e1, e2, b1, b2, hv⟩ := digitsS hi
  rw [e1, e2] at h
  clear e1 e2
  generalize (encS f3 op rs1 rs2 imm).toNat = n at h
  have q7 : ((n / 2 ^ 7 : Nat) : Int) = lo5 + 32 * (f3.toNat + 8 * (rs1 + 32 * (rs2 + 32 * hi5))) := by omega
  have q12 : ((n / 2 ^ 12 : Nat) : Int) = f3.toNat + 8 * (rs1 + 32 * (rs2 + 32 * hi5)) := by omega
  have q15 : ((n / 2 ^ 15 : Nat) : Int) = rs1 + 32 * (rs2 + 32 * hi5) := by omega
  have q20 : ((n / 2 ^ 20 : Nat) : Int) = rs2 + 32 * hi5 := by omega
  have q25 : ((n / 2 ^ 25 : Nat) : Int) = hi5 := by omega
  have v7 : ((n / 2 ^ 7 % 2 ^ 5 : Nat) : Int) = lo5 := by omega
  have v25 : ((n / 2 ^ 25 % 2 ^ 7 : Nat) : Int) = hi5 := by omega
  have v12 : ((n / 2 ^ 12 % 2 ^ 3 : Nat) : Int) = f3.toNat := by omega
  have v15 : ((n / 2 ^ 15 % 2 ^ 5 : Nat) : Int) = rs1 := by omega
  have v20 : ((n / 2 ^ 20 % 2 ^ 5 : Nat) : Int) = rs2 := by omega
  clear q7 q12 q15 q20 q25
  refine ⟨by omega, by omega, ?_⟩
  rw [v15, v20]
  congr 3
  split_ifs at hv ⊢ <;> omega

theorem encB_fields (ha : 0 ≤ rs1 ∧ rs1 ≤ 31) (hb : 0 ≤ rs2 ∧ rs2 ≤ 31)
    (hi : -4096 ≤ imm ∧ imm ≤ 4095 ∧ imm % 2 = 0) :
    let w := encB f3 op rs1 rs2 imm
    opcodeField w = op ∧ funct3Field w = f3 ∧ unpackValues .B w = [rs1, rs2, imm] := by
  have h := encB_toNat f3 op imm ha.1 ha.2 hb.1 hb.2
  simp only [opcodeField_iff, funct3Field_iff, unpackValues, rs1Of_eq, rs2Of_eq, immBOf_eq]
  obtain ⟨sg, ten, four, el, e1, e2, e3, e4, b1, b2, b3, b4, hv⟩ := digitsB hi
  rw [e1, e2, e3, e4] at h
  clear e1 e2 e3 e4
  generalize (encB f3 op rs1 rs2 imm).toNat = n at h
  have q7 : ((n / 2 ^ 7 : Nat) : Int) = el + 2 * (four + 16 * (f3.toNat + 8 * (rs1 + 32 * (rs2 + 32 * (ten + 64 * sg))))) := by
    omega
  have q8 : ((n / 2 ^ 8 : Nat) : Int) = four + 16 * (f3.toNat + 8 * (rs1 + 32 * (rs2 + 32 * (ten + 64 * sg)))) := by omega
  have q12 : ((n / 2 ^ 12 : Nat) : Int) = f3.toNat + 8 * (rs1 + 32 * (rs2 + 32 * (ten + 64 * sg))) := by omega
  have q15 : ((n / 2 ^ 15 : Nat) : Int) = rs1 + 32 * (rs2 + 32 * (ten + 64 * sg)) := by omega
  have q20 : ((n / 2 ^ 20 : Nat) : Int) = rs2 + 32 * (ten + 64 * sg) := by omega
  have q25 : ((n / 2 ^ 25 : Nat) : Int) = ten + 64 * sg := by omega
  have q31 : ((n / 2 ^ 31 : Nat) : Int) = sg := by omega
  have v0 : ((n % 2 ^ 7 : Nat) : Int) = op.toNat := by omega
  have v7 : ((n / 2 ^ 7 % 2 : Nat) : Int) = el := by omega
  have v8 : ((n / 2 ^ 8 % 2 ^ 4 : Nat) : Int) = four := by omega
  have v12 : ((n / 2 ^ 12 % 2 ^ 3 : Nat) : Int) = f3.toNat := by omega
  have v15 : ((n / 2 ^ 15 % 2 ^ 5 : Nat) : Int) = rs1 := by omega
  have v20 : ((n / 2 ^ 20 % 2 ^ 5 : Nat) : Int) = rs2 := by omega
  have v25 : ((n / 2 ^ 25 % 2 ^ 6 : Nat) : Int) = ten := by omega
  have v31 : ((n / 2 ^ 31 % 2 : Nat) : Int) = sg := by omega
  clear q7 q8 q12 q15 q20 q25 q31 h
  refine ⟨by omega, by omega, ?_⟩
  rw [v15, v20]
  congr 3
  split_ifs <;> omega

theorem encU_fields (hd : 0 ≤ rd ∧ rd ≤ 31) (hi : -524288 ≤ imm ∧ imm ≤ 524287) :
    let w := encU op rd imm
    opcodeField w = op ∧ unpackValues .U w = [rd, imm] := by
  have h := encU_toNat op imm hd.1 hd.2
  simp only [opcodeField_iff, unpackValues, rdOf_eq, immUOf_eq]
  generalize (encU op rd imm).toNat = n at h
  refine ⟨by omega, ?_⟩
  congr 1
  · omega
  congr 1
  split_ifs <;> omega

theorem encJ_fields (hd : 0 ≤ rd ∧ rd ≤ 31) (hi : -1048576 ≤ imm ∧ imm ≤ 1048575 ∧ imm % 2 = 0) :
    let w := encJ op rd imm
    opcodeField w = op ∧ unpackValues .J w = [rd, imm] := by
  have h := encJ_toNat op imm hd.1 hd.2
  simp only [opcodeField_iff, unpackValues, rdOf_eq, immJOf_eq]
  obtain ⟨sg, ten, el, high, e1, e2, e3, e4, b1, b2, b3, b4, hv⟩ := digitsJ hi
  rw [e1, e2, e3, e4] at h
  clear e1 e2 e3 e4
  generalize (encJ op rd imm).toNat = n at h
  have q7 : ((n / 2 ^ 7 : Nat) : Int) = rd + 32 * (high + 256 * (el + 2 * (ten + 1024 * sg))) := by omega
  have q12 : ((n / 2 ^ 12 : Nat) : Int) = high + 256 * (el + 2 * (ten + 1024 * sg)) := by omega
  have q20 : ((n / 2 ^ 20 : Nat) : Int) = el + 2 * (ten + 1024 * sg) := by omega
  have q21 : ((n / 2 ^ 21 : Nat) : Int) = ten + 1024 * sg := by omega
  have q31 : ((n / 2 ^ 31 : Nat) : Int) = sg := by omega
  have v0 : ((n % 2 ^ 7 : Nat) : Int) = op.toNat := by omega
  have v7 : ((n / 2 ^ 7 % 2 ^ 5 : Nat) : Int) = rd := by omega
  have v12 : ((n / 2 ^ 12 % 2 ^ 8 : Nat) : Int) = high := by omega
  have v20 : ((n / 2 ^ 20 % 2 : Nat) : Int) = el := by omega
  have v21 : ((n / 2 ^ 21 % 2 ^ 10 : Nat) : Int) = ten := by omega
  have v31 : ((n / 2 ^ 31 % 2 : Nat) : Int) = sg := by omega
  clear q7 q12 q20 q21 q31 h
  refine ⟨by omega, ?_⟩
  rw [v7]
  congr 2
  split_ifs <;> omega

end

/-! ### Every word unpacks to legal values (R61, R62, R140) -/

theorem unpackValues_legal (f : Format) (w : Word) : legalValues (operandKinds f) (unpackValues f w) = true := by
  cases f <;>
    simp only [operandKinds, unpackValues, legalValues, Bool.and_eq_true, and_true, legalValue_rd, legalValue_rs1,
      legalValue_rs2, legalValue_imm12, legalValue_imm20, legalValue_even12, legalValue_even20, rdOf_eq, rs1Of_eq,
      rs2Of_eq, immIOf_eq, immSOf_eq, immBOf_eq, immUOf_eq, immJOf_eq]
  · omega
  · split_ifs <;> omega
  · split_ifs <;> omega
  · split_ifs <;> omega
  · split_ifs <;> omega
  · split_ifs <;> omega

/-! ### Pack after unpack: nothing of a word is lost (R53, R61) -/

theorem rdOf_bounds (w : Word) : 0 ≤ rdOf w ∧ rdOf w ≤ 31 := by rw [rdOf_eq]; omega

theorem rs1Of_bounds (w : Word) : 0 ≤ rs1Of w ∧ rs1Of w ≤ 31 := by rw [rs1Of_eq]; omega

theorem rs2Of_bounds (w : Word) : 0 ≤ rs2Of w ∧ rs2Of w ≤ 31 := by rw [rs2Of_eq]; omega

theorem opcodeField_toNat (w : Word) : (opcodeField w).toNat = w.toNat % 2 ^ 7 := ((opcodeField_iff w _).1 rfl).symm

theorem funct3Field_toNat (w : Word) : (funct3Field w).toNat = w.toNat / 2 ^ 12 % 2 ^ 3 :=
  ((funct3Field_iff w _).1 rfl).symm

theorem funct7Field_toNat (w : Word) : (funct7Field w).toNat = w.toNat / 2 ^ 25 % 2 ^ 7 :=
  ((funct7Field_iff w _).1 rfl).symm

theorem encR_unpack (w : Word) :
    encR (funct7Field w) (funct3Field w) (opcodeField w) (rdOf w) (rs1Of w) (rs2Of w) = w := by
  have hd := rdOf_bounds w
  have ha := rs1Of_bounds w
  have hb := rs2Of_bounds w
  have h := encR_toNat (funct7Field w) (funct3Field w) (opcodeField w) hd.1 hd.2 ha.1 ha.2 hb.1 hb.2
  have := w.isLt
  apply BitVec.eq_of_toNat_eq
  rw [opcodeField_toNat, funct3Field_toNat, funct7Field_toNat] at h
  have e1 := rdOf_eq w
  have e2 := rs1Of_eq w
  have e3 := rs2Of_eq w
  omega

theorem encI_unpack (w : Word) : encI (funct3Field w) (opcodeField w) (rdOf w) (rs1Of w) (immIOf w) = w := by
  have hd := rdOf_bounds w
  have ha := rs1Of_bounds w
  have h := encI_toNat (funct3Field w) (opcodeField w) (immIOf w) hd.1 hd.2 ha.1 ha.2
  have := w.isLt
  apply BitVec.eq_of_toNat_eq
  rw [opcodeField_toNat, funct3Field_toNat] at h
  have e1 := rdOf_eq w
  have e2 := rs1Of_eq w
  have e3 : immIOf w % 2 ^ 12 = (w.toNat / 2 ^ 20 % 2 ^ 12 : Nat) := by
    rw [immIOf_eq]
    dsimp only
    split_ifs <;> omega
  rw [e3] at h
  omega

theorem pieces_of_digitsS {v : Int} {hi lo : Nat} (b1 : hi < 128) (b2 : lo < 32)
    (hv : v = if hi * 2 ^ 5 + lo < 2 ^ 11 then ((hi * 2 ^ 5 + lo : Nat) : Int) else ((hi * 2 ^ 5 + lo : Nat) : Int) - 2 ^ 12) :
    v % 2 ^ 12 / 2 ^ 5 = hi ∧ v % 2 ^ 5 = lo := by
  have m12 : v % 2 ^ 12 = hi * 32 + lo := by split_ifs at hv <;> omega
  have m5 : v % 2 ^ 5 = lo := by split_ifs at hv <;> omega
  rw [m12]
  omega

theorem word_cut_S (n : Nat) (h : n < 2 ^ 32) : n = n / 2 ^ 25 % 2 ^ 7 * 2 ^ 25
    + n / 2 ^ 20 % 2 ^ 5 * 2 ^ 20 + n / 2 ^ 15 % 2 ^ 5 * 2 ^ 15 + n / 2 ^ 12 % 2 ^ 3 * 2 ^ 12
    + n / 2 ^ 7 % 2 ^ 5 * 2 ^ 7 + n % 2 ^ 7 := by
  have c7 : n = n / 2 ^ 7 * 2 ^ 7 + n % 2 ^ 7 := by omega
  have c12 : n / 2 ^ 7 = n / 2 ^ 12 * 2 ^ 5 + n / 2 ^ 7 % 2 ^ 5 := by omega
  have c15 : n / 2 ^ 12 = n / 2 ^ 15 * 2 ^ 3 + n / 2 ^ 12 % 2 ^ 3 := by omega
  have c20 : n / 2 ^ 15 = n / 2 ^ 20 * 2 ^ 5 + n / 2 ^ 15 % 2 ^ 5 := by omega
  have c25 : n / 2 ^ 20 = n / 2 ^ 25 % 2 ^ 7 * 2 ^ 5 + n / 2 ^ 20 % 2 ^ 5 := by omega
  clear h
  linarith [c7, c12, c15, c20, c25]

theorem encS_unpack (w : Word) : encS (funct3Field w) (opcodeField w) (rs1Of w) (rs2Of w) (immSOf w) = w := by
  have ha := rs1Of_bounds w
  have hb := rs2Of_bounds w
  have h := encS_toNat (funct3Field w) (opcodeField w) (immSOf w) ha.1 ha.2 hb.1 hb.2
  have b25 : w.toNat / 2 ^ 25 % 2 ^ 7 < 128 := Nat.mod_lt _ (by decide)
  have b7 : w.toNat / 2 ^ 7 % 2 ^ 5 < 32 := Nat.mod_lt _ (by decide)
  obtain ⟨f1, f2⟩ := pieces_of_digitsS b25 b7 (immSOf_eq w)
  apply BitVec.eq_of_toNat_eq
  rw [word_cut_S w.toNat w.isLt, ← Int.natCast_inj, h, opcodeField_toNat, funct3Field_toNat, rs1Of_eq, rs2Of_eq, f1, f2]
  push_cast
  ring

theorem immBOf_digits (w : Word) : immBOf w =
    (w.toNat / 2 ^ 7 % 2 : Nat) * 2048 + (w.toNat / 2 ^ 25 % 2 ^ 6 : Nat) * 32 + (w.toNat / 2 ^ 8 % 2 ^ 4 : Nat) * 2
      - (w.toNat / 2 ^ 31 % 2 : Nat) * 4096 := by
  rw [immBOf_eq]
  dsimp only
  have b31 : w.toNat / 2 ^ 31 % 2 < 2 := Nat.mod_lt _ (by decide)
  have b7 : w.toNat / 2 ^ 7 % 2 < 2 := Nat.mod_lt _ (by decide)
  have b25 : w.toNat / 2 ^ 25 % 2 ^ 6 < 64 := Nat.mod_lt _ (by decide)
  have b8 : w.toNat / 2 ^ 8 % 2 ^ 4 < 16 := Nat.mod_lt _ (by decide)
  generalize w.toNat / 2 ^ 31 % 2 = s31 at *
  generalize w.toNat / 2 ^ 7 % 2 = s7 at *
  generalize w.toNat / 2 ^ 25 % 2 ^ 6 = s25 at *
  generalize w.toNat / 2 ^ 8 % 2 ^ 4 = s8 at *
  split_ifs <;> omega

theorem pieces_of_digitsB {v : Int} {sg el ten four : Nat} (b1 : sg < 2) (b2 : el < 2) (b3 : ten < 64) (b4 : four < 16)
    (hv : v = el * 2048 + ten * 32 + four * 2 - sg * 4096) :
    v % 2 ^ 13 / 2 ^ 12 = sg ∧ v % 2 ^ 11 / 2 ^ 5 = ten ∧ v % 2 ^ 5 / 2 = four ∧ v % 2 ^ 12 / 2 ^ 11 = el := by
  have m13 : v % 2 ^ 13 = sg * 4096 + el * 2048 + ten * 32 + four * 2 := by omega
  have m12 : v % 2 ^ 12 = el * 2048 + ten * 32 + four * 2 := by omega
  have m11 : v % 2 ^ 11 = ten * 32 + four * 2 := by omega
  have m5 : v % 2 ^ 5 = four * 2 := by omega
  rw [m13, m12, m11, m5]
  omega

/-- A word cut at the edges of the B layout's fields. -/
theorem word_cut_B (n : Nat) (h : n < 2 ^ 32) : n = n / 2 ^ 31 % 2 * 2 ^ 31 + n / 2 ^ 25 % 2 ^ 6 * 2 ^ 25
    + n / 2 ^ 20 % 2 ^ 5 * 2 ^ 20 + n / 2 ^ 15 % 2 ^ 5 * 2 ^ 15 + n / 2 ^ 12 % 2 ^ 3 * 2 ^ 12 + n / 2 ^ 8 % 2 ^ 4 * 2 ^ 8
    + n / 2 ^ 7 % 2 * 2 ^ 7 + n % 2 ^ 7 := by
  have c7 : n = n / 2 ^ 7 * 2 ^ 7 + n % 2 ^ 7 := by omega
  have c8 : n / 2 ^ 7 = n / 2 ^ 8 * 2 + n / 2 ^ 7 % 2 := by omega
  have c12 : n / 2 ^ 8 = n / 2 ^ 12 * 2 ^ 4 + n / 2 ^ 8 % 2 ^ 4 := by omega
  have c15 : n / 2 ^ 12 = n / 2 ^ 15 * 2 ^ 3 + n / 2 ^ 12 % 2 ^ 3 := by omega
  have c20 : n / 2 ^ 15 = n / 2 ^ 20 * 2 ^ 5 + n / 2 ^ 15 % 2 ^ 5 := by omega
  have c25 : n / 2 ^ 20 = n / 2 ^ 25 * 2 ^ 5 + n / 2 ^ 20 % 2 ^ 5 := by omega
  have c31 : n / 2 ^ 25 = n / 2 ^ 31 % 2 * 2 ^ 6 + n / 2 ^ 25 % 2 ^ 6 := by omega
  clear h
  linarith [c7, c8, c12, c15, c20, c25, c31]

theorem encB_unpack (w : Word) : encB (funct3Field w) (opcodeField w) (rs1Of w) (rs2Of w) (immBOf w) = w := by
  have ha := rs1Of_bounds w
  have hb := rs2Of_bounds w
  have h := encB_toNat (funct3Field w) (opcodeField w) (immBOf w) ha.1 ha.2 hb.1 hb.2
  have b31 : w.toNat / 2 ^ 31 % 2 < 2 := Nat.mod_lt _ (by decide)
  have b7 : w.toNat / 2 ^ 7 % 2 < 2 := Nat.mod_lt _ (by decide)
  have b25 : w.toNat / 2 ^ 25 % 2 ^ 6 < 64 := Nat.mod_lt _ (by decide)
  have b8 : w.toNat / 2 ^ 8 % 2 ^ 4 < 16 := Nat.mod_lt _ (by decide)
  have hv := immBOf_digits w
  apply BitVec.eq_of_toNat_eq
  rw [word_cut_B w.toNat w.isLt, ← Int.natCast_inj, h, opcodeField_toNat, funct3Field_toNat, rs1Of_eq, rs2Of_eq]
  generalize immBOf w = v at *
  generalize w.toNat / 2 ^ 31 % 2 = s31 at *
  generalize w.toNat / 2 ^ 7 % 2 = s7 at *
  generalize w.toNat / 2 ^ 25 % 2 ^ 6 = s25 at *
  generalize w.toNat / 2 ^ 8 % 2 ^ 4 = s8 at *
  obtain ⟨f1, f2, f3, f4⟩ := pieces_of_digitsB b31 b7 b25 b8 hv
  rw [f1, f2, f3, f4]
  push_cast
  ring

theorem encU_unpack (w : Word) : encU (opcodeField w) (rdOf w) (immUOf w) = w := by
  have hd := rdOf_bounds w
  have h := encU_toNat (opcodeField w) (immUOf w) hd.1 hd.2
  have := w.isLt
  apply BitVec.eq_of_toNat_eq
  rw [opcodeField_toNat] at h
  have e1 := rdOf_eq w
  have e3 : immUOf w % 2 ^ 20 = (w.toNat / 2 ^ 12 % 2 ^ 20 : Nat) := by
    rw [immUOf_eq]
    dsimp only
    split_ifs <;> omega
  rw [e3] at h
  omega

theorem immJOf_digits (w : Word) : immJOf w =
    (w.toNat / 2 ^ 12 % 2 ^ 8 : Nat) * 4096 + (w.toNat / 2 ^ 20 % 2 : Nat) * 2048 + (w.toNat / 2 ^ 21 % 2 ^ 10 : Nat) * 2
      - (w.toNat / 2 ^ 31 % 2 : Nat) * 1048576 := by
  rw [immJOf_eq]
  dsimp only
  have b31 : w.toNat / 2 ^ 31 % 2 < 2 := Nat.mod_lt _ (by decide)
  have b12 : w.toNat / 2 ^ 12 % 2 ^ 8 < 256 := Nat.mod_lt _ (by decide)
  have b20 : w.toNat / 2 ^ 20 % 2 < 2 := Nat.mod_lt _ (by decide)
  have b21 : w.toNat / 2 ^ 21 % 2 ^ 10 < 1024 := Nat.mod_lt _ (by decide)
  generalize w.toNat / 2 ^ 31 % 2 = s31 at *
  generalize w.toNat / 2 ^ 12 % 2 ^ 8 = s12 at *
  generalize w.toNat / 2 ^ 20 % 2 = s20 at *
  generalize w.toNat / 2 ^ 21 % 2 ^ 10 = s21 at *
  split_ifs <;> omega

theorem pieces_of_digitsJ {v : Int} {sg high el ten : Nat} (b1 : sg < 2) (b2 : high < 256) (b3 : el < 2) (b4 : ten < 1024)
    (hv : v = high * 4096 + el * 2048 + ten * 2 - sg * 1048576) :
    v % 2 ^ 21 / 2 ^ 20 = sg ∧ v % 2 ^ 11 / 2 = ten ∧ v % 2 ^ 12 / 2 ^ 11 = el ∧ v % 2 ^ 20 / 2 ^ 12 = high := by
  have m21 : v % 2 ^ 21 = sg * 1048576 + high * 4096 + el * 2048 + ten * 2 := by omega
  have m20 : v % 2 ^ 20 = high * 4096 + el * 2048 + ten * 2 := by omega
  have m12 : v % 2 ^ 12 = el * 2048 + ten * 2 := by omega
  have m11 : v % 2 ^ 11 = ten * 2 := by omega
  rw [m21, m20, m12, m11]
  omega

/-- A word cut at the edges of the J layout's fields. -/
theorem word_cut_J (n : Nat) (h : n < 2 ^ 32) : n = n / 2 ^ 31 % 2 * 2 ^ 31 + n / 2 ^ 21 % 2 ^ 10 * 2 ^ 21
    + n / 2 ^ 20 % 2 * 2 ^ 20 + n / 2 ^ 12 % 2 ^ 8 * 2 ^ 12 + n / 2 ^ 7 % 2 ^ 5 * 2 ^ 7 + n % 2 ^ 7 := by
  have c7 : n = n / 2 ^ 7 * 2 ^ 7 + n % 2 ^ 7 := by omega
  have c12 : n / 2 ^ 7 = n / 2 ^ 12 * 2 ^ 5 + n / 2 ^ 7 % 2 ^ 5 := by omega
  have c20 : n / 2 ^ 12 = n / 2 ^ 20 * 2 ^ 8 + n / 2 ^ 12 % 2 ^ 8 := by omega
  have c21 : n / 2 ^ 20 = n / 2 ^ 21 * 2 + n / 2 ^ 20 % 2 := by omega
  have c31 : n / 2 ^ 21 = n / 2 ^ 31 % 2 * 2 ^ 10 + n / 2 ^ 21 % 2 ^ 10 := by omega
  clear h
  linarith [c7, c12, c20, c21, c31]

theorem encJ_unpack (w : Word) : encJ (opcodeField w) (rdOf w) (immJOf w) = w := by
  have hd := rdOf_bounds w
  have h := encJ_toNat (opcodeField w) (immJOf w) hd.1 hd.2
  have b31 : w.toNat / 2 ^ 31 % 2 < 2 := Nat.mod_lt _ (by decide)
  have b12 : w.toNat / 2 ^ 12 % 2 ^ 8 < 256 := Nat.mod_lt _ (by decide)
  have b20 : w.toNat / 2 ^ 20 % 2 < 2 := Nat.mod_lt _ (by decide)
  have b21 : w.toNat / 2 ^ 21 % 2 ^ 10 < 1024 := Nat.mod_lt _ (by decide)
  have hv := immJOf_digits w
  apply BitVec.eq_of_toNat_eq
  rw [word_cut_J w.toNat w.isLt, ← Int.natCast_inj, h, opcodeField_toNat, rdOf_eq]
  generalize immJOf w = v at *
  generalize w.toNat / 2 ^ 31 % 2 = s31 at *
  generalize w.toNat / 2 ^ 12 % 2 ^ 8 = s12 at *
  generalize w.toNat / 2 ^ 20 % 2 = s20 at *
  generalize w.toNat / 2 ^ 21 % 2 ^ 10 = s21 at *
  obtain ⟨f1, f2, f3, f4⟩ := pieces_of_digitsJ b31 b12 b20 b21 hv
  rw [f1, f2, f3, f4]
  push_cast
  ring

/-! ### The same, once, for a template -/

/-- What it is to match, for a template that has its required funct values (R125). -/
theorem matchesWord_iff (t : Template) (w : Word) : matchesWord t w = true ↔
    opcodeField w = t.opcode ∧ (required3 t.format = true → t.funct3 = some (funct3Field w)) ∧
      (required7 t.format = true → t.funct7 = some (funct7Field w)) := by
  simp only [matchesWord, Bool.and_eq_true, Bool.or_eq_true, decide_eq_true_eq, Bool.not_eq_true', and_assoc]
  cases required3 t.format <;> cases required7 t.format <;> simp

/-- A word that a template matches is the template's packing of the operands it unpacks to. -/
theorem packWord_unpackValues {t : Template} {w : Word} (h : matchesWord t w = true) :
    packWord t (unpackValues t.format w) = .ok w := by
  obtain ⟨ho, h3, h7⟩ := (matchesWord_iff t w).1 h
  obtain ⟨m, op, f, f3, f7⟩ := t
  simp only at ho h3 h7
  subst ho
  cases f <;> simp only [required3, required7, forall_true_left, reduceCtorEq, false_implies] at h3 h7
  · simp only [packWord, unpackValues, h3, h7, encR_unpack]
  · simp only [packWord, unpackValues, h3, encI_unpack]
  · simp only [packWord, unpackValues, h3, encS_unpack]
  · simp only [packWord, unpackValues, h3, encB_unpack]
  · simp only [packWord, unpackValues, encU_unpack]
  · simp only [packWord, unpackValues, encJ_unpack]

/-- Values that are legal for the kinds of a format come in the format's shape. -/
theorem legalValues_nil {vs : List Int} (h : legalValues [] vs = true) : vs = [] := by
  cases vs with
  | nil => rfl
  | cons v vs => cases h

theorem legalValues_cons {k : OperandKind} {ks : List OperandKind} {vs : List Int}
    (h : legalValues (k :: ks) vs = true) :
    ∃ a as, vs = a :: as ∧ legalValue k a = true ∧ legalValues ks as = true := by
  cases vs with
  | nil => cases h
  | cons v vs =>
    rw [legalValues, Bool.and_eq_true] at h
    exact ⟨v, vs, rfl, h.1, h.2⟩

theorem legalValues_three {k1 k2 k3 : OperandKind} {vs : List Int} (h : legalValues [k1, k2, k3] vs = true) :
    ∃ a b c, vs = [a, b, c] ∧ legalValue k1 a = true ∧ legalValue k2 b = true ∧ legalValue k3 c = true := by
  obtain ⟨a, as, rfl, ha, h⟩ := legalValues_cons h
  obtain ⟨b, bs, rfl, hb, h⟩ := legalValues_cons h
  obtain ⟨c, cs, rfl, hc, h⟩ := legalValues_cons h
  obtain rfl := legalValues_nil h
  exact ⟨a, b, c, rfl, ha, hb, hc⟩

theorem legalValues_two {k1 k2 : OperandKind} {vs : List Int} (h : legalValues [k1, k2] vs = true) :
    ∃ a b, vs = [a, b] ∧ legalValue k1 a = true ∧ legalValue k2 b = true := by
  obtain ⟨a, as, rfl, ha, h⟩ := legalValues_cons h
  obtain ⟨b, bs, rfl, hb, h⟩ := legalValues_cons h
  obtain rfl := legalValues_nil h
  exact ⟨a, b, rfl, ha, hb⟩

/-- Everything packing legal operands does: the word matches the template and unpacks to the operands, or a required
funct value is missing. -/
theorem packWord_cases {t : Template} {vs : List Int} (h : legalValues (operandKinds t.format) vs = true) :
    (missingFunct t = true ∧ packWord t vs = .err .missingFunct) ∨
      (missingFunct t = false ∧
        ∃ w, packWord t vs = .ok w ∧ matchesWord t w = true ∧ unpackValues t.format w = vs) := by
  obtain ⟨m, op, f, f3, f7⟩ := t
  simp only [matchesWord_iff]
  cases f <;> simp only [operandKinds] at h
  · obtain ⟨a, b, c, rfl, ha, hb, hc⟩ := legalValues_three h
    rw [legalValue_rd] at ha; rw [legalValue_rs1] at hb; rw [legalValue_rs2] at hc
    cases f3 with
    | none => left; cases f7 <;> exact ⟨rfl, rfl⟩
    | some x3 =>
      cases f7 with
      | none => left; exact ⟨rfl, rfl⟩
      | some x7 =>
        right
        have := encR_fields x7 x3 op ha hb hc
        exact ⟨rfl, _, rfl, ⟨this.1, fun _ => by rw [this.2.1], fun _ => by rw [this.2.2.1]⟩, this.2.2.2⟩
  · obtain ⟨a, b, c, rfl, ha, hb, hc⟩ := legalValues_three h
    rw [legalValue_rd] at ha; rw [legalValue_rs1] at hb; rw [legalValue_imm12] at hc
    cases f3 with
    | none => left; exact ⟨rfl, rfl⟩
    | some x3 =>
      right
      have := encI_fields x3 op ha hb hc
      exact ⟨rfl, _, rfl, ⟨this.1, fun _ => by rw [this.2.1], by simp [required7]⟩, this.2.2⟩
  · obtain ⟨a, b, c, rfl, ha, hb, hc⟩ := legalValues_three h
    rw [legalValue_rs1] at ha; rw [legalValue_rs2] at hb; rw [legalValue_imm12] at hc
    cases f3 with
    | none => left; exact ⟨rfl, rfl⟩
    | some x3 =>
      right
      have := encS_fields x3 op ha hb hc
      exact ⟨rfl, _, rfl, ⟨this.1, fun _ => by rw [this.2.1], by simp [required7]⟩, this.2.2⟩
  · obtain ⟨a, b, c, rfl, ha, hb, hc⟩ := legalValues_three h
    rw [legalValue_rs1] at ha; rw [legalValue_rs2] at hb; rw [legalValue_even12] at hc
    cases f3 with
    | none => left; exact ⟨rfl, rfl⟩
    | some x3 =>
      right
      have := encB_fields x3 op ha hb hc
      exact ⟨rfl, _, rfl, ⟨this.1, fun _ => by rw [this.2.1], by simp [required7]⟩, this.2.2⟩
  · obtain ⟨a, b, rfl, ha, hb⟩ := legalValues_two h
    rw [legalValue_rd] at ha; rw [legalValue_imm20] at hb
    right
    have := encU_fields op ha hb
    exact ⟨rfl, _, rfl, ⟨this.1, by simp [required3], by simp [required7]⟩, this.2⟩
  · obtain ⟨a, b, rfl, ha, hb⟩ := legalValues_two h
    rw [legalValue_rd] at ha; rw [legalValue_even20] at hb
    right
    have := encJ_fields op ha hb
    exact ⟨rfl, _, rfl, ⟨this.1, by simp [required3], by simp [required7]⟩, this.2⟩

end Sys2Proof.Machine
end

