-- ==== Sys2Proof/Laws/State.lean ====
section
/-! SUPPORT. One lemma per field per update of the state, and what the shared endings of an operation come to. -/

namespace Sys2Proof.Machine

variable (s : State) (r : Response) (rs : List Request) (w : Word)

@[simp] theorem State.answer_reg : (s.answer r).reg = s.reg := rfl
@[simp] theorem State.answer_phase : (s.answer r).phase = s.phase := rfl
@[simp] theorem State.answer_cfg : (s.answer r).cfg = s.cfg := rfl
@[simp] theorem State.answer_requests : (s.answer r).requests = s.requests := rfl
@[simp] theorem State.answer_response : (s.answer r).response = some r := rfl

@[simp] theorem State.clear_reg : s.clear.reg = [] := rfl
@[simp] theorem State.clear_phase : s.clear.phase = .load := rfl
@[simp] theorem State.clear_cfg : s.clear.cfg = s.cfg := rfl
@[simp] theorem State.clear_requests : s.clear.requests = s.requests := rfl
@[simp] theorem State.clear_response : s.clear.response = none := rfl

@[simp] theorem State.withRequests_reg : (s.withRequests rs).reg = s.reg := rfl
@[simp] theorem State.withRequests_phase : (s.withRequests rs).phase = s.phase := rfl
@[simp] theorem State.withRequests_cfg : (s.withRequests rs).cfg = s.cfg := rfl
@[simp] theorem State.withRequests_requests : (s.withRequests rs).requests = rs := rfl
@[simp] theorem State.withRequests_response : (s.withRequests rs).response = s.response := rfl

@[simp] theorem State.withInstrWord_reg : (s.withInstrWord w).reg = templatesFor w := rfl
@[simp] theorem State.withInstrWord_phase : (s.withInstrWord w).phase = s.phase := rfl
@[simp] theorem State.withInstrWord_cfg : (s.withInstrWord w).cfg = s.cfg := rfl
@[simp] theorem State.withInstrWord_requests : (s.withInstrWord w).requests = .instr w :: s.requests := rfl

/-- Everything a plain response does: it is a next state, and only the response differs. -/
theorem respond_eq_next {s t : State} {x : Result Value} (h : respond s x = .next t) : t = s.answer (.done x) := by
  rw [respond, Host.Outcome.next.injEq] at h
  exact h.symm

theorem Result.andThen_ok {α β : Type} (a : α) (f : α → Result β) : (Result.ok a).andThen f = f a := rfl

theorem Result.andThen_err {α β : Type} (e : CodecError) (f : α → Result β) : (Result.err e).andThen f = .err e := rfl

theorem Result.andThen_refused {α β : Type} (x : RefusalReason) (f : α → Result β) :
    (Result.refused x).andThen f = .refused x := rfl

end Sys2Proof.Machine
end

