-- ==== Sys2Proof/Laws/Binder.lean ====
section
/-! SUPPORT. The Registry looked up, the binder and the encoder: everything each can answer, once. -/

namespace Sys2Proof.Machine

/-! ### Lookup -/

theorem sameMnemonic_iff (a b : Text) : sameMnemonic a b = true ↔ a = b := by simp [sameMnemonic]

theorem lookup_eq_none_iff (reg : List Template) (m : Text) : lookup reg m = none ↔ ∀ u ∈ reg, u.mnemonic ≠ m := by
  simp [lookup, sameMnemonic]

theorem lookup_some {reg : List Template} {m : Text} {t : Template} (h : lookup reg m = some t) :
    t ∈ reg ∧ t.mnemonic = m := by
  rw [lookup] at h
  have hp := List.find?_some h
  exact ⟨List.mem_of_find?_eq_some h, (sameMnemonic_iff _ _).1 hp⟩

theorem lookup_isSome_iff (reg : List Template) (m : Text) :
    (lookup reg m).isSome = true ↔ ∃ u ∈ reg, u.mnemonic = m := by
  simp [lookup, sameMnemonic]

theorem lookup_append (reg more : List Template) (m : Text) :
    lookup (reg ++ more) m = (lookup reg m).or (lookup more m) := List.find?_append

/-- With distinct mnemonics a template of the Registry is the one its mnemonic looks up. -/
theorem lookup_of_mem {reg : List Template} (hd : (reg.map (·.mnemonic)).Nodup) {t : Template} (ht : t ∈ reg) :
    lookup reg t.mnemonic = some t := by
  induction reg with
  | nil => cases ht
  | cons u reg ih =>
    rw [List.map_cons, List.nodup_cons] at hd
    rcases List.mem_cons.1 ht with rfl | ht
    · simp [lookup, sameMnemonic]
    · have hne : u.mnemonic ≠ t.mnemonic := fun h => hd.1 (h ▸ List.mem_map_of_mem ht)
      have := ih hd.2 ht
      rw [lookup, List.find?_cons]
      simp only [sameMnemonic, hne, decide_false]
      exact this

/-! ### Operand lists -/

theorem legalValues_length {ks : List OperandKind} {vs : List Int} (h : legalValues ks vs = true) :
    vs.length = ks.length := by
  induction ks generalizing vs with
  | nil => rw [legalValues_nil h]; rfl
  | cons k ks ih =>
    obtain ⟨a, as, rfl, -, h⟩ := legalValues_cons h
    simp [ih h]

/-- A count of operands equal to the format's, and no failing operand: the legal lists of values. -/
theorem checkOperands_eq_none_iff (ks : List OperandKind) (vs : List Int) (hl : vs.length = ks.length) :
    checkOperands ks vs = none ↔ legalValues ks vs = true := by
  induction ks generalizing vs with
  | nil => cases vs with
    | nil => simp [checkOperands, legalValues]
    | cons v vs => simp at hl
  | cons k ks ih =>
    cases vs with
    | nil => simp at hl
    | cons v vs =>
      have := ih vs (by simpa using hl)
      simp only [checkOperands, checkOperand, legalValues, legalValue]
      cases inRange k v <;> cases isAligned k v <;> simp [this]

theorem boundOperands_kinds (f : Format) {vs : List Int} (hl : vs.length = (operandKinds f).length) :
    (boundOperands f vs).map (·.kind) = operandKinds f := by
  rw [boundOperands, List.map_zipWith]
  exact List.map_fst_zip (l₁ := operandKinds f) (l₂ := vs) hl.ge |> fun h => by
    simpa [List.zip, List.map_zipWith] using h

theorem boundOperands_values (f : Format) {vs : List Int} (hl : vs.length = (operandKinds f).length) :
    (boundOperands f vs).map (·.value) = vs := by
  rw [boundOperands, List.map_zipWith]
  exact List.map_snd_zip (l₁ := operandKinds f) (l₂ := vs) hl.le |> fun h => by
    simpa [List.zip, List.map_zipWith] using h

/-- A list of bound operands is the pairing of its kinds with its values. -/
theorem boundOperands_of_kinds {f : Format} {ops : List BoundOperand} (h : ops.map (·.kind) = operandKinds f) :
    boundOperands f (ops.map (·.value)) = ops := by
  rw [boundOperands, ← h]
  clear h
  induction ops with
  | nil => rfl
  | cons o ops ih => simp only [List.map_cons, List.zipWith_cons_cons, ih]

theorem all_legal_iff (ops : List BoundOperand) :
    (ops.all fun o => legalValue o.kind o.value) = legalValues (ops.map (·.kind)) (ops.map (·.value)) := by
  induction ops with
  | nil => rfl
  | cons o ops ih => simp only [List.all_cons, List.map_cons, legalValues, ih]

/-- What R16 and R17 ask of a bound instruction: the kinds of its format, and legal values. -/
theorem validBound_iff (bi : BoundInstruction) : validBound bi = true ↔
    bi.operands.map (·.kind) = operandKinds bi.template.format ∧
      legalValues (operandKinds bi.template.format) (bi.operands.map (·.value)) = true := by
  rw [validBound, Bool.and_eq_true, decide_eq_true_eq, all_legal_iff]
  constructor
  · rintro ⟨h, hl⟩; exact ⟨h, h ▸ hl⟩
  · rintro ⟨h, hl⟩; exact ⟨h, h ▸ hl⟩

theorem validBound_boundOperands {t : Template} {vs : List Int} (h : legalValues (operandKinds t.format) vs = true) :
    validBound ⟨t, boundOperands t.format vs⟩ = true := by
  have hl := legalValues_length h
  rw [validBound_iff, boundOperands_kinds _ hl, boundOperands_values _ hl]
  exact ⟨rfl, h⟩

/-! ### The binder -/

/-- Everything the binder can answer. -/
theorem bindTokens_cases (reg : List Template) (m : Text) (tokens : List Int) :
    (lookup reg m = none ∧ bindTokens reg m tokens = .err .unknownMnemonic) ∨
      ∃ t, lookup reg m = some t ∧
        ((tokens.length ≠ (operandKinds t.format).length ∧ bindTokens reg m tokens = .err .arityMismatch) ∨
          (tokens.length = (operandKinds t.format).length ∧
            ∃ e, checkOperands (operandKinds t.format) tokens = some e ∧ bindTokens reg m tokens = .err e) ∨
          (legalValues (operandKinds t.format) tokens = true ∧
            bindTokens reg m tokens = .ok ⟨t, boundOperands t.format tokens⟩)) := by
  rw [bindTokens]
  cases ht : lookup reg m with
  | none => left; exact ⟨rfl, rfl⟩
  | some t =>
    refine .inr ⟨t, rfl, ?_⟩
    by_cases hl : tokens.length = (operandKinds t.format).length
    · cases hc : checkOperands (operandKinds t.format) tokens with
      | some e => exact .inr (.inl ⟨hl, e, rfl, by simp [hl, hc]⟩)
      | none => exact .inr (.inr ⟨(checkOperands_eq_none_iff _ _ hl).1 hc, by simp [hl, hc]⟩)
    · exact .inl ⟨hl, by simp [hl]⟩

theorem bindTokens_of_legal {reg : List Template} {m : Text} {t : Template} {tokens : List Int} (ht : lookup reg m = some t)
    (h : legalValues (operandKinds t.format) tokens = true) :
    bindTokens reg m tokens = .ok ⟨t, boundOperands t.format tokens⟩ := by
  have hl := legalValues_length h
  simp [bindTokens, ht, hl, (checkOperands_eq_none_iff _ _ hl).2 h]

theorem bindTokens_eq_ok {reg : List Template} {m : Text} {tokens : List Int} {bi : BoundInstruction}
    (h : bindTokens reg m tokens = .ok bi) : ∃ t, lookup reg m = some t ∧
      legalValues (operandKinds t.format) tokens = true ∧ bi = ⟨t, boundOperands t.format tokens⟩ := by
  obtain ⟨-, hb⟩ | ⟨t, ht, ⟨-, hb⟩ | ⟨-, e, -, hb⟩ | ⟨hl, hb⟩⟩ := bindTokens_cases reg m tokens
  · rw [hb] at h; cases h
  · rw [hb] at h; cases h
  · rw [hb] at h; cases h
  · rw [hb] at h; cases h; exact ⟨t, ht, hl, rfl⟩

/-- The binder refuses nothing (R163). -/
theorem bindTokens_ne_refused (reg : List Template) (m : Text) (tokens : List Int) (r : RefusalReason) :
    bindTokens reg m tokens ≠ .refused r := by
  obtain ⟨-, hb⟩ | ⟨t, -, ⟨-, hb⟩ | ⟨-, e, -, hb⟩ | ⟨-, hb⟩⟩ := bindTokens_cases reg m tokens <;> rw [hb] <;> simp

/-! ### The encoder -/

theorem encodeBound_of_valid {bi : BoundInstruction} (h : validBound bi = true) :
    encodeBound bi = packWord bi.template (bi.operands.map (·.value)) := by rw [encodeBound, if_pos h]

theorem encodeBound_boundOperands {t : Template} {vs : List Int}
    (h : legalValues (operandKinds t.format) vs = true) :
    encodeBound ⟨t, boundOperands t.format vs⟩ = packWord t vs := by
  rw [encodeBound_of_valid (validBound_boundOperands h), boundOperands_values _ (legalValues_length h)]

/-- Everything the encoder can answer. -/
theorem encodeBound_cases (bi : BoundInstruction) :
    (validBound bi = false ∧ encodeBound bi = .refused .invalidBoundInstruction) ∨
      (validBound bi = true ∧ missingFunct bi.template = true ∧ encodeBound bi = .err .missingFunct) ∨
      (validBound bi = true ∧ missingFunct bi.template = false ∧ ∃ w, encodeBound bi = .ok w ∧
        matchesWord bi.template w = true ∧ unpackValues bi.template.format w = bi.operands.map (·.value)) := by
  cases hv : validBound bi with
  | false => exact .inl ⟨rfl, by rw [encodeBound, hv]; rfl⟩
  | true =>
    right
    rw [encodeBound_of_valid hv]
    obtain ⟨hm, h⟩ | ⟨hm, h⟩ := packWord_cases ((validBound_iff bi).1 hv).2
    · exact .inl ⟨rfl, hm, h⟩
    · exact .inr ⟨rfl, hm, h⟩

/-- `ASSEMBLE` refuses nothing: the binder's output is valid (R105, R120). -/
theorem assemble_ne_refused (reg : List Template) (m : Text) (tokens : List Int) (r : RefusalReason) :
    assemble reg m tokens ≠ .refused r := by
  rw [assemble]
  cases hb : bindTokens reg m tokens with
  | err e => simp [Result.andThen]
  | refused r => exact absurd hb (bindTokens_ne_refused _ _ _ _)
  | ok bi =>
    obtain ⟨t, -, hl, rfl⟩ := bindTokens_eq_ok hb
    rw [Result.andThen_ok, encodeBound_boundOperands hl]
    obtain ⟨-, h⟩ | ⟨-, w, h, -⟩ := packWord_cases hl <;> rw [h] <;> simp

end Sys2Proof.Machine
end

