-- ==== Sys2Proof/Laws/Decoder.lean ====
section
/-! SUPPORT. The decoder, the instruction a word is, and the data flow: everything each can answer, once. -/

namespace Sys2Proof

open Machine

/-! ### Searching -/

/-- Everything a search can answer (R127). -/
theorem searchTemplate_cases (reg : List Template) (w : Word) :
    (candidates reg w = [] ∧ searchTemplate reg w = .err .unknownEncoding) ∨
      (∃ t, candidates reg w = [t] ∧ searchTemplate reg w = .ok t) ∨
      (∃ t u rest, candidates reg w = t :: u :: rest ∧ searchTemplate reg w = .err .ambiguousDecode) := by
  rw [searchTemplate]
  match candidates reg w with
  | [] => exact .inl ⟨rfl, rfl⟩
  | [t] => exact .inr (.inl ⟨t, rfl, rfl⟩)
  | t :: u :: rest => exact .inr (.inr ⟨t, u, rest, rfl, rfl⟩)

theorem mem_candidates {reg : List Template} {w : Word} {t : Template} :
    t ∈ candidates reg w ↔ t ∈ reg ∧ matchesWord t w = true := by simp [candidates]

theorem searchTemplate_eq_ok {reg : List Template} {w : Word} {t : Template} (h : searchTemplate reg w = .ok t) :
    candidates reg w = [t] := by
  obtain ⟨-, hs⟩ | ⟨u, hc, hs⟩ | ⟨_, _, _, -, hs⟩ := searchTemplate_cases reg w <;> rw [hs] at h <;> cases h
  exact hc

theorem searchTemplate_of_candidates {reg : List Template} {w : Word} {t : Template} (h : candidates reg w = [t]) :
    searchTemplate reg w = .ok t := by rw [searchTemplate, h]

theorem decodeIn_eq_ok {reg : List Template} {w : Word} {i : Instr} (h : decodeIn reg w = .ok i) :
    ∃ t, candidates reg w = [t] ∧ i = instrOf t w := by
  rw [decodeIn] at h
  obtain ⟨-, hs⟩ | ⟨t, hc, hs⟩ | ⟨_, _, _, -, hs⟩ := searchTemplate_cases reg w <;> rw [hs] at h <;> cases h
  exact ⟨t, hc, rfl⟩

theorem decodeIn_of_candidates {reg : List Template} {w : Word} {t : Template} (h : candidates reg w = [t]) :
    decodeIn reg w = .ok (instrOf t w) := by rw [decodeIn, searchTemplate_of_candidates h]

/-- Searching what a search found finds the same. -/
theorem candidates_candidates (reg : List Template) (w : Word) : candidates (candidates reg w) w = candidates reg w := by
  simp [candidates]

/-! ### The instruction that a format, a mnemonic and tokens spell -/

/-- The instruction that a symbolic form spells, by its own row where it has one. -/
def spelled : Format → Text → List Int → Option Instr
  | .R, m, [rd, rs1, rs2] => some (instrR m rd rs1 rs2)
  | .I, m, [rd, rs1, imm] => some (instrI m rd rs1 imm)
  | .S, m, [rs1, rs2, imm] => some (instrS m rs1 rs2 imm)
  | .B, m, [rs1, rs2, imm] => some (instrB m rs1 rs2 imm)
  | .U, m, [rd, imm] => some (instrU m rd imm)
  | .J, m, [rd, imm] => some (instrJ m rd imm)
  | _, _, _ => none

/-- The instruction has this symbolic form, in the spelling of its own row. -/
def Instr.is (i : Instr) (m : Text) (f : Format) (vs : List Int) : Prop :=
  i.mnemonic = m ∧ i.format = f ∧ i.tokens = vs ∧ i.canonical = true

theorem instrR_is (m : Text) (a b c : Int) : (instrR m a b c).is m .R [a, b, c] := by
  have hrow : ∀ r ∈ namedR, (r.2 a b c).is r.1 .R [a, b, c] := by
    simp only [namedR, List.forall_mem_cons, Instr.is]
    and_intros <;> first | rfl | exact fun _ h => absurd h List.not_mem_nil
  rw [instrR]
  cases h : namedR.find? fun r => decide (r.1 = m) with
  | none => exact ⟨rfl, rfl, rfl, by simpa [Instr.canonical, hasOwnRow, List.any_eq_false] using h⟩
  | some r =>
    have hm := List.find?_some h
    rw [decide_eq_true_eq] at hm
    exact hm ▸ hrow r (List.mem_of_find?_eq_some h)

theorem instrI_is (m : Text) (a b c : Int) : (instrI m a b c).is m .I [a, b, c] := by
  have hrow : ∀ r ∈ namedI, (r.2 a b c).is r.1 .I [a, b, c] := by
    simp only [namedI, List.forall_mem_cons, Instr.is]
    and_intros <;> first | rfl | exact fun _ h => absurd h List.not_mem_nil
  rw [instrI]
  cases h : namedI.find? fun r => decide (r.1 = m) with
  | none => exact ⟨rfl, rfl, rfl, by simpa [Instr.canonical, hasOwnRow, List.any_eq_false] using h⟩
  | some r =>
    have hm := List.find?_some h
    rw [decide_eq_true_eq] at hm
    exact hm ▸ hrow r (List.mem_of_find?_eq_some h)

theorem instrS_is (m : Text) (a b c : Int) : (instrS m a b c).is m .S [a, b, c] := by
  have hrow : ∀ r ∈ namedS, (r.2 a b c).is r.1 .S [a, b, c] := by
    simp only [namedS, List.forall_mem_cons, Instr.is]
    and_intros <;> first | rfl | exact fun _ h => absurd h List.not_mem_nil
  rw [instrS]
  cases h : namedS.find? fun r => decide (r.1 = m) with
  | none => exact ⟨rfl, rfl, rfl, by simpa [Instr.canonical, hasOwnRow, List.any_eq_false] using h⟩
  | some r =>
    have hm := List.find?_some h
    rw [decide_eq_true_eq] at hm
    exact hm ▸ hrow r (List.mem_of_find?_eq_some h)

theorem instrB_is (m : Text) (a b c : Int) : (instrB m a b c).is m .B [a, b, c] := by
  have hrow : ∀ r ∈ namedB, (r.2 a b c).is r.1 .B [a, b, c] := by
    simp only [namedB, List.forall_mem_cons, Instr.is]
    and_intros <;> first | rfl | exact fun _ h => absurd h List.not_mem_nil
  rw [instrB]
  cases h : namedB.find? fun r => decide (r.1 = m) with
  | none => exact ⟨rfl, rfl, rfl, by simpa [Instr.canonical, hasOwnRow, List.any_eq_false] using h⟩
  | some r =>
    have hm := List.find?_some h
    rw [decide_eq_true_eq] at hm
    exact hm ▸ hrow r (List.mem_of_find?_eq_some h)

theorem instrU_is (m : Text) (a b : Int) : (instrU m a b).is m .U [a, b] := by
  have hrow : ∀ r ∈ namedU, (r.2 a b).is r.1 .U [a, b] := by
    simp only [namedU, List.forall_mem_cons, Instr.is]
    and_intros <;> first | rfl | exact fun _ h => absurd h List.not_mem_nil
  rw [instrU]
  cases h : namedU.find? fun r => decide (r.1 = m) with
  | none => exact ⟨rfl, rfl, rfl, by simpa [Instr.canonical, hasOwnRow, List.any_eq_false] using h⟩
  | some r =>
    have hm := List.find?_some h
    rw [decide_eq_true_eq] at hm
    exact hm ▸ hrow r (List.mem_of_find?_eq_some h)

theorem instrJ_is (m : Text) (a b : Int) : (instrJ m a b).is m .J [a, b] := by
  have hrow : ∀ r ∈ namedJ, (r.2 a b).is r.1 .J [a, b] := by
    simp only [namedJ, List.forall_mem_cons, Instr.is]
    and_intros <;> first | rfl | exact fun _ h => absurd h List.not_mem_nil
  rw [instrJ]
  cases h : namedJ.find? fun r => decide (r.1 = m) with
  | none => exact ⟨rfl, rfl, rfl, by simpa [Instr.canonical, hasOwnRow, List.any_eq_false] using h⟩
  | some r =>
    have hm := List.find?_some h
    rw [decide_eq_true_eq] at hm
    exact hm ▸ hrow r (List.mem_of_find?_eq_some h)

theorem spelled_is {f : Format} {m : Text} {vs : List Int} {i : Instr} (h : spelled f m vs = some i) :
    i.is m f vs := by
  unfold spelled at h
  split at h <;> simp only [Option.some.injEq, reduceCtorEq] at h <;> subst h
  · exact instrR_is ..
  · exact instrI_is ..
  · exact instrS_is ..
  · exact instrB_is ..
  · exact instrU_is ..
  · exact instrJ_is ..

theorem instr_of_no_row {α : Type} {rows : List (Text × α)} {m : Text}
    (h : (!rows.any fun r => decide (r.1 = m)) = true) : (rows.find? fun r => decide (r.1 = m)) = none := by
  simpa [List.any_eq_false] using h

/-- A canonical instruction is the one its symbolic form spells. -/
theorem spelled_self {i : Instr} (h : i.canonical = true) : spelled i.format i.mnemonic i.tokens = some i := by
  cases i
  case anyR => simp only [Instr.format, Instr.mnemonic, Instr.tokens, spelled, instrR, instr_of_no_row h]
  case anyI => simp only [Instr.format, Instr.mnemonic, Instr.tokens, spelled, instrI, instr_of_no_row h]
  case anyS => simp only [Instr.format, Instr.mnemonic, Instr.tokens, spelled, instrS, instr_of_no_row h]
  case anyB => simp only [Instr.format, Instr.mnemonic, Instr.tokens, spelled, instrB, instr_of_no_row h]
  case anyU => simp only [Instr.format, Instr.mnemonic, Instr.tokens, spelled, instrU, instr_of_no_row h]
  case anyJ => simp only [Instr.format, Instr.mnemonic, Instr.tokens, spelled, instrJ, instr_of_no_row h]
  all_goals rfl

theorem spelled_instrOf (t : Template) (w : Word) :
    spelled t.format t.mnemonic (unpackValues t.format w) = some (instrOf t w) := by
  rw [instrOf]
  cases t.format <;> rfl

/-- Everything the instruction of a word is: the template's mnemonic and format, and the fields of the word. -/
theorem instrOf_is (t : Template) (w : Word) :
    (instrOf t w).is t.mnemonic t.format (unpackValues t.format w) := spelled_is (spelled_instrOf t w)

theorem instrOf_wellFormed (t : Template) (w : Word) : (instrOf t w).wellFormed = true := by
  obtain ⟨-, hf, ht, hc⟩ := instrOf_is t w
  rw [Instr.wellFormed, Instr.operandsLegal, hf, ht, hc, unpackValues_legal]
  rfl

/-- Two canonical instructions with one symbolic form are one instruction. -/
theorem Instr.is_unique {i j : Instr} {m : Text} {f : Format} {vs : List Int} (hi : i.is m f vs) (hj : j.is m f vs) :
    i = j := by
  obtain ⟨im, hif, it, ic⟩ := hi
  obtain ⟨jm, jf, jt, jc⟩ := hj
  have hi := spelled_self ic
  have hj := spelled_self jc
  rw [im, hif, it] at hi
  rw [jm, jf, jt, hi] at hj
  exact Option.some.inj hj

/-! ### Encoding an instruction -/

/-- What it takes for an instruction to have a word. -/
theorem encodeIn_eq_some_iff {reg : List Template} {i : Instr} {w : Word} : encodeIn reg i = some w ↔
    ∃ t, lookup reg i.mnemonic = some t ∧ t.format = i.format ∧ legalValues (operandKinds t.format) i.tokens = true ∧
      packWord t i.tokens = .ok w := by
  rw [encodeIn]
  cases lookup reg i.mnemonic with
  | none => simp
  | some t =>
    simp only [Option.some.injEq, exists_eq_left', Bool.and_eq_true, decide_eq_true_eq]
    by_cases hf : t.format = i.format
    · by_cases hl : legalValues (operandKinds t.format) i.tokens = true
      · simp only [hf, hf ▸ hl, true_and, and_self, if_true]
        cases packWord t i.tokens <;> simp
      · simp [hl]
    · simp [hf]

/-! ### The data flow -/

namespace Machine

theorem exec_eq_runSymbolic (i : Instr) (s : State) : exec i s = runSymbolic i.mnemonic i.tokens s := by
  cases i <;> rfl

/-- A word that a template matches is decoded under it to its fields. -/
theorem decodeTemplate_of_match {t : Template} {w : Word} (h : matchesWord t w = true) :
    decodeTemplate w t = .ok ⟨t, boundOperands t.format (unpackValues t.format w)⟩ := by
  rw [decodeTemplate, if_pos h]; rfl

/-- Everything the data flow can answer: what `ASSEMBLE` answers, and with a word the decode of that word, which gives
back the mnemonic and the operands. -/
theorem dataFlow_cases (reg : List Template) (m : Text) (tokens : List Int) :
    (∃ e, assemble reg m tokens = .err e ∧ dataFlow reg m tokens = .err e) ∨
      ∃ t w, lookup reg m = some t ∧ legalValues (operandKinds t.format) tokens = true ∧ packWord t tokens = .ok w ∧
        assemble reg m tokens = .ok w ∧ matchesWord t w = true ∧ unpackValues t.format w = tokens ∧
          dataFlow reg m tokens = .ok (.coded w m (boundOperands t.format tokens)) := by
  rw [assemble, dataFlow]
  cases hb : bindTokens reg m tokens with
  | err e => exact .inl ⟨e, rfl, rfl⟩
  | refused r => exact absurd hb (bindTokens_ne_refused _ _ _ _)
  | ok bi =>
    obtain ⟨t, ht, hl, rfl⟩ := bindTokens_eq_ok hb
    simp only [Result.andThen_ok, encodeBound_boundOperands hl]
    obtain ⟨-, h⟩ | ⟨-, w, h, hm, hu⟩ := packWord_cases hl
    · exact .inl ⟨_, h, by rw [h]; rfl⟩
    · refine .inr ⟨t, w, ht, hl, h, h, hm, hu, ?_⟩
      simp only [h, Result.andThen_ok, decodeTemplate_of_match hm, hu, (lookup_some ht).2]

/-- Under a loaded template with its required funct values, and with legal operands, an instruction completes. -/
theorem dataFlow_of_packWord {reg : List Template} {m : Text} {t : Template} {tokens : List Int} {w : Word}
    (ht : lookup reg m = some t) (hl : legalValues (operandKinds t.format) tokens = true)
    (hw : packWord t tokens = .ok w) : dataFlow reg m tokens = .ok (.coded w m (boundOperands t.format tokens)) := by
  obtain ⟨e, ha, -⟩ | ⟨u, x, hu, -, hx, -, -, -, hd⟩ := dataFlow_cases reg m tokens
  · rw [assemble, bindTokens_of_legal ht hl, Result.andThen_ok, encodeBound_boundOperands hl, hw] at ha; cases ha
  · rw [ht, Option.some.injEq] at hu
    subst hu
    rw [hw, Result.ok.injEq] at hx
    rw [hd, hx]

theorem exec_of_packWord {s : State} {i : Instr} {t : Template} {w : Word} (ht : lookup s.reg i.mnemonic = some t)
    (hl : legalValues (operandKinds t.format) i.tokens = true) (hw : packWord t i.tokens = .ok w) :
    exec i s = respond s (.ok (.coded w i.mnemonic (boundOperands t.format i.tokens))) := by
  rw [exec_eq_runSymbolic, runSymbolic, dataFlow_of_packWord ht hl hw]

end Machine

end Sys2Proof
end

