-- ==== Sys2Proof/Laws/Matching.lean ====
section
/-! SUPPORT. The match of a template as one masked comparison (spec/30_encoding.md R66; spec/44_field_decoder.md R125). -/

namespace Sys2Proof.Machine

theorem append_eq_append_iff {m n : Nat} {a c : BitVec m} {b d : BitVec n} : a ++ b = c ++ d ↔ a = c ∧ b = d := by
  constructor
  · intro h
    have := congrArg BitVec.toNat h
    rw [append_toNat, append_toNat] at this
    have hb := b.isLt
    have hd := d.isLt
    have hp : 0 < 2 ^ n := Nat.two_pow_pos n
    have h1 : a.toNat = c.toNat := by
      have := congrArg (· / 2 ^ n) this
      simpa [Nat.mul_comm _ (2 ^ n), Nat.mul_add_div hp, Nat.div_eq_of_lt hb, Nat.div_eq_of_lt hd] using this
    refine ⟨BitVec.eq_of_toNat_eq h1, BitVec.eq_of_toNat_eq ?_⟩
    rw [h1] at this
    exact Nat.add_left_cancel this
  · rintro ⟨rfl, rfl⟩; rfl

theorem mask_R (w : Word) : w &&& 0xFE00707F =
    funct7Field w ++ (0 : BitVec 10) ++ funct3Field w ++ (0 : BitVec 5) ++ opcodeField w := by
  apply BitVec.eq_of_getLsbD_eq
  intro i hi
  simp only [funct7Field, funct3Field, opcodeField, BitVec.getLsbD_and, BitVec.getLsbD_append, BitVec.getLsbD_extractLsb']
  interval_cases i <;> simp

theorem mask_ISB (w : Word) : w &&& 0x0000707F =
    (0 : BitVec 17) ++ funct3Field w ++ (0 : BitVec 5) ++ opcodeField w := by
  apply BitVec.eq_of_getLsbD_eq
  intro i hi
  simp only [funct3Field, opcodeField, BitVec.getLsbD_and, BitVec.getLsbD_append, BitVec.getLsbD_extractLsb']
  interval_cases i <;> simp

theorem mask_UJ (w : Word) : w &&& 0x0000007F = (0 : BitVec 25) ++ opcodeField w := by
  apply BitVec.eq_of_getLsbD_eq
  intro i hi
  simp only [opcodeField, BitVec.getLsbD_and, BitVec.getLsbD_append, BitVec.getLsbD_extractLsb']
  interval_cases i <;> simp

theorem fixed_R_inj (a a' : BitVec 7) (b b' : BitVec 3) (c c' : BitVec 7) :
    (a ++ (0 : BitVec 10) ++ b ++ (0 : BitVec 5) ++ c : Word) = a' ++ (0 : BitVec 10) ++ b' ++ (0 : BitVec 5) ++ c' ↔
      c = c' ∧ b = b' ∧ a = a' := by
  constructor
  · intro h
    have h1 := (append_eq_append_iff (m := 25) (n := 7)).1 h
    have h2 := (append_eq_append_iff (m := 20) (n := 5)).1 h1.1
    have h3 := (append_eq_append_iff (m := 17) (n := 3)).1 h2.1
    exact ⟨h1.2, h3.2, ((append_eq_append_iff (m := 7) (n := 10)).1 h3.1).1⟩
  · rintro ⟨rfl, rfl, rfl⟩; rfl

theorem fixed_ISB_inj (b b' : BitVec 3) (c c' : BitVec 7) :
    ((0 : BitVec 17) ++ b ++ (0 : BitVec 5) ++ c : Word) = (0 : BitVec 17) ++ b' ++ (0 : BitVec 5) ++ c' ↔
      c = c' ∧ b = b' := by
  constructor
  · intro h
    have h1 := (append_eq_append_iff (m := 25) (n := 7)).1 h
    have h2 := (append_eq_append_iff (m := 20) (n := 5)).1 h1.1
    exact ⟨h1.2, ((append_eq_append_iff (m := 17) (n := 3)).1 h2.1).2⟩
  · rintro ⟨rfl, rfl⟩; rfl

theorem fixed_UJ_inj (c c' : BitVec 7) :
    ((0 : BitVec 25) ++ c : Word) = (0 : BitVec 25) ++ c' ↔ c = c' :=
  ⟨fun h => ((append_eq_append_iff (m := 25) (n := 7)).1 h).2, fun h => h ▸ rfl⟩

/-- A template with its required funct values has a match value, and its match is the masked comparison; one that lacks
any has neither. -/
theorem match_cases (t : Template) :
    (missingFunct t = true ∧ templateMatch t = none ∧ ∀ w, matchesWord t w = false) ∨
      (missingFunct t = false ∧ ∃ v, templateMatch t = some v ∧
        ∀ w, matchesWord t w = true ↔ w &&& templateMask t.format = v) := by
  have hfalse : ∀ w, ¬ matchesWord t w = true → matchesWord t w = false := fun w h => by simpa using h
  obtain ⟨m, op, f, f3, f7⟩ := t
  cases f
  case R =>
    cases f3 with
    | none =>
      exact .inl ⟨by cases f7 <;> rfl, by cases f7 <;> rfl, fun w => hfalse w (by simp [matchesWord_iff, required3])⟩
    | some x3 =>
      cases f7 with
      | none => exact .inl ⟨rfl, rfl, fun w => hfalse w (by simp [matchesWord_iff, required7])⟩
      | some x7 =>
        refine .inr ⟨rfl, _, rfl, fun w => ?_⟩
        rw [matchesWord_iff, templateMask, mask_R, fixed_R_inj]
        simp only [required3, required7, Option.some.injEq, forall_true_left, @eq_comm _ x3, @eq_comm _ x7]
  case U =>
    refine .inr ⟨rfl, _, rfl, fun w => ?_⟩
    rw [matchesWord_iff, templateMask, mask_UJ, fixed_UJ_inj]
    simp [required3, required7]
  case J =>
    refine .inr ⟨rfl, _, rfl, fun w => ?_⟩
    rw [matchesWord_iff, templateMask, mask_UJ, fixed_UJ_inj]
    simp [required3, required7]
  all_goals
    cases f3 with
    | none => exact .inl ⟨rfl, rfl, fun w => hfalse w (by simp [matchesWord_iff, required3])⟩
    | some x3 =>
      refine .inr ⟨rfl, _, rfl, fun w => ?_⟩
      rw [matchesWord_iff, templateMask, mask_ISB, fixed_ISB_inj]
      simp [required3, required7, @eq_comm _ x3]

end Sys2Proof.Machine
end

