-- ==== Sys2Proof/Laws/Catalog.lean ====
section
/-! SUPPORT. Templates that share no word (spec/44_field_decoder.md R137; spec/45_reference_catalog.md R147), and the
reference catalog. -/

namespace Sys2Proof.Machine

/-- Two templates whose fixed fields differ where both have some: the check of R177. -/
def apart (t u : Template) : Bool :=
  match templateMatch t, templateMatch u with
  | some a, some b => decide (a &&& templateMask u.format ≠ b &&& templateMask t.format)
  | _, _ => true

theorem not_both_match {t u : Template} (h : apart t u = true) {w : Word} (ht : matchesWord t w = true) :
    ¬ matchesWord u w = true := by
  intro hu
  obtain ⟨-, -, h1⟩ | ⟨-, a, ha, h1⟩ := match_cases t
  · rw [h1] at ht; cases ht
  obtain ⟨-, -, h2⟩ | ⟨-, b, hb, h2⟩ := match_cases u
  · rw [h2] at hu; cases hu
  rw [apart, ha, hb] at h
  refine of_decide_eq_true h ?_
  rw [← (h1 w).1 ht, ← (h2 w).1 hu, BitVec.and_assoc, BitVec.and_assoc, BitVec.and_comm (templateMask t.format)]

/-- In a Registry of templates that are pairwise apart, a template that matches a word is its only candidate. -/
theorem candidates_of_apart {reg : List Template} (hp : reg.Pairwise fun t u => apart t u = true) {t : Template}
    {w : Word} (ht : t ∈ reg) (hm : matchesWord t w = true) : candidates reg w = [t] := by
  induction reg with
  | nil => cases ht
  | cons u reg ih =>
    rw [List.pairwise_cons] at hp
    simp only [candidates, List.filter_cons]
    rcases List.mem_cons.1 ht with rfl | ht
    · rw [if_pos hm, List.filter_eq_nil_iff.2 fun v hv => not_both_match (hp.1 v hv) hm]
    · rw [if_neg fun hu => not_both_match (hp.1 t ht) hu hm]
      exact ih hp.2 ht

/-- The templates of R147 are pairwise unambiguous. -/
theorem referenceCatalog_apart : referenceCatalog.Pairwise fun t u => apart t u = true := by decide

theorem referenceCatalog_distinct : (referenceCatalog.map (·.mnemonic)).Nodup := by decide

theorem referenceCatalog_funct : ∀ t ∈ referenceCatalog, missingFunct t = false := by decide

/-- A mnemonic that has a row of its own in a format is a template of that format in the reference catalog. -/
theorem referenceCatalog_rows : ∀ f ∈ [Format.R, .I, .S, .B, .U, .J],
    ∀ m ∈ (match f with
      | .R => namedR.map Prod.fst | .I => namedI.map Prod.fst | .S => namedS.map Prod.fst
      | .B => namedB.map Prod.fst | .U => namedU.map Prod.fst | .J => namedJ.map Prod.fst : List Text),
      (lookup referenceCatalog m).map (·.format) = some f := by decide

theorem lookup_of_hasOwnRow {f : Format} {m : Text} (h : hasOwnRow f m = true) :
    ∃ t, lookup referenceCatalog m = some t ∧ t.format = f := by
  have := referenceCatalog_rows f (by cases f <;> decide) m (by
    cases f <;> simpa [hasOwnRow] using h)
  simpa using this

end Sys2Proof.Machine
end

