-- ==== Sys2Proof/Laws/Parser.lean ====
section
/-! SUPPORT. The catalog parser: cutting and trimming, the funct fields, and everything a line can come to, once. -/

namespace Sys2Proof.Machine

/-! ### Cutting and trimming -/

theorem cutAtCommas_of_no_comma {x : Text} (h : comma ∉ x) : cutAtCommas x = [x] := by
  induction x with
  | nil => rfl
  | cons b x ih =>
    simp only [List.mem_cons, not_or] at h
    rw [cutAtCommas, if_neg (Ne.symm h.1), ih h.2]

theorem cutAtCommas_append {x : Text} (h : comma ∉ x) (rest : Text) :
    cutAtCommas (x ++ comma :: rest) = x :: cutAtCommas rest := by
  induction x with
  | nil => rw [List.nil_append, cutAtCommas, if_pos rfl]
  | cons b x ih =>
    simp only [List.mem_cons, not_or] at h
    rw [List.cons_append, cutAtCommas, if_neg (Ne.symm h.1), ih h.2]

/-- Fields without commas, joined by commas, are cut into those fields (R74). -/
theorem cutAtCommas_intercalate {fields : List Text} (hne : fields ≠ []) (h : ∀ x ∈ fields, comma ∉ x) :
    cutAtCommas (List.intercalate [comma] fields) = fields := by
  induction fields with
  | nil => exact absurd rfl hne
  | cons x rest ih =>
    cases rest with
    | nil =>
      rw [List.intercalate_singleton]
      exact cutAtCommas_of_no_comma (h x (List.mem_cons_self ..))
    | cons y rest =>
      have := ih (by simp) fun z hz => h z (List.mem_cons_of_mem _ hz)
      rw [List.intercalate_cons_cons, List.append_assoc, List.singleton_append,
        cutAtCommas_append (h x (List.mem_cons_self ..)), this]

/-- White space in front of a field is no part of it (R74). -/
theorem trim_append_of_white {pad : Text} (h : pad.all isWhite = true) (x : Text) : trim (pad ++ x) = trim x := by
  rw [trim, trim]
  congr 3
  induction pad with
  | nil => rfl
  | cons b pad ih =>
    rw [List.all_cons, Bool.and_eq_true] at h
    rw [List.cons_append, List.dropWhile_cons, if_pos h.1, ih h.2]

theorem dropWhile_eq_self {x : Text} (h : ∀ b ∈ x, isWhite b = false) : x.dropWhile isWhite = x := by
  cases x with
  | nil => rfl
  | cons b x => rw [List.dropWhile_cons, if_neg (by simp [h b])]

/-- A text without white space is trimmed as it stands. -/
theorem trim_of_no_white {x : Text} (h : ∀ b ∈ x, isWhite b = false) : trim x = x := by
  rw [trim, dropWhile_eq_self h, dropWhile_eq_self (by simpa using h), List.reverse_reverse]

/-! ### Binary strings and funct fields -/

theorem isBinary_iff (x : Text) (n : Nat) : isBinary x n = true ↔ x.length = n ∧ ∀ b ∈ x, b = 0x30 ∨ b = 0x31 := by
  simp [isBinary]

/-- A field is read as a funct value exactly when it is the opening, the digits, and `)` (R78). -/
theorem functPayload_iff {opening : Text} {n : Nat} {x : Text} {v : Nat} : functPayload opening n x = some v ↔
    ∃ ds, isBinary ds n = true ∧ x = opening ++ ds ++ ascii ")" ∧ v = binaryValue ds := by
  have hlast : ∀ ds : Text, ((opening ++ ds ++ ascii ")").drop opening.length).dropLast = ds := by
    intro ds
    rw [List.append_assoc, List.drop_left]
    exact List.dropLast_concat
  rw [functPayload]
  constructor
  · intro h
    split at h
    · rename_i hc
      rw [Bool.and_eq_true, decide_eq_true_eq] at hc
      exact ⟨_, hc.2, hc.1, (Option.some.inj h).symm⟩
    · cases h
  · rintro ⟨ds, hb, rfl, rfl⟩
    simp only [hlast, hb, decide_true, Bool.and_self, if_true]

/-- A field is not both a funct3 and a funct7 field. -/
theorem functPayload_exclusive {x : Text} {a b : Nat} (h3 : functPayload (ascii "funct3(") 3 x = some a)
    (h7 : functPayload (ascii "funct7(") 7 x = some b) : False := by
  obtain ⟨ds, -, rfl, -⟩ := functPayload_iff.1 h3
  obtain ⟨es, -, he, -⟩ := functPayload_iff.1 h7
  have := congrArg (fun t : Text => t[5]?) he
  revert this
  simp [ascii]

/-- Reading the fields after the format letter: everything it can come to.  Either every field is a funct field that is
not yet there and none is given twice, and what is there in the end is what was there and what was read; or it fails. -/
theorem parseFuncts_cases (xs : List Text) (f3 : Option (BitVec 3)) (f7 : Option (BitVec 7)) :
    let is3 (x : Text) := (functPayload (ascii "funct3(") 3 x).isSome = true
    let is7 (x : Text) := (functPayload (ascii "funct7(") 7 x).isSome = true
    let good := (∀ x ∈ xs, is3 x ∨ is7 x) ∧ xs.Pairwise (fun x y => ¬ (is3 x ∧ is3 y) ∧ ¬ (is7 x ∧ is7 y)) ∧
      (f3.isSome = true → ∀ x ∈ xs, ¬ is3 x) ∧ (f7.isSome = true → ∀ x ∈ xs, ¬ is7 x)
    (¬ good ∧ parseFuncts xs f3 f7 = none) ∨
      (good ∧ ∃ g3 g7, parseFuncts xs f3 f7 = some (g3, g7) ∧
        (g3.isSome = true ↔ f3.isSome = true ∨ ∃ x ∈ xs, is3 x) ∧
        (g7.isSome = true ↔ f7.isSome = true ∨ ∃ x ∈ xs, is7 x)) := by
  intro is3 is7
  have hexcl : ∀ x, is3 x → is7 x → False := fun x h3 h7 => by
    obtain ⟨a, ha⟩ := Option.isSome_iff_exists.1 h3
    obtain ⟨b, hb⟩ := Option.isSome_iff_exists.1 h7
    exact functPayload_exclusive ha hb
  induction xs generalizing f3 f7 with
  | nil => exact .inr ⟨by simp, f3, f7, rfl, by simp, by simp⟩
  | cons x xs ih =>
    intro good
    by_cases h3 : is3 x
    · have h7 : ¬ is7 x := hexcl x h3
      obtain ⟨a, ha⟩ := Option.isSome_iff_exists.1 h3
      have h7' : functPayload (ascii "funct7(") 7 x = none := by simpa [is7] using h7
      cases f3 with
      | some v =>
        refine .inl ⟨fun g => g.2.2.1 rfl x (List.mem_cons_self ..) h3, ?_⟩
        simp only [parseFuncts, ha, h7']
      | none =>
        have heq : parseFuncts (x :: xs) none f7 = parseFuncts xs (some (BitVec.ofNat 3 a)) f7 := by
          simp only [parseFuncts, ha]
        rw [heq]
        obtain ⟨hg, e⟩ | ⟨hg, g3, g7, e, i3, i7⟩ := ih (some (BitVec.ofNat 3 a)) f7
        · refine .inl ⟨fun g => hg ⟨?_, ?_, ?_, ?_⟩, e⟩
          · exact fun y hy => g.1 y (List.mem_cons_of_mem _ hy)
          · exact (List.pairwise_cons.1 g.2.1).2
          · exact fun _ y hy h => ((List.pairwise_cons.1 g.2.1).1 y hy).1 ⟨h3, h⟩
          · exact fun h y hy => g.2.2.2 h y (List.mem_cons_of_mem _ hy)
        · refine .inr ⟨⟨?_, ?_, ?_, ?_⟩, g3, g7, e, ?_, ?_⟩
          · exact List.forall_mem_cons.2 ⟨.inl h3, hg.1⟩
          · exact List.pairwise_cons.2 ⟨fun y hy => ⟨fun h => hg.2.2.1 rfl y hy h.2, fun h => h7 h.1⟩, hg.2.1⟩
          · simp
          · exact fun h => List.forall_mem_cons.2 ⟨h7, hg.2.2.2 h⟩
          · simp [i3, h3]
          · simp [i7, h7]
    · by_cases h7 : is7 x
      · obtain ⟨b, hb⟩ := Option.isSome_iff_exists.1 h7
        have h3' : functPayload (ascii "funct3(") 3 x = none := by simpa [is3] using h3
        cases f7 with
        | some v =>
          refine .inl ⟨fun g => g.2.2.2 rfl x (List.mem_cons_self ..) h7, ?_⟩
          simp only [parseFuncts, h3', hb]
        | none =>
          have heq : parseFuncts (x :: xs) f3 none = parseFuncts xs f3 (some (BitVec.ofNat 7 b)) := by
            simp only [parseFuncts, h3', hb]
          rw [heq]
          obtain ⟨hg, e⟩ | ⟨hg, g3, g7, e, i3, i7⟩ := ih f3 (some (BitVec.ofNat 7 b))
          · refine .inl ⟨fun g => hg ⟨?_, ?_, ?_, ?_⟩, e⟩
            · exact fun y hy => g.1 y (List.mem_cons_of_mem _ hy)
            · exact (List.pairwise_cons.1 g.2.1).2
            · exact fun h y hy => g.2.2.1 h y (List.mem_cons_of_mem _ hy)
            · exact fun _ y hy h => ((List.pairwise_cons.1 g.2.1).1 y hy).2 ⟨h7, h⟩
          · refine .inr ⟨⟨?_, ?_, ?_, ?_⟩, g3, g7, e, ?_, ?_⟩
            · exact List.forall_mem_cons.2 ⟨.inr h7, hg.1⟩
            · exact List.pairwise_cons.2 ⟨fun y hy => ⟨fun h => h3 h.1, fun h => hg.2.2.2 rfl y hy h.2⟩, hg.2.1⟩
            · exact fun h => List.forall_mem_cons.2 ⟨h3, hg.2.2.1 h⟩
            · simp
            · simp [i3, h3]
            · simp [i7, h7]
      · refine .inl ⟨fun g => ?_, ?_⟩
        · rcases g.1 x (List.mem_cons_self ..) with h | h
          · exact h3 h
          · exact h7 h
        · have h3' : functPayload (ascii "funct3(") 3 x = none := by simpa [is3] using h3
          have h7' : functPayload (ascii "funct7(") 7 x = none := by simpa [is7] using h7
          simp only [parseFuncts, h3', h7']

/-! ### The letter and the whole line -/

theorem formatOfLetter_cases (t : Text) :
    (formatOfLetter t = none ∧ t ≠ ascii "R" ∧ t ≠ ascii "I" ∧ t ≠ ascii "S" ∧ t ≠ ascii "B" ∧ t ≠ ascii "U" ∧
        t ≠ ascii "J") ∨
      (t = ascii "R" ∧ formatOfLetter t = some .R) ∨ (t = ascii "I" ∧ formatOfLetter t = some .I) ∨
      (t = ascii "S" ∧ formatOfLetter t = some .S) ∨ (t = ascii "B" ∧ formatOfLetter t = some .B) ∨
      (t = ascii "U" ∧ formatOfLetter t = some .U) ∨ (t = ascii "J" ∧ formatOfLetter t = some .J) := by
  rw [formatOfLetter]
  split_ifs <;> simp_all

/-- Every template the parser returns is well-formed (R80). -/
theorem parseTemplate_wellFormed {line : Text} {t : Template} (h : parseTemplate line = .ok t) :
    t.wellFormed = true := by
  rw [parseTemplate] at h
  split at h
  · split at h
    · cases h
    · split at h
      · cases h
      · split at h
        · cases h
        · dsimp only at h
          split at h
          · rename_i hw; cases h; exact hw
          · cases h
  · cases h

end Sys2Proof.Machine
end

