-- ==== Sys2Proof/Laws/PerInstr.lean ====
section
/-! SUPPORT. What holds of every instruction as syntax, one lemma per constructor: the count of its operands is its
format's (R54), and every word it encodes to has its template's fixed bits (R66, R117). -/

namespace Sys2Proof.Laws

open Sys2Proof.Machine

/-- The operands of the instruction are as many as its format has (R54, R99). -/
def OperandCount.Statement (i : Instr) : Prop := i.tokens.length = (operandKinds i.format).length

/-- A word of the instruction has the fixed bits of the template of its mnemonic, under any loaded templates. -/
def FixedBits.Statement (i : Instr) : Prop :=
  ∀ (reg : List Template) (w : Word), encodeIn reg i = some w →
    ∃ t, lookup reg i.mnemonic = some t ∧ t.format = i.format ∧ templateMatch t = some (w &&& templateMask t.format)

/-- The fixed bits of an encoded word, once for all instructions. -/
theorem fixedBits (i : Instr) : FixedBits.Statement i := by
  intro reg w h
  obtain ⟨t, ht, hf, hl, hw⟩ := encodeIn_eq_some_iff.1 h
  refine ⟨t, ht, hf, ?_⟩
  obtain ⟨-, hp⟩ | ⟨hm, x, hp, hx, -⟩ := packWord_cases hl <;> rw [hp] at hw <;> cases hw
  obtain ⟨hm', -, -⟩ | ⟨-, v, hv, hiff⟩ := match_cases t
  · rw [hm] at hm'; cases hm'
  · rw [hv, (hiff w).1 hx]

namespace OperandCount

theorem anyR (m : Text) (rd rs1 rs2 : Int) : Statement (.anyR m rd rs1 rs2) := rfl
theorem anyI (m : Text) (rd rs1 imm : Int) : Statement (.anyI m rd rs1 imm) := rfl
theorem anyS (m : Text) (rs1 rs2 imm : Int) : Statement (.anyS m rs1 rs2 imm) := rfl
theorem anyB (m : Text) (rs1 rs2 imm : Int) : Statement (.anyB m rs1 rs2 imm) := rfl
theorem anyU (m : Text) (rd imm : Int) : Statement (.anyU m rd imm) := rfl
theorem anyJ (m : Text) (rd imm : Int) : Statement (.anyJ m rd imm) := rfl
theorem lui (rd imm : Int) : Statement (.lui rd imm) := rfl
theorem auipc (rd imm : Int) : Statement (.auipc rd imm) := rfl
theorem jal (rd imm : Int) : Statement (.jal rd imm) := rfl
theorem jalr (rd rs1 imm : Int) : Statement (.jalr rd rs1 imm) := rfl
theorem beq (rs1 rs2 imm : Int) : Statement (.beq rs1 rs2 imm) := rfl
theorem bne (rs1 rs2 imm : Int) : Statement (.bne rs1 rs2 imm) := rfl
theorem blt (rs1 rs2 imm : Int) : Statement (.blt rs1 rs2 imm) := rfl
theorem bge (rs1 rs2 imm : Int) : Statement (.bge rs1 rs2 imm) := rfl
theorem bltu (rs1 rs2 imm : Int) : Statement (.bltu rs1 rs2 imm) := rfl
theorem bgeu (rs1 rs2 imm : Int) : Statement (.bgeu rs1 rs2 imm) := rfl
theorem lb (rd rs1 imm : Int) : Statement (.lb rd rs1 imm) := rfl
theorem lh (rd rs1 imm : Int) : Statement (.lh rd rs1 imm) := rfl
theorem lw (rd rs1 imm : Int) : Statement (.lw rd rs1 imm) := rfl
theorem lbu (rd rs1 imm : Int) : Statement (.lbu rd rs1 imm) := rfl
theorem lhu (rd rs1 imm : Int) : Statement (.lhu rd rs1 imm) := rfl
theorem sb (rs1 rs2 imm : Int) : Statement (.sb rs1 rs2 imm) := rfl
theorem sh (rs1 rs2 imm : Int) : Statement (.sh rs1 rs2 imm) := rfl
theorem sw (rs1 rs2 imm : Int) : Statement (.sw rs1 rs2 imm) := rfl
theorem addi (rd rs1 imm : Int) : Statement (.addi rd rs1 imm) := rfl
theorem slti (rd rs1 imm : Int) : Statement (.slti rd rs1 imm) := rfl
theorem sltiu (rd rs1 imm : Int) : Statement (.sltiu rd rs1 imm) := rfl
theorem xori (rd rs1 imm : Int) : Statement (.xori rd rs1 imm) := rfl
theorem ori (rd rs1 imm : Int) : Statement (.ori rd rs1 imm) := rfl
theorem andi (rd rs1 imm : Int) : Statement (.andi rd rs1 imm) := rfl
theorem slli (rd rs1 rs2 : Int) : Statement (.slli rd rs1 rs2) := rfl
theorem srli (rd rs1 rs2 : Int) : Statement (.srli rd rs1 rs2) := rfl
theorem srai (rd rs1 rs2 : Int) : Statement (.srai rd rs1 rs2) := rfl
theorem add (rd rs1 rs2 : Int) : Statement (.add rd rs1 rs2) := rfl
theorem sub (rd rs1 rs2 : Int) : Statement (.sub rd rs1 rs2) := rfl
theorem sll (rd rs1 rs2 : Int) : Statement (.sll rd rs1 rs2) := rfl
theorem slt (rd rs1 rs2 : Int) : Statement (.slt rd rs1 rs2) := rfl
theorem sltu (rd rs1 rs2 : Int) : Statement (.sltu rd rs1 rs2) := rfl
theorem xor (rd rs1 rs2 : Int) : Statement (.xor rd rs1 rs2) := rfl
theorem srl (rd rs1 rs2 : Int) : Statement (.srl rd rs1 rs2) := rfl
theorem sra (rd rs1 rs2 : Int) : Statement (.sra rd rs1 rs2) := rfl
theorem or (rd rs1 rs2 : Int) : Statement (.or rd rs1 rs2) := rfl
theorem and (rd rs1 rs2 : Int) : Statement (.and rd rs1 rs2) := rfl
theorem fence (rd rs1 imm : Int) : Statement (.fence rd rs1 imm) := rfl

end OperandCount

namespace FixedBits

theorem anyR (m : Text) (rd rs1 rs2 : Int) : Statement (.anyR m rd rs1 rs2) := fixedBits _
theorem anyI (m : Text) (rd rs1 imm : Int) : Statement (.anyI m rd rs1 imm) := fixedBits _
theorem anyS (m : Text) (rs1 rs2 imm : Int) : Statement (.anyS m rs1 rs2 imm) := fixedBits _
theorem anyB (m : Text) (rs1 rs2 imm : Int) : Statement (.anyB m rs1 rs2 imm) := fixedBits _
theorem anyU (m : Text) (rd imm : Int) : Statement (.anyU m rd imm) := fixedBits _
theorem anyJ (m : Text) (rd imm : Int) : Statement (.anyJ m rd imm) := fixedBits _
theorem lui (rd imm : Int) : Statement (.lui rd imm) := fixedBits _
theorem auipc (rd imm : Int) : Statement (.auipc rd imm) := fixedBits _
theorem jal (rd imm : Int) : Statement (.jal rd imm) := fixedBits _
theorem jalr (rd rs1 imm : Int) : Statement (.jalr rd rs1 imm) := fixedBits _
theorem beq (rs1 rs2 imm : Int) : Statement (.beq rs1 rs2 imm) := fixedBits _
theorem bne (rs1 rs2 imm : Int) : Statement (.bne rs1 rs2 imm) := fixedBits _
theorem blt (rs1 rs2 imm : Int) : Statement (.blt rs1 rs2 imm) := fixedBits _
theorem bge (rs1 rs2 imm : Int) : Statement (.bge rs1 rs2 imm) := fixedBits _
theorem bltu (rs1 rs2 imm : Int) : Statement (.bltu rs1 rs2 imm) := fixedBits _
theorem bgeu (rs1 rs2 imm : Int) : Statement (.bgeu rs1 rs2 imm) := fixedBits _
theorem lb (rd rs1 imm : Int) : Statement (.lb rd rs1 imm) := fixedBits _
theorem lh (rd rs1 imm : Int) : Statement (.lh rd rs1 imm) := fixedBits _
theorem lw (rd rs1 imm : Int) : Statement (.lw rd rs1 imm) := fixedBits _
theorem lbu (rd rs1 imm : Int) : Statement (.lbu rd rs1 imm) := fixedBits _
theorem lhu (rd rs1 imm : Int) : Statement (.lhu rd rs1 imm) := fixedBits _
theorem sb (rs1 rs2 imm : Int) : Statement (.sb rs1 rs2 imm) := fixedBits _
theorem sh (rs1 rs2 imm : Int) : Statement (.sh rs1 rs2 imm) := fixedBits _
theorem sw (rs1 rs2 imm : Int) : Statement (.sw rs1 rs2 imm) := fixedBits _
theorem addi (rd rs1 imm : Int) : Statement (.addi rd rs1 imm) := fixedBits _
theorem slti (rd rs1 imm : Int) : Statement (.slti rd rs1 imm) := fixedBits _
theorem sltiu (rd rs1 imm : Int) : Statement (.sltiu rd rs1 imm) := fixedBits _
theorem xori (rd rs1 imm : Int) : Statement (.xori rd rs1 imm) := fixedBits _
theorem ori (rd rs1 imm : Int) : Statement (.ori rd rs1 imm) := fixedBits _
theorem andi (rd rs1 imm : Int) : Statement (.andi rd rs1 imm) := fixedBits _
theorem slli (rd rs1 rs2 : Int) : Statement (.slli rd rs1 rs2) := fixedBits _
theorem srli (rd rs1 rs2 : Int) : Statement (.srli rd rs1 rs2) := fixedBits _
theorem srai (rd rs1 rs2 : Int) : Statement (.srai rd rs1 rs2) := fixedBits _
theorem add (rd rs1 rs2 : Int) : Statement (.add rd rs1 rs2) := fixedBits _
theorem sub (rd rs1 rs2 : Int) : Statement (.sub rd rs1 rs2) := fixedBits _
theorem sll (rd rs1 rs2 : Int) : Statement (.sll rd rs1 rs2) := fixedBits _
theorem slt (rd rs1 rs2 : Int) : Statement (.slt rd rs1 rs2) := fixedBits _
theorem sltu (rd rs1 rs2 : Int) : Statement (.sltu rd rs1 rs2) := fixedBits _
theorem xor (rd rs1 rs2 : Int) : Statement (.xor rd rs1 rs2) := fixedBits _
theorem srl (rd rs1 rs2 : Int) : Statement (.srl rd rs1 rs2) := fixedBits _
theorem sra (rd rs1 rs2 : Int) : Statement (.sra rd rs1 rs2) := fixedBits _
theorem or (rd rs1 rs2 : Int) : Statement (.or rd rs1 rs2) := fixedBits _
theorem and (rd rs1 rs2 : Int) : Statement (.and rd rs1 rs2) := fixedBits _
theorem fence (rd rs1 imm : Int) : Statement (.fence rd rs1 imm) := fixedBits _

end FixedBits

end Sys2Proof.Laws
end

