-- ==== Sys2Proof/Laws/Registry.lean ====
section
/-! SUPPORT. `ADD` and `LOAD`: everything they can do, once, and that both keep the invariant of the Registry. -/

namespace Sys2Proof.Machine

theorem atCapacity_iff (c : Config) (reg : List Template) : atCapacity c reg = true ↔ c.cap = some reg.length := by
  rw [atCapacity]
  cases c.cap with
  | none => simp
  | some n => simp [eq_comm]

/-- Everything an `ADD` comes to (R89, U12). -/
theorem tryAdd_cases (s : State) (t : Template) :
    (s.phase = .frozen ∧ tryAdd s t = .refused .registryFrozen) ∨
      (s.phase = .load ∧ (∃ u ∈ s.reg, u.mnemonic = t.mnemonic) ∧ tryAdd s t = .err .duplicateMnemonic) ∨
      (s.phase = .load ∧ (∀ u ∈ s.reg, u.mnemonic ≠ t.mnemonic) ∧ s.cfg.cap = some s.reg.length ∧
        tryAdd s t = .refused .registryFull) ∨
      (s.phase = .load ∧ (∀ u ∈ s.reg, u.mnemonic ≠ t.mnemonic) ∧ s.cfg.cap ≠ some s.reg.length ∧
        mnemonicFits s.cfg t.mnemonic = false ∧ tryAdd s t = .refused (longMnemonicReason s t)) ∨
      (s.phase = .load ∧ (∀ u ∈ s.reg, u.mnemonic ≠ t.mnemonic) ∧ s.cfg.cap ≠ some s.reg.length ∧
        mnemonicFits s.cfg t.mnemonic = true ∧ tryAdd s t = .ok { s with reg := s.reg ++ [t] }) := by
  have hphase : s.phase ≠ .frozen → s.phase = .load := fun h => by cases hp : s.phase <;> simp_all
  rw [tryAdd]
  by_cases hp : s.phase = .frozen
  · exact .inl ⟨hp, if_pos hp⟩
  rw [if_neg hp]
  replace hp := hphase hp
  refine .inr ?_
  cases hd : (lookup s.reg t.mnemonic).isSome with
  | true => exact .inl ⟨hp, (lookup_isSome_iff _ _).1 hd, rfl⟩
  | false =>
    have hnew : ∀ u ∈ s.reg, u.mnemonic ≠ t.mnemonic :=
      (lookup_eq_none_iff _ _).1 (by simpa using hd)
    refine .inr ?_
    cases hc : atCapacity s.cfg s.reg with
    | true => exact .inl ⟨hp, hnew, (atCapacity_iff _ _).1 hc, rfl⟩
    | false =>
      have hroom : s.cfg.cap ≠ some s.reg.length := fun h => by simp [(atCapacity_iff _ _).2 h] at hc
      refine .inr ?_
      cases hf : mnemonicFits s.cfg t.mnemonic with
      | false => exact .inl ⟨hp, hnew, hroom, rfl, rfl⟩
      | true => exact .inr ⟨hp, hnew, hroom, rfl, rfl⟩

/-- The reason a long mnemonic is refused with is one of the two of R163. -/
theorem longMnemonicReason_cases (s : State) (t : Template) :
    longMnemonicReason s t = .registryFrozen ∨ longMnemonicReason s t = .registryFull := by
  rw [longMnemonicReason]
  split
  · exact .inr rfl
  · exact .inl rfl

/-- Everything an accepted `ADD` does. -/
theorem tryAdd_ok {s s' : State} {t : Template} (h : tryAdd s t = .ok s') :
    s.phase = .load ∧ (∀ u ∈ s.reg, u.mnemonic ≠ t.mnemonic) ∧ s.cfg.cap ≠ some s.reg.length ∧
      mnemonicFits s.cfg t.mnemonic = true ∧ s' = { s with reg := s.reg ++ [t] } := by
  obtain ⟨-, e⟩ | ⟨-, -, e⟩ | ⟨-, -, -, e⟩ | ⟨-, -, -, -, e⟩ | ⟨hp, hn, hc, hf, e⟩ := tryAdd_cases s t <;>
    rw [e] at h <;> cases h
  exact ⟨hp, hn, hc, hf, rfl⟩

/-- The one error of an `ADD` (R163). -/
theorem tryAdd_err {s : State} {t : Template} {e : CodecError} (h : tryAdd s t = .err e) :
    e = .duplicateMnemonic ∧ ∃ u ∈ s.reg, u.mnemonic = t.mnemonic := by
  obtain ⟨-, x⟩ | ⟨-, hd, x⟩ | ⟨-, -, -, x⟩ | ⟨-, -, -, -, x⟩ | ⟨-, -, -, -, x⟩ := tryAdd_cases s t <;>
    rw [x] at h <;> cases h
  exact ⟨rfl, hd⟩

/-- An accepted `ADD` keeps the invariant (R93). -/
theorem State.Inv.tryAdd {s s' : State} {t : Template} (hi : s.Inv) (h : tryAdd s t = .ok s') : s'.Inv := by
  obtain ⟨-, hn, hc, hf, rfl⟩ := tryAdd_ok h
  refine ⟨?_, ?_, ?_⟩
  · show distinctMnemonics (s.reg ++ [t])
    rw [distinctMnemonics, List.map_append, List.nodup_append]
    refine ⟨hi.distinct, by simp, ?_⟩
    simp only [List.map_cons, List.map_nil, List.mem_singleton, List.mem_map]
    rintro _ ⟨u, hu, rfl⟩ _ rfl
    exact hn u hu
  · intro n hn'
    have := hi.capacity n hn'
    have hne : s.reg.length ≠ n := fun h => hc (h ▸ hn')
    simp only [List.length_append, List.length_cons, List.length_nil]
    omega
  · intro u hu
    rcases List.mem_append.1 hu with hu | hu
    · exact hi.fit u hu
    · obtain rfl := List.mem_singleton.1 hu; exact hf

/-- The invariant is about `REG` and the parameters alone. -/
theorem State.Inv.congr {s t : State} (hi : s.Inv) (hr : t.reg = s.reg) (hc : t.cfg = s.cfg) : t.Inv :=
  ⟨hr ▸ hi.distinct, hr ▸ hc ▸ hi.capacity, hr ▸ hc ▸ hi.fit⟩

/-- Everything one line of a load comes to: its parse error, or the `ADD` of its template. -/
theorem loadLine_cases (line : Text) (s : State) :
    (∃ r, parseTemplate line = .error r ∧ loadLine line s = .err (.catalogParse r)) ∨
      ∃ t, parseTemplate line = .ok t ∧ loadLine line s = tryAdd s t := by
  rw [loadLine]
  cases parseTemplate line with
  | error r => exact .inl ⟨r, rfl, rfl⟩
  | ok t => exact .inr ⟨t, rfl, rfl⟩

/-- An accepted line is an accepted `ADD` of its template. -/
theorem loadLine_ok {line : Text} {s s' : State} (h : loadLine line s = .ok s') :
    ∃ t, parseTemplate line = .ok t ∧ tryAdd s t = .ok s' := by
  obtain ⟨r, -, e⟩ | ⟨t, ht, e⟩ := loadLine_cases line s
  · rw [e] at h; cases h
  · exact ⟨t, ht, e ▸ h⟩

/-- What every accepted line keeps, a load keeps: its next state is one reached by accepted lines, answered. -/
theorem loadFrom_induction {P : State → Prop} (hadd : ∀ s s' t, tryAdd s t = .ok s' → P s → P s') (mode : LoadMode) :
    ∀ (lines : List Text) (k : Nat) (ws : List (Nat × CodecError)) (s t : State), P s →
      loadFrom mode k lines ws s = .next t → ∃ s' r, P s' ∧ t = s'.answer r := by
  intro lines
  induction lines with
  | nil =>
    intro k ws s t hs h
    exact ⟨s, _, hs, respond_eq_next h⟩
  | cons line rest ih =>
    intro k ws s t hs h
    rw [loadFrom] at h
    split at h
    · exact ih _ _ _ _ hs h
    · split at h
      · rename_i s' hl
        obtain ⟨u, -, ha⟩ := loadLine_ok hl
        exact ih _ _ _ _ (hadd _ _ _ ha hs) h
      · cases mode with
        | strict => cases h; exact ⟨s, _, hs, rfl⟩
        | lenient => exact ih _ _ _ _ hs h
      · exact ⟨s, _, hs, respond_eq_next h⟩

/-- A load has a next state, whatever its lines (R10). -/
theorem loadFrom_next (mode : LoadMode) :
    ∀ (lines : List Text) (k : Nat) (ws : List (Nat × CodecError)) (s : State),
      ∃ t, loadFrom mode k lines ws s = .next t := by
  intro lines
  induction lines with
  | nil => intro k ws s; exact ⟨_, rfl⟩
  | cons l ls ih =>
    intro k ws s
    rw [loadFrom]
    split
    · exact ih _ _ _
    · split
      · exact ih _ _ _
      · cases mode with
        | strict => exact ⟨_, rfl⟩
        | lenient => exact ih _ _ _
      · exact ⟨_, rfl⟩

/-- What a load can do to the state: append to `REG`, and answer. -/
theorem opLoad_next {lines : List Text} {mode : LoadMode} {s t : State} (h : opLoad lines mode s = .next t) :
    ∃ added r, t = ({ s with reg := s.reg ++ added } : State).answer r ∧ (s.phase = .frozen → added = []) ∧
      (s.Inv → t.Inv) := by
  rw [opLoad] at h
  split at h
  · obtain rfl := respond_eq_next h
    exact ⟨[], _, by rw [List.append_nil], fun _ => rfl, fun hi => hi.congr rfl rfl⟩
  · rename_i hp
    obtain ⟨s', r, ⟨added, rfl, hi⟩, rfl⟩ := loadFrom_induction
      (P := fun s' => ∃ added, s' = { s with reg := s.reg ++ added } ∧ (s.Inv → s'.Inv))
      (fun s₁ s₂ u ha ⟨added, h₁, hi⟩ => by
        have := tryAdd_ok ha
        refine ⟨added ++ [u], ?_, fun h => (hi h).tryAdd ha⟩
        rw [this.2.2.2.2, h₁, List.append_assoc])
      mode lines.tail 1 [] s t ⟨[], by rw [List.append_nil], id⟩ h
    exact ⟨added, r, rfl, fun h => absurd h hp, fun h => (hi h).congr rfl rfl⟩

end Sys2Proof.Machine
end

