-- ==== Sys2Proof/Laws/Step.lean ====
section
/-! SUPPORT. Everything an operation and a step can do, once, and the instruction a step runs. -/

namespace Sys2Proof.Machine

/-- Everything an operation can do: answer and nothing else, append to `REG` in the `LOAD` phase (`ADD`, `LOAD`), or
set the phase (`FREEZE`). -/
theorem serve_cases {o : Operation} {s t : State} (h : serve o s = .next t) :
    (∃ r, t = s.answer r) ∨
      (∃ u, o = .add u ∧ tryAdd s u = .ok { s with reg := s.reg ++ [u] } ∧
        t = ({ s with reg := s.reg ++ [u] } : State).answer (.done (.ok .unit))) ∨
      (∃ lines mode added r, o = .load lines mode ∧ t = ({ s with reg := s.reg ++ added } : State).answer r ∧
        (s.phase = .frozen → added = []) ∧ (s.Inv → t.Inv)) ∨
      (o = .freeze ∧ t = ({ s with phase := .frozen } : State).answer (.done (.ok .unit))) := by
  cases o with
  | load lines mode =>
    obtain ⟨added, r, h⟩ := opLoad_next h
    exact .inr (.inr (.inl ⟨lines, mode, added, r, rfl, h⟩))
  | freeze => exact .inr (.inr (.inr ⟨rfl, respond_eq_next h⟩))
  | add u =>
    rw [serve, opAdd] at h
    split at h
    · rename_i s' ha
      obtain ⟨-, -, -, -, rfl⟩ := tryAdd_ok ha
      exact .inr (.inl ⟨u, rfl, ha, respond_eq_next h⟩)
    · exact .inl ⟨_, respond_eq_next h⟩
    · exact .inl ⟨_, respond_eq_next h⟩
  | parseLine line =>
    rw [serve, opParseLine] at h
    cases hp : parseTemplate line <;> rw [hp] at h <;> exact .inl ⟨_, respond_eq_next h⟩
  | lookup m => exact .inl ⟨_, respond_eq_next h⟩
  | list => exact .inl ⟨_, respond_eq_next h⟩
  | bind m tokens => exact .inl ⟨_, respond_eq_next h⟩
  | encode bi => exact .inl ⟨_, respond_eq_next h⟩
  | assemble m tokens => exact .inl ⟨_, respond_eq_next h⟩
  | bitstring w => exact .inl ⟨_, respond_eq_next h⟩
  | hex w => exact .inl ⟨_, respond_eq_next h⟩
  | decodeT w u => exact .inl ⟨_, respond_eq_next h⟩
  | decodeS w => exact .inl ⟨_, respond_eq_next h⟩

/-- An instruction answers and does nothing else. -/
theorem exec_next {i : Instr} {s t : State} (h : exec i s = .next t) : ∃ r, t = s.answer r := by
  rw [exec_eq_runSymbolic] at h
  exact ⟨_, respond_eq_next h⟩

theorem runWord_next {w : Word} {s t : State} (h : runWord w s = .next t) : ∃ r, t = s.answer r := by
  rw [runWord] at h
  cases hd : decodeIn s.reg w <;> rw [hd] at h <;> simp only at h
  · exact exec_next h
  · exact ⟨_, respond_eq_next h⟩
  · exact ⟨_, respond_eq_next h⟩

/-- Everything a step can do. -/
theorem step_cases {s t : State} (h : step s = .next t) :
    (s.requests = [] ∧ t = s) ∨
      ∃ q rest, s.requests = q :: rest ∧
        ((∃ o, q = .op o ∧ serve o (s.withRequests rest) = .next t) ∨
          (∃ w r, q = .instr w ∧ t = (s.withRequests rest).answer r) ∨
          (q = .reset ∧ t = (s.withRequests rest).clear)) := by
  rw [step] at h
  cases hq : s.requests with
  | nil => rw [hq] at h; cases h; exact .inl ⟨rfl, rfl⟩
  | cons q rest =>
    rw [hq] at h
    refine .inr ⟨q, rest, rfl, ?_⟩
    cases q with
    | op o => exact .inl ⟨o, rfl, h⟩
    | instr w =>
      obtain ⟨r, ht⟩ := runWord_next h
      exact .inr (.inl ⟨w, r, rfl, ht⟩)
    | reset => cases h; exact .inr (.inr ⟨rfl, rfl⟩)

/-- A step whose request is a word that decodes to `i` is `exec i`. -/
theorem step_instr {s : State} {w : Word} {rest : List Request} {i : Instr} (hq : s.requests = .instr w :: rest)
    (hi : decodeIn s.reg w = .ok i) : step s = exec i (s.withRequests rest) := by
  rw [step, hq]
  show runWord w (s.withRequests rest) = _
  rw [runWord, State.withRequests_reg, hi]

/-- An operation keeps the invariant (R93). -/
theorem State.Inv.serve {o : Operation} {s t : State} (hi : s.Inv) (h : serve o s = .next t) : t.Inv := by
  obtain ⟨r, rfl⟩ | ⟨u, -, ha, rfl⟩ | ⟨_, _, added, r, -, rfl, -, hk⟩ | ⟨-, rfl⟩ := serve_cases h
  · exact hi.congr rfl rfl
  · exact (hi.tryAdd ha).congr rfl rfl
  · exact hk hi
  · exact hi.congr rfl rfl

end Sys2Proof.Machine
end

