-- ==== Sys2Proof/Laws/Ports.lean ====
section
/-! SUPPORT. The port views show the transaction level and nothing else (spec/10_state.md R31, decision D1). -/

namespace Sys2Proof.Machine

theorem Result.toOption_eq_some_iff {α : Type} {r : Result α} {a : α} : r.toOption = some a ↔ r = .ok a := by
  cases r <;> simp [Result.toOption]

/-- A value stands on an output only beside status `Ok`. -/
theorem Result.status_of_toOption {α : Type} {r : Result α} {a : α} (h : r.toOption = some a) : r.status = 0 := by
  rw [Result.toOption_eq_some_iff.1 h]; rfl

/-- With a template on it, the write port is `ADD`. -/
theorem writePort_of_template {p : WritePort} {t : Template} (s : State) (h : p.template = some t) :
    writePort p s = serve (.add t) s := by
  simp only [writePort, h]; rfl

/-- Without one, it does nothing. -/
theorem writePort_idle {p : WritePort} (s : State) (h : p.template = none) : writePort p s = .next s := by
  simp only [writePort, h]

/-- The write port keeps the invariant (R93). -/
theorem State.Inv.writePort {p : WritePort} {s s' : State} (hi : s.Inv)
    (h : Sys2Proof.Machine.writePort p s = .next s') : s'.Inv := by
  cases ht : p.template with
  | none => rw [writePort_idle s ht] at h; cases h; exact hi
  | some t => rw [writePort_of_template s ht] at h; exact hi.serve h

/-- `add_status` is the status of what the write port's `ADD` returned. -/
theorem addStatus_of_next {p : WritePort} {t : Template} {s s' : State} (ht : p.template = some t)
    (h : serve (.add t) s = .next s') : addStatus p s = s'.response.map Response.status := by
  replace h : opAdd t s = .next s' := h
  simp only [addStatus, ht, Option.bind_some, h]

/-- `dec_index` names the entry that search mode decodes by. -/
theorem searchIndex_eq_ok {reg : List Template} {w : Word} {k : Nat} (h : searchIndex reg w = .ok k) :
    ∃ t, reg[k]? = some t ∧ searchTemplate reg w = .ok t := by
  obtain ⟨-, e⟩ | ⟨t, hc, e⟩ | ⟨_, _, _, -, e⟩ := searchTemplate_cases reg w <;> rw [searchIndex, e] at h <;> cases h
  refine ⟨t, ?_, e⟩
  have hmem : t ∈ reg := (List.mem_filter.1 (show t ∈ candidates reg w by rw [hc]; exact List.mem_singleton_self t)).1
  exact List.getElem?_idxOf hmem

end Sys2Proof.Machine
end

