-- ==== Sys2Proof/Tests/Slice0.lean ====
section
/-! SUPPORT. Tests of the model, and for every obligation with hypotheses a witness that meets them.

Expected values are those of spec/95_test_vectors.md (the numbers S, L, B, E, D, T, LD and the steps of 2.2 are its own),
of the tables of spec/45_reference_catalog.md, or words written out by hand from the layouts of spec/30_encoding.md. -/

namespace Sys2Proof.Tests

open Sys2Proof.Machine Sys2Proof.Claims

/-- What a step returned to the host; none where it has no next state. -/
def answerOf : Host.Outcome State Fault Refusal → Option Response
  | .next s => s.response
  | .fault _ => none
  | .refused _ => none

/-- The Registry after a step. -/
def regOf : Host.Outcome State Fault Refusal → Option (List Template)
  | .next s => some s.reg
  | .fault _ => none
  | .refused _ => none

/-- A codec whose Registry holds these templates. -/
def holding (ts : List Template) : State := { State.reset with reg := ts }

/-- The response to an operation. -/
def run (o : Operation) (s : State) : Option Response := answerOf (serve o s)

def add : Template := rTemplate "add" 0b0110011 0b000 0b0000000
def sub : Template := rTemplate "sub" 0b0110011 0b000 0b0100000
def addi : Template := funct3Template "addi" 0b0010011 .I 0b000
def sw : Template := funct3Template "sw" 0b0100011 .S 0b010
def beq : Template := funct3Template "beq" 0b1100011 .B 0b000
def lui : Template := plainTemplate "lui" 0b0110111 .U
def jal : Template := plainTemplate "jal" 0b1101111 .J
/-- An I template without its required funct3 (2.2 step 7, E1). -/
def addiBare : Template := plainTemplate "addi" 0b0010011 .I

/-- The Registry of 2.3. -/
def six : State := holding [add, addi, sw, beq, lui, jal]

/-! ### WellFormed: one ill-formed term for each check -/

theorem test_register_above_31_is_ill_formed : Instr.wellFormed (.add 1 2 32) = false := by decide
theorem test_negative_register_is_ill_formed : Instr.wellFormed (.sw (-1) 2 0) = false := by decide
theorem test_imm12_above_range_is_ill_formed : Instr.wellFormed (.addi 1 2 2048) = false := by decide
theorem test_imm12_below_range_is_ill_formed : Instr.wellFormed (.sw 1 2 (-2049)) = false := by decide
theorem test_imm20_above_range_is_ill_formed : Instr.wellFormed (.lui 1 524288) = false := by decide
theorem test_odd_branch_immediate_is_ill_formed : Instr.wellFormed (.beq 1 2 4093) = false := by decide
theorem test_branch_immediate_above_range_is_ill_formed : Instr.wellFormed (.beq 1 2 4096) = false := by decide
theorem test_odd_jump_immediate_is_ill_formed : Instr.wellFormed (.jal 1 3) = false := by decide
theorem test_second_spelling_is_ill_formed : Instr.wellFormed (.anyR (ascii "add") 1 2 3) = false := by decide
theorem test_boundaries_are_well_formed :
    ([.add 31 31 31, .addi 0 0 2047, .sw 31 0 (-2048), .beq 1 2 4094, .beq 1 2 (-4096), .lui 1 (-524288),
      .jal 1 1048574, .anyR (ascii "zz") 0 0 0, .anyI (ascii "add") 1 2 3] : List Instr).all Instr.wellFormed = true := by
  decide
theorem test_R_template_needs_both_functs :
    ({ sub with funct7 := none } : Template).wellFormed = false ∧
      ({ sub with funct3 := none } : Template).wellFormed = false ∧ sub.wellFormed = true := by decide
theorem test_I_template_needs_funct3 : addiBare.wellFormed = false ∧ addi.wellFormed = true := by decide
theorem test_zero_capacity_is_ill_formed :
    ({ Config.default with cap := some 0 } : Config).wellFormed = false := by decide

/-! ### Decoding: every row's word -/

/-- Every R row: its word, written out field by field from its `encoding` in spec/opcode_table.json (R47, R147). -/
theorem test_decode_R_rows :
    [0b0000000_00011_00010_001_00001_0010011,
     0b0000000_01101_01011_101_10101_0010011,
     0b0100000_00011_00010_101_00001_0010011,
     0b0000000_01101_01011_000_10101_0110011,
     0b0100000_00011_00010_000_00001_0110011,
     0b0000000_01101_01011_001_10101_0110011,
     0b0000000_00011_00010_010_00001_0110011,
     0b0000000_01101_01011_011_10101_0110011,
     0b0000000_00011_00010_100_00001_0110011,
     0b0000000_01101_01011_101_10101_0110011,
     0b0100000_00011_00010_101_00001_0110011,
     0b0000000_01101_01011_110_10101_0110011,
     0b0000000_00011_00010_111_00001_0110011].map (decodeTableWord 32) =
    [some (.slli 1 2 3), some (.srli 21 11 13), some (.srai 1 2 3), some (.add 21 11 13), some (.sub 1 2 3),
     some (.sll 21 11 13), some (.slt 1 2 3), some (.sltu 21 11 13), some (.xor 1 2 3), some (.srl 21 11 13),
     some (.sra 1 2 3), some (.or 21 11 13), some (.and 1 2 3)] := by decide

/-- Every I row: its word, written out field by field from its `encoding` in spec/opcode_table.json (R48, R147). -/
theorem test_decode_I_rows :
    [0b101100101110_00110_000_00101_1100111,
     0b011000111001_10110_000_11010_0000011,
     0b101100101110_00110_001_00101_0000011,
     0b011000111001_10110_010_11010_0000011,
     0b101100101110_00110_100_00101_0000011,
     0b011000111001_10110_101_11010_0000011,
     0b101100101110_00110_000_00101_0010011,
     0b011000111001_10110_010_11010_0010011,
     0b101100101110_00110_011_00101_0010011,
     0b011000111001_10110_100_11010_0010011,
     0b101100101110_00110_110_00101_0010011,
     0b011000111001_10110_111_11010_0010011,
     0b101100101110_00110_000_00101_0001111].map (decodeTableWord 32) =
    [some (.jalr 5 6 (-1234)), some (.lb 26 22 1593), some (.lh 5 6 (-1234)), some (.lw 26 22 1593),
     some (.lbu 5 6 (-1234)), some (.lhu 26 22 1593), some (.addi 5 6 (-1234)), some (.slti 26 22 1593),
     some (.sltiu 5 6 (-1234)), some (.xori 26 22 1593), some (.ori 5 6 (-1234)), some (.andi 26 22 1593),
     some (.fence 5 6 (-1234))] := by decide

/-- Every S row: its word, written out field by field from its `encoding` in spec/opcode_table.json (R49, R147). -/
theorem test_decode_S_rows :
    [0b1011001_01000_00111_000_01110_0100011,
     0b0110001_10110_11010_001_11001_0100011,
     0b1011001_01000_00111_010_01110_0100011].map (decodeTableWord 32) =
    [some (.sb 7 8 (-1234)), some (.sh 26 22 1593), some (.sw 7 8 (-1234))] := by decide

/-- Every B row: its word, written out field by field from its `encoding` in spec/opcode_table.json (R50, R147). -/
theorem test_decode_B_rows :
    [0b1_110010_01100_01001_000_1110_0_1100011,
     0b0_100011_10110_11010_001_1001_1_1100011,
     0b1_110010_01100_01001_100_1110_0_1100011,
     0b0_100011_10110_11010_101_1001_1_1100011,
     0b1_110010_01100_01001_110_1110_0_1100011,
     0b0_100011_10110_11010_111_1001_1_1100011].map (decodeTableWord 32) =
    [some (.beq 9 12 (-2468)), some (.bne 26 22 3186), some (.blt 9 12 (-2468)), some (.bge 26 22 3186),
     some (.bltu 9 12 (-2468)), some (.bgeu 26 22 3186)] := by decide

/-- Every U row: its word, written out field by field from its `encoding` in spec/opcode_table.json (R51, R147). -/
theorem test_decode_U_rows :
    [0b10011110010101111001_01011_0110111,
     0b01001001001111101101_11010_0010111].map (decodeTableWord 32) =
    [some (.lui 11 (-400007)), some (.auipc 26 300013)] := by decide

/-- Every J row: its word, written out field by field from its `encoding` in spec/opcode_table.json (R52, R147). -/
theorem test_decode_J_rows :
    [0b1_0101111001_1_00111100_01100_1101111].map (decodeTableWord 32) =
    [some (.jal 12 (-800014))] := by decide

/-- A word that no row claims (2.7: the words of `ecall` and `ebreak`, and funct7 0000001). -/
theorem test_unknown_words_do_not_decode :
    [0x00000073, 0x00100073, 0xFFFFFFFF, 0x02000033, 0].map (decodeTableWord 32) = [none, none, none, none, none] := by
  decide

/-- The format rows: templates of any opcode and funct values (2.4, `zz`), and an I template under a name that is an R
row's. -/
theorem test_format_rows_decode :
    decodeIn [rTemplate "zz" 0b1111111 0b111 0b1111111] 0xFFFFFFFF = .ok (.anyR (ascii "zz") 31 31 31) ∧
      decodeIn [funct3Template "add" 0b0010011 .I 0b000] 0xFFF10093 = .ok (.anyI (ascii "add") 1 2 (-1)) ∧
      decodeIn [funct3Template "s" 0b0100011 .S 0b010] 0xFE512FA3 = .ok (.anyS (ascii "s") 2 5 (-1)) ∧
      decodeIn [funct3Template "b" 0b1100011 .B 0b000] 0x80208063 = .ok (.anyB (ascii "b") 1 2 (-4096)) ∧
      decodeIn [plainTemplate "u" 0b0110111 .U] 0x800000B7 = .ok (.anyU (ascii "u") 1 (-524288)) ∧
      decodeIn [plainTemplate "j" 0b1101111 .J] 0x001000EF = .ok (.anyJ (ascii "j") 1 2048) := by decide

/-- 2.4: the words of `sw`, `beq`, `lui` and `jal` that set single immediate bits, both ways. -/
theorem test_scattered_immediates :
    ([.sw 0 0 31, .sw 0 0 32, .sw 0 0 1, .sw 0 0 16, .sw 0 0 1024, .beq 1 2 4094, .beq 1 2 2, .beq 1 2 16, .beq 1 2 32,
      .beq 1 2 1024, .beq 1 2 2048, .beq 1 2 (-2048), .lui 1 1, .lui 31 (-1), .jal 1 2, .jal 1 2046, .jal 1 2048,
      .jal 1 4096, .jal 1 524288, .jal 0 (-12)] : List Instr).map encode =
    [0x00002FA3, 0x02002023, 0x000020A3, 0x00002823, 0x40002023, 0x7E208FE3, 0x00208163, 0x00208863, 0x02208063,
      0x40208063, 0x002080E3, 0x802080E3, 0x000010B7, 0xFFFFFFB7, 0x002000EF, 0x7FE000EF, 0x001000EF,
      0x000010EF, 0x000800EF, 0xFF5FF06F].map some := by decide

/-- The masks and matches of R147, and the lines of R149 parsed: Control. -/
theorem test_catalogControl_is_R147 :
    catalogControl.map (fun t => ((templateMask t.format).toNat, (templateMatch t).map BitVec.toNat)) =
      [(0x0000007F, some 0x00000037), (0x0000007F, some 0x00000017), (0x0000007F, some 0x0000006F),
       (0x0000707F, some 0x00000067), (0x0000707F, some 0x00000063), (0x0000707F, some 0x00001063),
       (0x0000707F, some 0x00004063), (0x0000707F, some 0x00005063), (0x0000707F, some 0x00006063),
       (0x0000707F, some 0x00007063)] := by decide

theorem test_catalogControl_is_R149 :
    ["lui,0110111,U", "auipc,0010111,U", "jal,1101111,J", "jalr,1100111,I,funct3(000)",
     "beq,1100011,B,funct3(000)", "bne,1100011,B,funct3(001)", "blt,1100011,B,funct3(100)",
     "bge,1100011,B,funct3(101)", "bltu,1100011,B,funct3(110)", "bgeu,1100011,B,funct3(111)"].map
      (fun line => (parseTemplate (ascii line)).toOption) = catalogControl.map some := by decide

/-- The masks and matches of R147, and the lines of R149 parsed: LoadsStoresImmediates. -/
theorem test_catalogLoadsStoresImmediates_is_R147 :
    catalogLoadsStoresImmediates.map (fun t => ((templateMask t.format).toNat, (templateMatch t).map BitVec.toNat)) =
      [(0x0000707F, some 0x00000003), (0x0000707F, some 0x00001003), (0x0000707F, some 0x00002003),
       (0x0000707F, some 0x00004003), (0x0000707F, some 0x00005003), (0x0000707F, some 0x00000023),
       (0x0000707F, some 0x00001023), (0x0000707F, some 0x00002023), (0x0000707F, some 0x00000013),
       (0x0000707F, some 0x00002013), (0x0000707F, some 0x00003013), (0x0000707F, some 0x00004013),
       (0x0000707F, some 0x00006013), (0x0000707F, some 0x00007013)] := by decide

theorem test_catalogLoadsStoresImmediates_is_R149 :
    ["lb,0000011,I,funct3(000)", "lh,0000011,I,funct3(001)", "lw,0000011,I,funct3(010)",
     "lbu,0000011,I,funct3(100)", "lhu,0000011,I,funct3(101)", "sb,0100011,S,funct3(000)",
     "sh,0100011,S,funct3(001)", "sw,0100011,S,funct3(010)", "addi,0010011,I,funct3(000)",
     "slti,0010011,I,funct3(010)", "sltiu,0010011,I,funct3(011)", "xori,0010011,I,funct3(100)",
     "ori,0010011,I,funct3(110)", "andi,0010011,I,funct3(111)"].map
      (fun line => (parseTemplate (ascii line)).toOption) = catalogLoadsStoresImmediates.map some := by decide

/-- The masks and matches of R147, and the lines of R149 parsed: RegisterFence. -/
theorem test_catalogRegisterFence_is_R147 :
    catalogRegisterFence.map (fun t => ((templateMask t.format).toNat, (templateMatch t).map BitVec.toNat)) =
      [(0xFE00707F, some 0x00001013), (0xFE00707F, some 0x00005013), (0xFE00707F, some 0x40005013),
       (0xFE00707F, some 0x00000033), (0xFE00707F, some 0x40000033), (0xFE00707F, some 0x00001033),
       (0xFE00707F, some 0x00002033), (0xFE00707F, some 0x00003033), (0xFE00707F, some 0x00004033),
       (0xFE00707F, some 0x00005033), (0xFE00707F, some 0x40005033), (0xFE00707F, some 0x00006033),
       (0xFE00707F, some 0x00007033), (0x0000707F, some 0x0000000F)] := by decide

theorem test_catalogRegisterFence_is_R149 :
    ["slli,0010011,R,funct3(001),funct7(0000000)", "srli,0010011,R,funct3(101),funct7(0000000)",
     "srai,0010011,R,funct3(101),funct7(0100000)", "add,0110011,R,funct3(000),funct7(0000000)",
     "sub,0110011,R,funct3(000),funct7(0100000)", "sll,0110011,R,funct3(001),funct7(0000000)",
     "slt,0110011,R,funct3(010),funct7(0000000)", "sltu,0110011,R,funct3(011),funct7(0000000)",
     "xor,0110011,R,funct3(100),funct7(0000000)", "srl,0110011,R,funct3(101),funct7(0000000)",
     "sra,0110011,R,funct3(101),funct7(0100000)", "or,0110011,R,funct3(110),funct7(0000000)",
     "and,0110011,R,funct3(111),funct7(0000000)", "fence,0001111,I,funct3(000)"].map
      (fun line => (parseTemplate (ascii line)).toOption) = catalogRegisterFence.map some := by decide

/-! ### A step runs the instruction: one word of every format, from reset -/

/-- 2.7: each word, placed as the next request after reset, is coded back to itself. -/
theorem test_reset_runs_a_word_of_every_format :
    ([0x01688E33, 0x748F0113, 0xB85A22A3, 0xF3BB89E3, 0xD5790637, 0x910BFB6F].map fun w =>
      answerOf (step (State.reset.withFetchWord 32 w))) =
    [some (.done (.ok (.coded 0x01688E33 (ascii "add") [⟨.rd, 28⟩, ⟨.rs1, 17⟩, ⟨.rs2, 22⟩]))),
     some (.done (.ok (.coded 0x748F0113 (ascii "addi") [⟨.rd, 2⟩, ⟨.rs1, 30⟩, ⟨.imm .w12 false, 1864⟩]))),
     some (.done (.ok (.coded 0xB85A22A3 (ascii "sw") [⟨.rs1, 20⟩, ⟨.rs2, 5⟩, ⟨.imm .w12 false, -1147⟩]))),
     some (.done (.ok (.coded 0xF3BB89E3 (ascii "beq") [⟨.rs1, 23⟩, ⟨.rs2, 27⟩, ⟨.imm .w12 true, -206⟩]))),
     some (.done (.ok (.coded 0xD5790637 (ascii "lui") [⟨.rd, 12⟩, ⟨.imm .w20 false, -174192⟩]))),
     some (.done (.ok (.coded 0x910BFB6F (ascii "jal") [⟨.rd, 22⟩, ⟨.imm .w20 true, -265968⟩])))] := by decide

/-- A word that no reference template claims is an unknown encoding, and the machine goes on. -/
theorem test_reset_answers_an_unknown_word :
    answerOf (step (State.reset.withFetchWord 32 0x00000073)) = some (.done (.err .unknownEncoding)) := by decide

/-- An instruction whose mnemonic is not loaded, whose operand is out of range, whose template lacks its funct3. -/
theorem test_rows_report_errors :
    answerOf (exec (.add 1 2 3) State.reset) = some (.done (.err .unknownMnemonic)) ∧
      answerOf (exec (.add 1 2 32) six) = some (.done (.err .operandRange)) ∧
      answerOf (exec (.beq 1 2 4093) six) = some (.done (.err .alignment)) ∧
      answerOf (exec (.addi 1 2 3) (holding [addiBare])) = some (.done (.err .missingFunct)) ∧
      answerOf (exec (.anyU (ascii "add") 1 2) six) = some (.done (.err .arityMismatch)) := by decide

/-- Reset clears `REG` and `PHASE`; with nothing issued the state stays. -/
theorem test_reset_and_idle :
    regOf (step { six with phase := .frozen, requests := [.reset] }) = some [] ∧ regOf (step six) = some six.reg := by
  decide

/-! ### The Catalog Parser (2.1) -/

def parsed (line : String) : Except ParseReason Template := parseTemplate (ascii line)

/-- L2, L3, L9, L11, L12, L51: white space, funct order, a surplus funct, odd mnemonics. -/
theorem test_lines_that_parse :
    (["add, 0110011, R, funct3(000), funct7(0000000)", "add,0110011,R,funct7(0000000),funct3(000)",
      "lui,0110111,U,funct3(101)", ",0110011,R,funct3(000),funct7(0000000)", "my op,0001011,U",
      "# lui,0110111,U"].map fun l => (parsed l).toOption) =
    [some add, some add, some { lui with funct3 := some 0b101 }, some { add with mnemonic := [] },
     some (plainTemplate "my op" 0b0001011 .U), some (plainTemplate "# lui" 0b0110111 .U)] := by decide

def reasonOf (line : String) : Option ParseReason :=
  match parsed line with
  | .ok _ => none
  | .error r => some r

/-- L16 to L29: the first three checks, in their order. -/
theorem test_lines_that_fail_early :
    ["", "add", "add,0110011", "add,0110011,", "add,,R", "add,110011,R,funct3(000),funct7(0000000)",
      "add,011001x,R,funct3(000),funct7(0000000)", "add,0110 011,R", "add,0110011,r", "add,0110011,RI",
      "add,011,Q"].map reasonOf =
    [some .tooFewFields, some .tooFewFields, some .tooFewFields, some .unknownFormat, some .badOpcodeLength,
      some .badOpcodeLength, some .badOpcodeLength, some .badOpcodeLength, some .unknownFormat, some .unknownFormat,
      some .badOpcodeLength] := by decide

/-- L30 to L49: the funct fields. -/
theorem test_lines_with_bad_functs :
    ["addi,0010011,I,funct3(00)", "addi,0010011,I,funct3(012)", "addi,0010011,I,funct3( 000 )",
      "addi,0010011,I,funct3(000", "addi,0010011,I,FUNCT3(000)", "addi,0010011,I,000",
      "add,0110011,R,funct3(000),funct7(0000000),", "add,0110011,R,funct3(000),funct3(001)", "addi,0010011,I",
      "add,0110011,R,funct3(000)", "add,0110011,R,funct7(0000000)", "beq,1100011,B,funct7(0000000)",
      "add,0110011,X,funct3(00)"].map reasonOf =
    [some .malformedFunct, some .malformedFunct, some .malformedFunct, some .malformedFunct, some .malformedFunct,
      some .malformedFunct, some .malformedFunct, some .malformedFunct, some .missingRequiredFunct,
      some .missingRequiredFunct, some .missingRequiredFunct, some .missingRequiredFunct, some .unknownFormat] := by
  decide

/-! ### The Registry (2.2) and loading (2.9) -/

def capThree : State := { holding [add, sub, addiBare] with cfg := { Config.default with cap := some 3 } }

/-- Steps 3, 5, 7, 8, 9, 13 and 14. -/
theorem test_add :
    regOf (serve (.add add) State.reset) = some [add] ∧
      run (.add { lui with mnemonic := ascii "add" }) (holding [add]) = some (.done (.err .duplicateMnemonic)) ∧
      run (.add addiBare) (holding [add]) = some (.done (.ok .unit)) ∧
      run (.add lui) capThree = some (.done (.refused .registryFull)) ∧
      run (.add sub) capThree = some (.done (.err .duplicateMnemonic)) ∧
      run (.add lui) { capThree with phase := .frozen } = some (.done (.refused .registryFrozen)) ∧
      run (.add add) { capThree with phase := .frozen } = some (.done (.refused .registryFrozen)) := by decide

/-- A codec with room for two templates and for mnemonics of three bytes. -/
def boundThree : State := { State.reset with cfg := { Config.default with cap := some 2, mnemMax := some 3 } }

/-- Under `MNEM_MAX` = 3, `ADD` takes `add`, and refuses `addi` (U12) and adds nothing; with `CAP` reached it is refused as
full (R89). -/
theorem test_add_under_a_mnemonic_bound :
    regOf (serve (.add add) boundThree) = some [add] ∧
      (∃ r, run (.add addi) boundThree = some (.done (.refused r))) ∧
      regOf (serve (.add addi) boundThree) = some [] ∧
      run (.add addi) { boundThree with reg := [add, sub] } = some (.done (.refused .registryFull)) :=
  ⟨by decide, ⟨_, rfl⟩, by decide, by decide⟩

/-- Steps 2, 6, 11, 12 and 17. -/
theorem test_lookup_list_freeze :
    run (.lookup (ascii "add")) State.reset = some (.done (.ok (.found none))) ∧
      run (.lookup (ascii "add")) six = some (.done (.ok (.found (some add)))) ∧
      run (.lookup (ascii "ADD")) six = some (.done (.ok (.found none))) ∧
      run .list (holding [add, sub]) = some (.done (.ok (.templates [add, sub]))) ∧
      run .freeze six = some (.done (.ok .unit)) := by decide

def lineAdd : Text := ascii "add,0110011,R,funct3(000),funct7(0000000)"
def lineSub : Text := ascii "sub,0110011,R,funct3(000),funct7(0100000)"
def lineAddi : Text := ascii "addi,0010011,I,funct3(000)"
def lineBad : Text := ascii "addi,0010011,I"

/-- LD3, LD7, LD8, LD9, LD10 and LD11. -/
theorem test_load :
    regOf (serve (.load [lineAdd] .strict) State.reset) = some [] ∧
      regOf (serve (.load [ascii "hdr", [], lineAdd, ascii "   ", lineSub, [0x09]] .strict) State.reset) =
        some [add, sub] ∧
      run (.load [ascii "hdr", lineAdd, lineBad, lineSub] .strict) State.reset =
        some (.stoppedAt 2 (.catalogParse .missingRequiredFunct)) ∧
      regOf (serve (.load [ascii "hdr", lineAdd, lineBad, lineSub] .strict) State.reset) = some [add] ∧
      run (.load [ascii "hdr", lineAdd, lineBad, lineSub] .lenient) State.reset =
        some (.done (.ok (.warnings [(2, .catalogParse .missingRequiredFunct)]))) ∧
      run (.load [ascii "hdr", lineAdd, lineAdd, lineSub] .strict) State.reset =
        some (.stoppedAt 2 .duplicateMnemonic) ∧
      regOf (serve (.load [ascii "hdr", lineAdd, lineAdd, lineSub] .lenient) State.reset) = some [add, sub] := by decide

/-- 2.9, closing note: with `CAP` = 1 the second line of a load is refused, and the first stays. -/
theorem test_load_when_full :
    run (.load [ascii "hdr", lineAdd, lineSub] .lenient) { State.reset with cfg := { Config.default with cap := some 1 } } =
        some (.done (.refused .registryFull)) ∧
      regOf (serve (.load [ascii "hdr", lineAdd, lineSub] .strict)
        { State.reset with cfg := { Config.default with cap := some 1 } }) = some [add] := by decide

/-! ### The binder (2.3), the encoder (2.5, 2.8) and the decoder (2.6) -/

/-- B1, B4, B6, B8, B15, B16, B19, B22, B28, B31 to B33, B36, B38, B43, B45, B48, B51, B54, B57. -/
theorem test_bind_errors :
    ([("sub", [1, 2, 3]), ("sub", [99]), ("add", [1, 2]), ("add", [99, 2]), ("add", [1, 2, 32]), ("add", [-1, 2, 3]),
      ("addi", [1, 2, 2048]), ("addi", [1, 2, 4095]), ("sw", [2, 5, -2049]), ("beq", [1, 2, 4095]),
      ("beq", [1, 2, 4096]), ("beq", [1, 2, 4097]), ("beq", [1, 2, -4097]), ("beq", [1, 2, -4095]),
      ("beq", [1, 40, 3]), ("lui", [1, 524288]), ("lui", [1, 1048575]), ("jal", [1, 1048575]), ("jal", [1, -1048577]),
      ("jal", [32, 3])] : List (String × List Int)).map (fun r => run (.bind (ascii r.1) r.2) six) =
    [.unknownMnemonic, .unknownMnemonic, .arityMismatch, .arityMismatch, .operandRange, .operandRange, .operandRange,
      .operandRange, .operandRange, .alignment, .operandRange, .operandRange, .operandRange, .alignment, .operandRange,
      .operandRange, .operandRange, .alignment, .operandRange, .operandRange].map
      (fun e => some (.done (.err e))) := by decide

/-- B30, B35, B44, B53 by way of `ASSEMBLE`, and the document's example (S1). -/
theorem test_assemble :
    ([("add", [1, 2, 3]), ("beq", [1, 2, 4094]), ("beq", [1, 2, -4096]), ("lui", [1, 524287]),
      ("jal", [1, -1048576]), ("sw", [2, 5, 8])] : List (String × List Int)).map
        (fun r => run (.assemble (ascii r.1) r.2) six) =
    [0x003100B3, 0x7E208FE3, 0x80208063, 0x7FFFF0B7, 0x800000EF, 0x00512423].map
      (fun w => some (.done (.ok (.word w)))) := by decide

/-- E1, E3, E5, E7, E8, E9, E11. -/
theorem test_encode_failures :
    run (.encode ⟨addiBare, boundOperands .I [1, 2, 3]⟩) six = some (.done (.err .missingFunct)) ∧
      run (.encode ⟨{ add with funct3 := none }, boundOperands .R [1, 2, 3]⟩) six = some (.done (.err .missingFunct)) ∧
      run (.encode ⟨{ lui with funct3 := some 0b101 }, boundOperands .U [1, 1]⟩) six =
        some (.done (.ok (.word 0x000010B7))) ∧
      run (.encode ⟨add, boundOperands .R [1, 2, 32]⟩) six = some (.done (.refused .invalidBoundInstruction)) ∧
      run (.encode ⟨add, boundOperands .R [1, 2]⟩) six = some (.done (.refused .invalidBoundInstruction)) ∧
      run (.encode ⟨beq, boundOperands .B [1, 2, 3]⟩) six = some (.done (.refused .invalidBoundInstruction)) ∧
      run (.encode ⟨addiBare, boundOperands .I [1, 2, 5000]⟩) six =
        some (.done (.refused .invalidBoundInstruction)) := by decide

/-- The rows of 2.8 for 0x7E208FE3 and 0xABCDEF01. -/
theorem test_renderings :
    run (.bitstring 0x7E208FE3) six = some (.done (.ok (.text (ascii "01111110001000001000111111100011")))) ∧
      run (.hex 0xABCDEF01) six = some (.done (.ok (.text (ascii "0xABCDEF01")))) := by decide

def shr : Template := funct3Template "shr" 0b0010011 .I 0b101
def srai : Template := rTemplate "srai" 0b0010011 0b101 0b0100000

/-- D9, D10, D3, D16 and T3, T4, T2, T11. -/
theorem test_decode_modes :
    run (.decodeS 0x41F15093) (holding [add, srai, shr]) = some (.done (.err .ambiguousDecode)) ∧
      run (.decodeS 0x01F15093) (holding [add, srai, shr]) =
        some (.done (.ok (.decoded (ascii "shr") (boundOperands .I [1, 2, 31])))) ∧
      run (.decodeS 0x203100B3) six = some (.done (.err .unknownEncoding)) ∧
      run (.decodeS 0x00000013) (holding [addiBare]) = some (.done (.err .unknownEncoding)) ∧
      run (.decodeT 0x41F15093 srai) six = some (.done (.ok (.decoded (ascii "srai") (boundOperands .R [1, 2, 31])))) ∧
      run (.decodeT 0x41F15093 shr) six = some (.done (.ok (.decoded (ascii "shr") (boundOperands .I [1, 2, 1055])))) ∧
      run (.decodeT 0x003100B3 sub) six = some (.done (.err .unknownEncoding)) ∧
      run (.decodeT 0x123402B7 { lui with funct3 := some 0b101 }) six =
        some (.done (.ok (.decoded (ascii "lui") (boundOperands .U [5, 74560])))) := by decide

/-- The encoder's and the decoder's ports of R31, and entries (R21): 2.5 and 2.6, by port. -/
theorem test_ports :
    encodePort ⟨0, 0b0110011, true, 0, true, 0⟩ 1 2 3 = some ⟨some 0x003100B3, 0⟩ ∧
      encodePort ⟨0, 0b0110011, true, 0, true, 0⟩ 1 2 32 = some ⟨none, 5⟩ ∧
      encodePort ⟨6, 0b0110011, true, 0, true, 0⟩ 1 2 3 = none ∧
      decodePort ⟨1, 0b0010011, true, 0, false, 0⟩ 0xFFF10093 = some ⟨some 1, some 2, some 0xFFFFFFFF, 0⟩ ∧
      decodePort ⟨4, 0b0110111, false, 0, false, 0⟩ 0x123452B7 = some ⟨some 5, some 74565, none, 0⟩ ∧
      searchPort [add, sub] 0x407302B3 = ⟨⟨some 5, some 6, some 7, 0⟩, some 1⟩ ∧
      searchPort [add, sub] 0x00000013 = ⟨⟨none, none, none, 9⟩, none⟩ ∧ entryValid [add, sub] 2 = false := by decide

/-- The Registry write port (R31): an added template, a duplicate, and nothing while `add_valid` is 0. -/
theorem test_write_port :
    let port (valid : Bool) : WritePort := ⟨valid, ascii "add", ⟨0, 0b0110011, true, 0, true, 0⟩⟩
    regOf (writePort (port true) State.reset) = some [add] ∧ addStatus (port true) State.reset = some 0 ∧
      addStatus (port true) six = some 2 ∧ regOf (writePort (port false) State.reset) = some [] ∧
      addStatus (port false) State.reset = none := by decide

/-! ### Witnesses: for every obligation with hypotheses, a state and operands that meet them together -/

/-- A codec with the reference catalog loaded, and one template of every format under a mnemonic of no row. -/
def full : State :=
  holding (referenceCatalog ++
    [rTemplate "zr" 0b0001011 0b111 0b1111111, funct3Template "zi" 0b0101011 .I 0b111,
     funct3Template "zs" 0b1011011 .S 0b111, funct3Template "zb" 0b1111011 .B 0b111, plainTemplate "zu" 0b1010111 .U,
     plainTemplate "zj" 0b1110111 .J])

/-- The template of `m` in `full` is one of this format, with exactly the funct values the format requires. -/
def readyIn (f : Format) (m : String) : Bool :=
  match lookup full.reg (ascii m) with
  | none => false
  | some t => t.format == f && t.funct3.isSome == required3 f && t.funct7.isSome == required7 f

/-- The states that hold given templates of distinct mnemonics have the invariant. -/
theorem inv_holding (ts : List Template) (h : (ts.map (·.mnemonic)).Nodup) : (holding ts).Inv :=
  ⟨h, (fun _ hn => nomatch hn), fun _ _ => rfl⟩

theorem witness_RFormatRowsComplete :
    (["slli", "srli", "srai", "add", "sub", "sll", "slt", "sltu", "xor", "srl", "sra", "or", "and", "zr"].all
      (readyIn .R)) = true ∧
      (sub.format = .R ∧ sub.funct7 = some 0b0100000 ∧ sub.funct3 = some 0 ∧ (0 : Int) ≤ 0 ∧ (0 : Int) ≤ 31 ∧
        (31 : Int) ≤ 31 ∧ lookup full.reg (ascii "sub") = some sub) := by decide

theorem witness_IFormatRowsComplete :
    (["jalr", "lb", "lh", "lw", "lbu", "lhu", "addi", "slti", "sltiu", "xori", "ori", "andi", "fence", "zi"].all
      (readyIn .I)) = true ∧
      (addi.format = .I ∧ addi.funct3 = some 0 ∧ (0 : Int) ≤ 0 ∧ (0 : Int) ≤ 31 ∧ (31 : Int) ≤ 31 ∧
        (-2048 : Int) ≤ -2048 ∧ (-2048 : Int) ≤ 2047 ∧ (2047 : Int) ≤ 2047 ∧
        lookup full.reg (ascii "addi") = some addi) := by decide

theorem witness_SFormatRowsComplete :
    (["sb", "sh", "sw", "zs"].all (readyIn .S)) = true ∧
      (sw.format = .S ∧ sw.funct3 = some 0b010 ∧ (0 : Int) ≤ 31 ∧ (31 : Int) ≤ 31 ∧ (0 : Int) ≤ 0 ∧
        (-2048 : Int) ≤ -2048 ∧ (2047 : Int) ≤ 2047 ∧ lookup full.reg (ascii "sw") = some sw) := by decide

theorem witness_BFormatRowsComplete :
    (["beq", "bne", "blt", "bge", "bltu", "bgeu", "zb"].all (readyIn .B)) = true ∧
      (beq.format = .B ∧ beq.funct3 = some 0 ∧ (0 : Int) ≤ 31 ∧ (31 : Int) ≤ 31 ∧
        (∀ imm ∈ ([-4096, 0, 4094] : List Int), -4096 ≤ imm ∧ imm ≤ 4094 ∧ imm % 2 = 0) ∧
        lookup full.reg (ascii "beq") = some beq) := by decide

theorem witness_UFormatRowsComplete :
    (["lui", "auipc", "zu"].all (readyIn .U)) = true ∧
      (lui.format = .U ∧ (0 : Int) ≤ 31 ∧ (31 : Int) ≤ 31 ∧
        (∀ imm ∈ ([-524288, 524287] : List Int), -524288 ≤ imm ∧ imm ≤ 524287) ∧
        lookup full.reg (ascii "lui") = some lui) := by decide

theorem witness_JFormatRowsComplete :
    (["jal", "zj"].all (readyIn .J)) = true ∧
      (jal.format = .J ∧ (0 : Int) ≤ 31 ∧ (31 : Int) ≤ 31 ∧
        (∀ imm ∈ ([-1048576, 1048574] : List Int), -1048576 ≤ imm ∧ imm ≤ 1048574 ∧ imm % 2 = 0) ∧
        lookup full.reg (ascii "jal") = some jal) := by decide

/-- Each of the binder's errors, and the encoder's. -/
theorem witness_RowsReportTheFirstError :
    serve (.assemble (Instr.add 1 2 3).mnemonic (Instr.add 1 2 3).tokens) State.reset =
        failed State.reset .unknownMnemonic ∧
      serve (.assemble (Instr.add 1 2 32).mnemonic (Instr.add 1 2 32).tokens) six = failed six .operandRange ∧
      serve (.assemble (Instr.jal 1 3).mnemonic (Instr.jal 1 3).tokens) six = failed six .alignment ∧
      serve (.assemble (Instr.addi 1 2 3).mnemonic (Instr.addi 1 2 3).tokens) (holding [addiBare]) =
        failed (holding [addiBare]) .missingFunct := ⟨rfl, rfl, rfl, rfl⟩

theorem witness_RowsAssembleAndDecodeBack :
    serve (.assemble (Instr.beq 1 2 4094).mnemonic (Instr.beq 1 2 4094).tokens) six =
      answered six (.word 0x7E208FE3) := rfl

theorem witness_RowsLeaveTheCodecUnchanged :
    (∃ t, exec (.add 31 31 31) six = .next t) ∧ ∃ t, exec (.add 31 31 32) { six with phase := .frozen } = .next t :=
  ⟨⟨_, rfl⟩, ⟨_, rfl⟩⟩

/-- `six` with requests pending. -/
def asked (rs : List Request) : State := { six with requests := rs }

theorem witness_StepRunsTheDecodedInstruction :
    (asked [.instr 0x003100B3, .reset]).requests = .instr 0x003100B3 :: [.reset] ∧
      decodeIn (asked [.instr 0x003100B3, .reset]).reg 0x003100B3 = .ok (.add 1 2 3) := ⟨rfl, by decide⟩

theorem witness_StepTakesTheOldestRequest :
    (asked [.op .list, .reset]).requests = .op .list :: [.reset] ∧
      ((asked [.instr 0x00000073]).requests = .instr 0x00000073 :: [] ∧
        decodeIn (asked [.instr 0x00000073]).reg 0x00000073 = .err .unknownEncoding) ∧
      six.requests = [] := ⟨rfl, ⟨rfl, by decide⟩, rfl⟩

theorem witness_ResetEmptiesTheRegistry :
    ({ asked [.reset, .op .list] with phase := .frozen } : State).requests = .reset :: [.op .list] := rfl

theorem witness_AfterResetNothingIsKnown : ({ State.reset with phase := .frozen } : State).reg = [] := rfl

theorem witness_FetchedTableWordsRoundTrip :
    decodeTableWord 32 0xFF5FF06F = some (.jal 0 (-12)) ∧ decodeTableWord 32 0x01FFDF93 = some (.srli 31 31 31) := by
  decide

/-- Under the bound 3, a lenient load of a defective line and mnemonics that fit warns; one that comes to `addi` stops
there, refused, with the line before it loaded (U12, R82). -/
theorem test_load_under_a_mnemonic_bound :
    run (.load [ascii "hdr", lineBad, lineAdd] .lenient) boundThree =
        some (.done (.ok (.warnings [(1, .catalogParse .missingRequiredFunct)]))) ∧
      (∃ r, run (.load [ascii "hdr", lineAdd, lineAddi, lineSub] .lenient) boundThree = some (.done (.refused r))) ∧
      regOf (serve (.load [ascii "hdr", lineAdd, lineAddi, lineSub] .lenient) boundThree) = some [add] :=
  ⟨by decide, ⟨_, rfl⟩, by decide⟩

/-- A state with the bound 3, which `addi` exceeds. -/
theorem witness_EveryStepHasANextState :
    boundThree.phase = .load ∧ (∀ x ∈ boundThree.reg, x.mnemonic ≠ addi.mnemonic) ∧
      boundThree.cfg.cap ≠ some boundThree.reg.length ∧ mnemonicFits boundThree.cfg addi.mnemonic = false := by decide

/-- A full Registry with a finite capacity: the invariant at its boundary, and a step that keeps it. -/
theorem witness_StepKeepsTheRegistryInvariant :
    ({ capThree with requests := [.op (.add lui)] } : State).Inv ∧
      ∃ t, step { capThree with requests := [.op (.add lui)] } = .next t :=
  ⟨⟨by unfold distinctMnemonics; decide, fun n hn => by cases hn; decide, fun _ _ => rfl⟩, ⟨_, rfl⟩⟩

theorem witness_TemplatesAreInsertOnce :
    (∃ t, step (asked [.op (.add sub)]) = .next t) ∧ (asked [.op (.add sub)]).requests.head? ≠ some .reset :=
  ⟨⟨_, rfl⟩, by decide⟩

theorem witness_FrozenRegistriesNeverChange :
    ((∃ t, step { asked [.op (.add sub)] with phase := .frozen } = .next t) ∧
        ({ asked [.op (.add sub)] with phase := .frozen } : State).requests.head? ≠ some .reset ∧
        ({ asked [.op (.add sub)] with phase := .frozen } : State).phase = .frozen) ∧
      ((∃ t, step (asked [.op .freeze]) = .next t ∧ t.phase = .frozen) ∧
        (asked [.op .freeze]).requests.head? ≠ some .reset ∧ (asked [.op .freeze]).phase = .load) :=
  ⟨⟨⟨_, rfl⟩, by decide, rfl⟩, ⟨⟨_, rfl, rfl⟩, by decide, rfl⟩⟩

theorem witness_TableInstructionsDecodeAfterEncode :
    ([.add 0 31 31, .addi 31 0 (-2048), .addi 0 0 2047, .sw 31 31 2047, .beq 0 31 4094, .beq 0 31 (-4096),
      .lui 31 (-524288), .jal 31 1048574, .jal 0 (-1048576)] : List Instr).all
        (fun i => i.wellFormed && hasOwnRow i.format i.mnemonic) = true := by decide

/-- A format row, beside the whole reference catalog. -/
theorem witness_AnyInstructionDecodesAfterEncode :
    (Instr.anyR (ascii "zr") 31 0 31).wellFormed = true ∧
      encodeIn full.reg (.anyR (ascii "zr") 31 0 31) = some 0xFFF07F8B ∧
      (candidates full.reg 0xFFF07F8B).length = 1 := by decide

theorem witness_AnyInstructionEncodesAfterDecode :
    distinctMnemonics full.reg ∧ decodeIn full.reg 0xFFF07F8B = .ok (.anyR (ascii "zr") 31 0 31) :=
  ⟨by unfold distinctMnemonics; decide, by decide⟩

theorem witness_EncoderWritesTheLayoutTables :
    encodeBound ⟨beq, boundOperands .B [31, 0, -4096]⟩ = .ok 0x800F8063 := rfl

theorem witness_EncodePacksRInstructions :
    sub.format = .R ∧ sub.funct7 = some 0b0100000 ∧ sub.funct3 = some 0 ∧ (0 : Int) ≤ 0 ∧ (0 : Int) ≤ 31 ∧
      (31 : Int) ≤ 31 := by decide

theorem witness_EncodePacksIInstructions :
    addi.format = .I ∧ addi.funct3 = some 0 ∧ (0 : Int) ≤ 0 ∧ (0 : Int) ≤ 31 ∧ (31 : Int) ≤ 31 ∧
      (-2048 : Int) ≤ -2048 ∧ (-2048 : Int) ≤ 2047 ∧ (2047 : Int) ≤ 2047 := by decide

theorem witness_EncodePacksSInstructions :
    sw.format = .S ∧ sw.funct3 = some 0b010 ∧ (0 : Int) ≤ 31 ∧ (31 : Int) ≤ 31 ∧ (-2048 : Int) ≤ -2048 ∧
      (2047 : Int) ≤ 2047 := by decide

theorem witness_EncodePacksBInstructions :
    beq.format = .B ∧ beq.funct3 = some 0 ∧ (0 : Int) ≤ 31 ∧ (31 : Int) ≤ 31 ∧
      ∀ imm ∈ ([-4096, 0, 4094] : List Int), -4096 ≤ imm ∧ imm ≤ 4094 ∧ imm % 2 = 0 := by decide

theorem witness_EncodePacksUInstructions :
    lui.format = .U ∧ (0 : Int) ≤ 31 ∧ (31 : Int) ≤ 31 ∧
      ∀ imm ∈ ([-524288, 524287] : List Int), -524288 ≤ imm ∧ imm ≤ 524287 := by decide

theorem witness_EncodePacksJInstructions :
    jal.format = .J ∧ (0 : Int) ≤ 31 ∧ (31 : Int) ≤ 31 ∧
      ∀ imm ∈ ([-1048576, 1048574] : List Int), -1048576 ≤ imm ∧ imm ≤ 1048574 ∧ imm % 2 = 0 := by decide

/-- A value just outside its range; an odd one; kinds out of order. -/
theorem witness_EncodeRefusesInvalidBoundInstructions :
    ¬ ((boundOperands .I [1, 2, 2048]).map (·.kind) = operandKinds addi.format ∧
        accepted addi.format ((boundOperands .I [1, 2, 2048]).map (·.value))) ∧
      ¬ ((boundOperands .B [1, 2, 4093]).map (·.kind) = operandKinds beq.format ∧
        accepted beq.format ((boundOperands .B [1, 2, 4093]).map (·.value))) ∧
      ¬ (([⟨.rs1, 1⟩, ⟨.rd, 2⟩, ⟨.rs2, 3⟩] : List BoundOperand).map (·.kind) = operandKinds add.format ∧
        accepted add.format (([⟨.rs1, 1⟩, ⟨.rd, 2⟩, ⟨.rs2, 3⟩] : List BoundOperand).map (·.value))) := by
  simp [boundOperands, operandKinds, accepted, addi, beq, add, funct3Template, rTemplate]

theorem witness_EncodeFailsExactlyWhenAFunctIsMissing :
    ((boundOperands .I [0, 31, 2047]).map (·.kind) = operandKinds addiBare.format ∧
        accepted addiBare.format ((boundOperands .I [0, 31, 2047]).map (·.value)) ∧ lacksFunct addiBare) ∧
      ((boundOperands .B [0, 31, -4096]).map (·.kind) = operandKinds beq.format ∧
        accepted beq.format ((boundOperands .B [0, 31, -4096]).map (·.value)) ∧ ¬ lacksFunct beq) := by
  simp [boundOperands, operandKinds, accepted, addiBare, beq, plainTemplate, funct3Template, lacksFunct]

theorem witness_EncodingIgnoresMnemonicAndSurplusFuncts :
    lui.format = ({ lui with mnemonic := [], funct3 := some 0b101 } : Template).format ∧
      lui.opcode = ({ lui with mnemonic := [], funct3 := some 0b101 } : Template).opcode ∧
      ¬ (lui.format = .R ∨ lui.format = .I ∨ lui.format = .S ∨ lui.format = .B) ∧
      (add.format = ({ add with mnemonic := [] } : Template).format ∧
        add.funct3 = ({ add with mnemonic := [] } : Template).funct3 ∧
        add.funct7 = ({ add with mnemonic := [] } : Template).funct7) := by decide

theorem witness_AssembleIsBindThenEncode :
    serve (.bind (ascii "add") [1, 2]) six = failed six .arityMismatch ∧
      serve (.bind (ascii "add") [0, 31, 31]) six = answered six (.bound ⟨add, boundOperands .R [0, 31, 31]⟩) :=
  ⟨rfl, rfl⟩

theorem witness_MatchingIsMaskAndCompare : ¬ lacksFunct add ∧ lacksFunct addiBare := by
  simp [lacksFunct, add, addiBare, rTemplate, plainTemplate]

theorem witness_TemplateDecodeExtractsTheFields :
    matchesWord sub 0x003100B3 = false ∧ matchesWord beq 0x80208063 = true := by decide

theorem witness_SearchDecodeNeedsExactlyOneMatch :
    (∀ t ∈ six.reg, matchesWord t 0x203100B3 = false) ∧
      ((holding [add, srai, shr]).reg = [add] ++ srai :: [] ++ shr :: [] ∧ matchesWord srai 0x41F15093 = true ∧
        matchesWord shr 0x41F15093 = true) ∧
      (six.reg = [add, addi, sw] ++ beq :: [lui, jal] ∧ matchesWord beq 0x80208063 = true ∧
        ∀ u ∈ [add, addi, sw] ++ [lui, jal], matchesWord u 0x80208063 = false) := by decide

theorem witness_DecodeUndoesEncode :
    serve (.encode ⟨jal, boundOperands .J [31, -1048576]⟩) six = answered six (.word 0x80000FEF) := rfl

theorem witness_EncodeUndoesDecode :
    serve (.decodeT 0x80208063 beq) six = answered six (.decoded (ascii "beq") (boundOperands .B [1, 2, -4096])) := rfl

/-- One word that only its template matches, and one that another matches too. -/
theorem witness_SearchRoundTripUnlessAmbiguous :
    (holding [add, srai, shr]).Inv ∧ (add ∈ (holding [add, srai, shr]).reg ∧ srai ∈ (holding [add, srai, shr]).reg) ∧
      (serve (.encode ⟨add, boundOperands .R [1, 2, 3]⟩) (holding [add, srai, shr]) =
          answered (holding [add, srai, shr]) (.word 0x003100B3) ∧
        ∀ u ∈ (holding [add, srai, shr]).reg, matchesWord u 0x003100B3 = true → u = add) ∧
      (serve (.encode ⟨srai, boundOperands .R [1, 2, 31]⟩) (holding [add, srai, shr]) =
          answered (holding [add, srai, shr]) (.word 0x41F15093) ∧
        ∃ u ∈ (holding [add, srai, shr]).reg, u ≠ srai ∧ matchesWord u 0x41F15093 = true) :=
  ⟨inv_holding _ (by decide), by decide, ⟨rfl, by decide⟩, ⟨rfl, by decide⟩⟩

theorem witness_DecodedOperandsBind :
    six.Inv ∧ serve (.decodeS 0x80208063) six =
      answered six (.decoded (ascii "beq") (boundOperands .B [1, 2, -4096])) :=
  ⟨inv_holding _ (by decide), rfl⟩

theorem witness_BindChecksMnemonicThenArity :
    (∀ t ∈ six.reg, t.mnemonic ≠ ascii "sub") ∧
      (lookup six.reg (ascii "add") = some add ∧ add.format = .R ∧ ([1, 2] : List Int).length ≠ 3) ∧
      (lookup six.reg (ascii "lui") = some lui ∧ lui.format = .U ∧ ([1, 2, 3] : List Int).length ≠ 2) := by decide

/-- In `beq 31, 0, v`: out of range at 4096 and -4097, in range but odd at 4095 and -4095. -/
theorem witness_BindReportsTheFirstBadOperand :
    lookup six.reg (ascii "beq") = some beq ∧
      (∀ v ∈ ([4096, -4097, 4095, -4095] : List Int),
        (([31, 0] : List Int) ++ v :: []).length = (operandKinds beq.format).length) ∧
      (operandKinds beq.format)[([31, 0] : List Int).length]? = some (.imm .w12 true) ∧
      (∀ (j : Nat) (u : Int) (kj : OperandKind), ([31, 0] : List Int)[j]? = some u →
        (operandKinds beq.format)[j]? = some kj →
          (rangeOf kj).1 ≤ u ∧ u ≤ (rangeOf kj).2 ∧ (evenOnly kj → u % 2 = 0)) ∧
      ((rangeOf (.imm .w12 true)).2 < 4096 ∧ -4097 < (rangeOf (.imm .w12 true)).1) ∧
      (evenOnly (.imm .w12 true) ∧ ∀ v ∈ ([4095, -4095] : List Int),
        (rangeOf (.imm .w12 true)).1 ≤ v ∧ v ≤ (rangeOf (.imm .w12 true)).2 ∧ v % 2 = 1) := by
  refine ⟨by decide, by decide, by decide, ?_, by decide, trivial, by decide⟩
  rintro (_ | _ | j) u kj hu hk
  · cases hu; cases hk; exact ⟨by decide, by decide, nofun⟩
  · cases hu; cases hk; exact ⟨by decide, by decide, nofun⟩
  · cases hu

theorem witness_BindAcceptsExactlyTheTable :
    lookup six.reg (ascii "beq") = some beq ∧ serve (.bind (ascii "beq") [0, 31, 4094]) six =
      answered six (.bound ⟨beq, boundOperands .B [0, 31, 4094]⟩) := ⟨by decide, rfl⟩

theorem witness_AddAppendsOnceInOrder :
    ({ six with phase := .frozen } : State).phase = .frozen ∧
      (six.phase = .load ∧ ∃ u ∈ six.reg, u.mnemonic = add.mnemonic) ∧
      (capThree.phase = .load ∧ (∀ u ∈ capThree.reg, u.mnemonic ≠ lui.mnemonic) ∧
        capThree.cfg.cap = some capThree.reg.length) ∧
      (boundThree.phase = .load ∧ (∀ u ∈ boundThree.reg, u.mnemonic ≠ sub.mnemonic) ∧
        boundThree.cfg.cap ≠ some boundThree.reg.length ∧ mnemonicFits boundThree.cfg sub.mnemonic = true) := by decide

theorem witness_AddedTemplatesAreVisible :
    (∃ t, serve (.add sub) six = .next t ∧ t.response = some (.done (.ok .unit))) ∧ ascii "add" ≠ sub.mnemonic :=
  ⟨⟨_, rfl, rfl⟩, by decide⟩

theorem witness_LookupListFreezeAlwaysAnswer :
    (∀ u ∈ six.reg, u.mnemonic ≠ ascii "ADD") ∧ jal ∈ six.reg ∧ distinctMnemonics six.reg :=
  ⟨by decide, by decide, by unfold distinctMnemonics; decide⟩

theorem witness_ParseReportsTheFirstFailingCheck :
    let fieldsOK : List Text := [ascii "add", ascii " 0110011", ascii "R ", ascii "funct3(000)", ascii "funct7(0000000)"]
    (fieldsOK ≠ [] ∧ ∀ x ∈ fieldsOK, 0x2C ∉ x) ∧
      fieldsOK.map trim =
        ascii "add" :: ascii "0110011" :: ascii "R" :: [ascii "funct3(000)", ascii "funct7(0000000)"] ∧
      digitString 7 (ascii "0110011") ∧ ascii "R" = letterOf .R ∧
      goodFuncts [ascii "funct3(000)", ascii "funct7(0000000)"] ∧
      requiredThere .R [ascii "funct3(000)", ascii "funct7(0000000)"] := by
  have h3 : funct3Text (ascii "funct3(000)") := ⟨ascii "000", by unfold digitString; decide, rfl⟩
  have h7 : funct7Text (ascii "funct7(0000000)") := ⟨ascii "0000000", by unfold digitString; decide, rfl⟩
  have h37 : ¬ funct7Text (ascii "funct3(000)") := by
    rintro ⟨d, ⟨hd, -⟩, h⟩
    have := congrArg List.length h
    simp [hd] at this
    revert this; decide
  have h73 : ¬ funct3Text (ascii "funct7(0000000)") := by
    rintro ⟨d, ⟨hd, -⟩, h⟩
    have := congrArg List.length h
    simp [hd] at this
    revert this; decide
  refine ⟨by decide, by decide, by unfold digitString; decide, rfl, ⟨?_, ?_⟩, ?_⟩
  · simp [h3, h7]
  · simp [h37, h73]
  · exact ⟨fun _ => ⟨_, List.mem_cons_self, h3⟩, fun _ => ⟨_, by simp, h7⟩⟩

/-- Too few fields; an opcode of six digits; no format letter; a funct field twice; a funct field missing. -/
theorem witness_ParseReportsTheFirstFailingCheck_failures :
    ([ascii "add", ascii "0110011"] : List Text).length < 3 ∧ ¬ digitString 7 (ascii "110011") ∧
      (∀ f, ascii "RI" ≠ letterOf f) ∧ ¬ goodFuncts [ascii "funct3(000)", ascii "funct3(001)"] ∧
      (goodFuncts [] ∧ ¬ requiredThere .I []) := by
  refine ⟨by decide, by unfold digitString; decide, fun f => by cases f <;> decide, ?_, ⟨nofun, .nil⟩, ?_⟩
  · rintro ⟨-, h⟩
    refine (List.pairwise_cons.1 h).1 _ List.mem_cons_self |>.1 ⟨⟨ascii "000", ?_, rfl⟩, ⟨ascii "001", ?_, rfl⟩⟩ <;>
      (unfold digitString; decide)
  · rintro ⟨h, -⟩
    obtain ⟨_, h, -⟩ := h (.inr (.inl rfl))
    cases h

theorem witness_ParsedTemplatesAreWellFormed : serve (.parseLine lineAdd) six = answered six (.template add) := rfl

/-- A mnemonic with a space inside, and a tab after every comma. -/
theorem witness_ParseReadsTheGrammar :
    ¬ lacksFunct { add with mnemonic := ascii "my op" } ∧ 0x2C ∉ ascii "my op" ∧ trim (ascii "my op") = ascii "my op" ∧
      ([0x09] : Text).all isWhite = true :=
  ⟨by simp [lacksFunct, add, rTemplate], by decide, by decide, by decide⟩

/-- The lines add nothing but what fits: two templates into a Registry of capacity two. -/
theorem witness_GoodCatalogsLoadWhole :
    let s : State := { State.reset with cfg := { Config.default with cap := some 2 } }
    s.phase = .load ∧
      (definitionLines [ascii "hdr", lineAdd, [], lineSub]).map parseTemplate = [add, sub].map Except.ok ∧
      distinctMnemonics (s.reg ++ [add, sub]) ∧ withinCapacity s.cfg (s.reg ++ [add, sub]) ∧
      mnemonicsFit s.cfg [add, sub] :=
  ⟨rfl, rfl, by unfold distinctMnemonics; decide, fun n hn => by cases hn; decide, fun _ _ => rfl⟩

/-- A catalog of a header, a good line and a line that does not parse; or of a mnemonic that is there already; or a new
mnemonic where the Registry is full.  And a frozen state. -/
theorem witness_StrictLoadStopsAtTheFirstFailure :
    let s : State := { State.reset with cfg := { Config.default with cap := some 1 } }
    ({ s with phase := .frozen } : State).phase = .frozen ∧ s.phase = .load ∧ [ascii "hdr", lineAdd] ≠ [] ∧
      (definitionLines [ascii "hdr", lineAdd]).map parseTemplate = [add].map Except.ok ∧
      distinctMnemonics (s.reg ++ [add]) ∧ withinCapacity s.cfg (s.reg ++ [add]) ∧ mnemonicsFit s.cfg [add] ∧
      (lineBad.all isWhite = false ∧ lineAdd.all isWhite = false ∧ lineSub.all isWhite = false) ∧
      parseTemplate lineBad = .error .missingRequiredFunct ∧
      (parseTemplate lineAdd = .ok add ∧ ∃ x ∈ s.reg ++ [add], x.mnemonic = add.mnemonic) ∧
      (parseTemplate lineSub = .ok sub ∧ (∀ x ∈ s.reg ++ [add], x.mnemonic ≠ sub.mnemonic) ∧
        s.cfg.cap = some (s.reg ++ [add]).length) :=
  ⟨rfl, rfl, by decide, rfl, by unfold distinctMnemonics; decide, (fun n hn => by cases hn; decide), fun _ _ => rfl,
    by decide, rfl, ⟨rfl, by decide⟩, ⟨rfl, by decide, rfl⟩⟩

/-- And a new mnemonic longer than the bound, with room left. -/
theorem witness_StrictLoadStopsAtTheFirstFailure_long :
    boundThree.phase = .load ∧ [ascii "hdr", lineAdd] ≠ [] ∧
      (definitionLines [ascii "hdr", lineAdd]).map parseTemplate = [add].map Except.ok ∧
      distinctMnemonics (boundThree.reg ++ [add]) ∧ withinCapacity boundThree.cfg (boundThree.reg ++ [add]) ∧
      mnemonicsFit boundThree.cfg [add] ∧ lineAddi.all isWhite = false ∧ parseTemplate lineAddi = .ok addi ∧
      (∀ x ∈ boundThree.reg ++ [add], x.mnemonic ≠ addi.mnemonic) ∧
      boundThree.cfg.cap ≠ some (boundThree.reg ++ [add]).length ∧ mnemonicFits boundThree.cfg addi.mnemonic = false :=
  ⟨rfl, by decide, rfl, by unfold distinctMnemonics; decide, (fun n hn => by cases hn; decide),
    (by unfold mnemonicsFit; decide), by decide, rfl, by decide, by decide, by decide⟩

/-- One stopped by a line that does not parse, one by a duplicate. -/
theorem witness_StrictLoadStopsAtTheFirstFailure_only :
    (∃ t, serve (.load [ascii "hdr", lineAdd, lineBad] .strict) State.reset = .next t ∧
        t.response = some (.stoppedAt 2 (.catalogParse .missingRequiredFunct))) ∧
      ∃ t, serve (.load [ascii "hdr", lineAdd, [], lineAdd] .strict) State.reset = .next t ∧
        t.response = some (.stoppedAt 3 .duplicateMnemonic) := ⟨⟨_, rfl, rfl⟩, ⟨_, rfl, rfl⟩⟩

/-- Without bounds. -/
theorem witness_LenientLoadWarnsAndGoesOn :
    State.reset.phase = .load ∧ State.reset.cfg.cap = none ∧ State.reset.cfg.mnemMax = none := by decide

/-- What `accountsFor` says of one load: a bad line, a good one, a blank one and a duplicate (2.9). -/
theorem test_accountsFor_one_load :
    run (.load [ascii "hdr", lineBad, lineAdd, [], lineAdd, lineSub] .lenient) State.reset =
        some (.done (.ok (.warnings
          [(1, .catalogParse .missingRequiredFunct), (4, .duplicateMnemonic)]))) ∧
      loadedLines [ascii "hdr", lineBad, lineAdd, [], lineAdd, lineSub]
        [(1, .catalogParse .missingRequiredFunct), (4, .duplicateMnemonic)] = [lineAdd, lineSub] := by decide

/-- A `FREEZE`, an `ADD` and a `LOAD` that write, and a `BIND` that fails. -/
theorem witness_OperationsWriteOnlyWhatTheyMay :
    (∃ t, serve .freeze six = .next t ∧ t.response = some (.done (.ok .unit)) ∧ t.phase ≠ six.phase) ∧
      (∃ t, serve (.add sub) six = .next t ∧ t.response = some (.done (.ok .unit)) ∧ t.reg ≠ six.reg) ∧
      (∃ t, serve (.load [[], lineSub] .strict) six = .next t ∧ t.response = some (.done (.ok (.warnings []))) ∧
        t.reg ≠ six.reg) ∧
      ∃ t, serve (.bind (ascii "add") [1, 2, 32]) six = .next t ∧ t.response = some (.done (.err .operandRange)) ∧
        (Response.done (.err .operandRange)).isOk = false ∧
        ∀ lines mode, Operation.bind (ascii "add") [1, 2, 32] ≠ .load lines mode :=
  ⟨⟨_, rfl, rfl, by decide⟩, ⟨_, rfl, rfl, by decide⟩, ⟨_, rfl, rfl, by decide⟩, ⟨_, rfl, rfl, rfl, nofun⟩⟩

theorem witness_EntriesShowTheRegistry : six.reg[5]? = some jal := rfl

theorem witness_InstancesShareNothing :
    (∃ sys, System.perform [State.reset, six] 1 (.op .freeze) = some sys) ∧ 0 ≠ 1 := ⟨⟨_, rfl⟩, by decide⟩

end Sys2Proof.Tests
end

section
/-! PROOFS. The statements on the scope of the codec: every row of the opcode table completes or reports `ASSEMBLE`'s
error, a table word comes back unchanged, every step has a next state, and each operation writes only what it may. -/

namespace Sys2Proof.Proofs

open Sys2Proof.Machine Sys2Proof.Claims

/-! ### What a row of the table completes with -/

/-- The token lists of the table of R107 are the legal values of the format's operand kinds. -/
theorem legalValues_of_accepted {f : Format} {vs : List Int} (h : accepted f vs) :
    legalValues (operandKinds f) vs = true := by
  unfold accepted at h
  split at h
  case h_7 => exact h.elim
  all_goals
    simp only [operandKinds, legalValues, Bool.and_eq_true, and_true, legalValue_rd, legalValue_rs1, legalValue_rs2,
      legalValue_imm12, legalValue_imm20, legalValue_even12, legalValue_even20]
    omega

/-- An instruction of symbolic form `m vs` completes with the word its loaded template packs. -/
theorem exec_eq_coded {s : State} {i : Instr} {m : Text} {vs : List Int} {t : Template} {w : Word}
    (hi : i.mnemonic = m ∧ i.tokens = vs) (ht : lookup s.reg m = some t) (hv : accepted t.format vs)
    (hw : packWord t vs = .ok w) : exec i s = answered s (.coded w m (boundOperands t.format vs)) := by
  obtain ⟨rfl, rfl⟩ := hi
  exact exec_of_packWord ht (legalValues_of_accepted hv) hw

/-! ### The words of the six formats, as the numbers of R111 to R116 -/

section
variable {t : Template} {f7 : BitVec 7} {f3 : BitVec 3} {rd rs1 rs2 imm : Int}

theorem packWord_R (hf : t.format = .R) (h7 : t.funct7 = some f7) (h3 : t.funct3 = some f3)
    (hv : accepted .R [rd, rs1, rs2]) :
    packWord t [rd, rs1, rs2] = .ok (wordOf (numberR f7.toNat f3.toNat t.opcode.toNat rd rs1 rs2)) := by
  obtain ⟨hd, ha, hb⟩ := hv
  simp only [packWord, hf, h7, h3, Result.ok.injEq]
  exact word_ofInt_toNat _ _ (encR_toNat f7 f3 t.opcode hd.1 hd.2 ha.1 ha.2 hb.1 hb.2)

theorem packWord_I (hf : t.format = .I) (h3 : t.funct3 = some f3) (hv : accepted .I [rd, rs1, imm]) :
    packWord t [rd, rs1, imm] = .ok (wordOf (numberI f3.toNat t.opcode.toNat rd rs1 imm)) := by
  obtain ⟨hd, ha, -⟩ := hv
  simp only [packWord, hf, h3, Result.ok.injEq]
  exact word_ofInt_toNat _ _ (encI_toNat f3 t.opcode imm hd.1 hd.2 ha.1 ha.2)

theorem packWord_S (hf : t.format = .S) (h3 : t.funct3 = some f3) (hv : accepted .S [rs1, rs2, imm]) :
    packWord t [rs1, rs2, imm] = .ok (wordOf (numberS f3.toNat t.opcode.toNat rs1 rs2 imm)) := by
  obtain ⟨ha, hb, -⟩ := hv
  simp only [packWord, hf, h3, Result.ok.injEq]
  have hn := encS_toNat f3 t.opcode imm ha.1 ha.2 hb.1 hb.2
  have hi : imm % 2 ^ 12 / 2 ^ 5 = imm / 2 ^ 5 % 2 ^ 7 := by omega
  exact word_ofInt_toNat _ _ (by rw [hn, hi, numberS])

theorem packWord_B (hf : t.format = .B) (h3 : t.funct3 = some f3) (hv : accepted .B [rs1, rs2, imm]) :
    packWord t [rs1, rs2, imm] = .ok (wordOf (numberB f3.toNat t.opcode.toNat rs1 rs2 imm)) := by
  obtain ⟨ha, hb, -⟩ := hv
  simp only [packWord, hf, h3, Result.ok.injEq]
  have hn := encB_toNat f3 t.opcode imm ha.1 ha.2 hb.1 hb.2
  have sign : imm % 2 ^ 13 / 2 ^ 12 = imm / 2 ^ 12 % 2 := by omega
  have ten : imm % 2 ^ 11 / 2 ^ 5 = imm / 2 ^ 5 % 2 ^ 6 := by omega
  have four : imm % 2 ^ 5 / 2 = imm / 2 % 2 ^ 4 := by omega
  have eleven : imm % 2 ^ 12 / 2 ^ 11 = imm / 2 ^ 11 % 2 := by omega
  exact word_ofInt_toNat _ _ (by rw [hn, sign, ten, four, eleven, numberB])

theorem packWord_U (hf : t.format = .U) (hv : accepted .U [rd, imm]) :
    packWord t [rd, imm] = .ok (wordOf (numberU t.opcode.toNat rd imm)) := by
  obtain ⟨hd, -⟩ := hv
  simp only [packWord, hf, Result.ok.injEq]
  exact word_ofInt_toNat _ _ (encU_toNat t.opcode imm hd.1 hd.2)

theorem packWord_J (hf : t.format = .J) (hv : accepted .J [rd, imm]) :
    packWord t [rd, imm] = .ok (wordOf (numberJ t.opcode.toNat rd imm)) := by
  obtain ⟨hd, -⟩ := hv
  simp only [packWord, hf, Result.ok.injEq]
  have hn := encJ_toNat t.opcode imm hd.1 hd.2
  have sign : imm % 2 ^ 21 / 2 ^ 20 = imm / 2 ^ 20 % 2 := by omega
  have ten : imm % 2 ^ 11 / 2 = imm / 2 % 2 ^ 10 := by omega
  have eleven : imm % 2 ^ 12 / 2 ^ 11 = imm / 2 ^ 11 % 2 := by omega
  have high : imm % 2 ^ 20 / 2 ^ 12 = imm / 2 ^ 12 % 2 ^ 8 := by omega
  exact word_ofInt_toNat _ _ (by rw [hn, sign, ten, eleven, high, numberJ])

end

/-! ### The rows of each format, and the format row -/

/-- The row's instructions have the row's mnemonic and their own three arguments as tokens. -/
def IsRow3 (row : Text × (Int → Int → Int → Instr)) : Prop :=
  ∀ a b c, (row.2 a b c).mnemonic = row.1 ∧ (row.2 a b c).tokens = [a, b, c]

/-- The same for a row of two operands. -/
def IsRow2 (row : Text × (Int → Int → Instr)) : Prop :=
  ∀ a b, (row.2 a b).mnemonic = row.1 ∧ (row.2 a b).tokens = [a, b]

theorem isRow3_of_mem_R (m : Text) : ∀ row ∈ namedR ++ [(m, .anyR m)], IsRow3 row := by
  simp only [namedR, List.cons_append, List.nil_append, List.forall_mem_cons, List.not_mem_nil,
    false_implies, implies_true, and_true]
  and_intros <;> exact fun _ _ _ => ⟨rfl, rfl⟩

theorem isRow3_of_mem_I (m : Text) : ∀ row ∈ namedI ++ [(m, .anyI m)], IsRow3 row := by
  simp only [namedI, List.cons_append, List.nil_append, List.forall_mem_cons, List.not_mem_nil,
    false_implies, implies_true, and_true]
  and_intros <;> exact fun _ _ _ => ⟨rfl, rfl⟩

theorem isRow3_of_mem_S (m : Text) : ∀ row ∈ namedS ++ [(m, .anyS m)], IsRow3 row := by
  simp only [namedS, List.cons_append, List.nil_append, List.forall_mem_cons, List.not_mem_nil,
    false_implies, implies_true, and_true]
  and_intros <;> exact fun _ _ _ => ⟨rfl, rfl⟩

theorem isRow3_of_mem_B (m : Text) : ∀ row ∈ namedB ++ [(m, .anyB m)], IsRow3 row := by
  simp only [namedB, List.cons_append, List.nil_append, List.forall_mem_cons, List.not_mem_nil,
    false_implies, implies_true, and_true]
  and_intros <;> exact fun _ _ _ => ⟨rfl, rfl⟩

theorem isRow2_of_mem_U (m : Text) : ∀ row ∈ namedU ++ [(m, .anyU m)], IsRow2 row := by
  simp only [namedU, List.cons_append, List.nil_append, List.forall_mem_cons, List.not_mem_nil,
    false_implies, implies_true, and_true]
  and_intros <;> exact fun _ _ => ⟨rfl, rfl⟩

theorem isRow2_of_mem_J (m : Text) : ∀ row ∈ namedJ ++ [(m, .anyJ m)], IsRow2 row := by
  simp only [namedJ, List.cons_append, List.nil_append, List.forall_mem_cons, List.not_mem_nil,
    false_implies, implies_true, and_true]
  and_intros <;> exact fun _ _ => ⟨rfl, rfl⟩

/-- Settles O1: the row's word is `packWord_R`, and the data flow decodes it back. -/
theorem rFormatRowsComplete : Obligations.RFormatRowsComplete := by
  intro s m t f7 f3 rd rs1 rs2 hf h7 h3 hd0 hd1 ha0 ha1 hb0 hb1 row hrow ht
  have hv : accepted .R [rd, rs1, rs2] := ⟨⟨hd0, hd1⟩, ⟨ha0, ha1⟩, ⟨hb0, hb1⟩⟩
  have h := exec_eq_coded (isRow3_of_mem_R m row hrow rd rs1 rs2) ht (hf ▸ hv) (packWord_R hf h7 h3 hv)
  rwa [hf] at h

/-- Settles O2: the row's word is `packWord_I`, and the data flow decodes it back. -/
theorem iFormatRowsComplete : Obligations.IFormatRowsComplete := by
  intro s m t f3 rd rs1 imm hf h3 hd0 hd1 ha0 ha1 hi0 hi1 row hrow ht
  have hv : accepted .I [rd, rs1, imm] := ⟨⟨hd0, hd1⟩, ⟨ha0, ha1⟩, ⟨hi0, hi1⟩⟩
  have h := exec_eq_coded (isRow3_of_mem_I m row hrow rd rs1 imm) ht (hf ▸ hv) (packWord_I hf h3 hv)
  rwa [hf] at h

/-- Settles O3: the row's word is `packWord_S`, and the data flow decodes it back. -/
theorem sFormatRowsComplete : Obligations.SFormatRowsComplete := by
  intro s m t f3 rs1 rs2 imm hf h3 ha0 ha1 hb0 hb1 hi0 hi1 row hrow ht
  have hv : accepted .S [rs1, rs2, imm] := ⟨⟨ha0, ha1⟩, ⟨hb0, hb1⟩, ⟨hi0, hi1⟩⟩
  have h := exec_eq_coded (isRow3_of_mem_S m row hrow rs1 rs2 imm) ht (hf ▸ hv) (packWord_S hf h3 hv)
  rwa [hf] at h

/-- Settles O4: the row's word is `packWord_B`, and the data flow decodes it back. -/
theorem bFormatRowsComplete : Obligations.BFormatRowsComplete := by
  intro s m t f3 rs1 rs2 imm hf h3 ha0 ha1 hb0 hb1 hi0 hi1 heven row hrow ht
  have hv : accepted .B [rs1, rs2, imm] := ⟨⟨ha0, ha1⟩, ⟨hb0, hb1⟩, ⟨hi0, hi1, heven⟩⟩
  have h := exec_eq_coded (isRow3_of_mem_B m row hrow rs1 rs2 imm) ht (hf ▸ hv) (packWord_B hf h3 hv)
  rwa [hf] at h

/-- Settles O5: the row's word is `packWord_U`, and the data flow decodes it back. -/
theorem uFormatRowsComplete : Obligations.UFormatRowsComplete := by
  intro s m t rd imm hf hd0 hd1 hi0 hi1 row hrow ht
  have hv : accepted .U [rd, imm] := ⟨⟨hd0, hd1⟩, ⟨hi0, hi1⟩⟩
  have h := exec_eq_coded (isRow2_of_mem_U m row hrow rd imm) ht (hf ▸ hv) (packWord_U hf hv)
  rwa [hf] at h

/-- Settles O6: the row's word is `packWord_J`, and the data flow decodes it back. -/
theorem jFormatRowsComplete : Obligations.JFormatRowsComplete := by
  intro s m t rd imm hf hd0 hd1 hi0 hi1 heven row hrow ht
  have hv : accepted .J [rd, imm] := ⟨⟨hd0, hd1⟩, ⟨hi0, hi1, heven⟩⟩
  have h := exec_eq_coded (isRow2_of_mem_J m row hrow rd imm) ht (hf ▸ hv) (packWord_J hf hv)
  rwa [hf] at h

/-! ### A row and `ASSEMBLE` of its symbolic form -/

theorem respond_inj {s : State} {x y : Result Value} : respond s x = respond s y ↔ x = y := by
  simp [respond, State.answer]

/-- A row does what `ASSEMBLE` of its symbolic form does: it reports the same error, or it answers the same word, which
matches the loaded template and unpacks to the row's operands. -/
theorem exec_cases (i : Instr) (s : State) :
    (∃ e, serve (.assemble i.mnemonic i.tokens) s = failed s e ∧ exec i s = failed s e) ∨
      ∃ t w, lookup s.reg i.mnemonic = some t ∧ legalValues (operandKinds t.format) i.tokens = true ∧
        matchesWord t w = true ∧ unpackValues t.format w = i.tokens ∧
          serve (.assemble i.mnemonic i.tokens) s = answered s (.word w) ∧
            exec i s = answered s (.coded w i.mnemonic (boundOperands t.format i.tokens)) := by
  rw [exec_eq_runSymbolic, runSymbolic, serve, opAssemble]
  obtain ⟨e, ha, hd⟩ | ⟨t, w, ht, hl, -, ha, hm, hu, hd⟩ := dataFlow_cases s.reg i.mnemonic i.tokens
  · exact .inl ⟨e, by rw [ha]; rfl, by rw [hd]; rfl⟩
  · exact .inr ⟨t, w, ht, hl, hm, hu, by rw [ha]; rfl, by rw [hd]; rfl⟩

/-- Settles O7: of the two cases of a row, only the one with an error has `ASSEMBLE` fail. -/
theorem rowsReportTheFirstError : Obligations.RowsReportTheFirstError := by
  intro i s e h
  obtain ⟨e', ha, hx⟩ | ⟨t, w, -, -, -, -, ha, -⟩ := exec_cases i s
  · rw [hx, ← ha, h]
  · cases respond_inj.1 (ha.symm.trans h)

/-- Settles O8: of the two cases of a row, only the one with a word has `ASSEMBLE` succeed; that word matches the
template and unpacks to the operands, so `DECODE_T` reads it back. -/
theorem rowsAssembleAndDecodeBack : Obligations.RowsAssembleAndDecodeBack := by
  intro i s w h
  obtain ⟨e, ha, -⟩ | ⟨t, w', ht, hl, hm, hu, ha, hx⟩ := exec_cases i s
  · cases respond_inj.1 (ha.symm.trans h)
  · cases respond_inj.1 (ha.symm.trans h)
    refine ⟨t, boundOperands t.format i.tokens, ht, ?_, boundOperands_values _ (legalValues_length hl), hx⟩
    rw [serve, opDecodeT, decodeTemplate_of_match hm, hu, ← (lookup_some ht).2]
    rfl

/-! ### A word that decodes comes back -/

/-- Searching the templates that claim a word decodes it as searching all of them does. -/
theorem decodeIn_candidates (reg : List Template) (w : Word) : decodeIn (candidates reg w) w = decodeIn reg w := by
  simp only [decodeIn, searchTemplate, candidates_candidates]

theorem distinctMnemonics_candidates {reg : List Template} (hd : distinctMnemonics reg) (w : Word) :
    distinctMnemonics (candidates reg w) :=
  hd.sublist (List.filter_sublist.map _)

/-- Under distinct mnemonics, the instruction that a word decodes to answers that word. -/
theorem exec_of_decodeIn {s : State} {w : Word} {i : Instr} (hd : distinctMnemonics s.reg)
    (h : decodeIn s.reg w = .ok i) : exec i s = answered s (.coded w i.mnemonic (boundOperands i.format i.tokens)) := by
  obtain ⟨t, hc, rfl⟩ := decodeIn_eq_ok h
  obtain ⟨hm, hf, hv, -⟩ := instrOf_is t w
  obtain ⟨hmem, hmatch⟩ := mem_candidates.1 (hc ▸ List.mem_singleton_self t)
  rw [hf]
  apply exec_of_packWord
  · rw [hm, lookup_of_mem hd hmem]
  · rw [hv, unpackValues_legal]
  · rw [hv, packWord_unpackValues hmatch]

theorem tableWord_32 (n : Nat) : tableWord 32 n = BitVec.ofNat 32 n := by
  apply BitVec.eq_of_toNat_eq
  simp [tableWord]

theorem decodeTableWord_eq_some {n : Nat} {i : Instr} (h : decodeTableWord 32 n = some i) :
    decodeIn referenceCatalog (BitVec.ofNat 32 n) = .ok i := by
  rw [decodeTableWord, tableWord_32] at h
  split at h <;> cases h
  assumption

/-- Settles O14: among the templates that claim the word it decodes as among all of the reference catalog. -/
theorem fetchedTableWordsRoundTrip : Obligations.FetchedTableWordsRoundTrip := by
  intro s n i h
  have hi : decodeIn (templatesFor (BitVec.ofNat 32 n)) (BitVec.ofNat 32 n) = .ok i :=
    (decodeIn_candidates _ _).trans (decodeTableWord_eq_some h)
  refine ⟨?_, exec_of_decodeIn (distinctMnemonics_candidates referenceCatalog_distinct _) hi⟩
  rw [State.withFetchWord, tableWord_32]
  exact step_instr rfl hi

/-! ### Every step has a next state -/

theorem serve_has_next (o : Operation) (s : State) : ∃ t, serve o s = .next t := by
  cases o with
  | parseLine line =>
    rw [serve, opParseLine]
    split <;> exact ⟨_, rfl⟩
  | load lines mode =>
    rw [serve, opLoad]
    split
    · exact ⟨_, rfl⟩
    · exact loadFrom_next ..
  | add u =>
    rw [serve, opAdd]
    split <;> exact ⟨_, rfl⟩
  | _ => exact ⟨_, rfl⟩

theorem runWord_has_next (w : Word) (s : State) : ∃ t, runWord w s = .next t := by
  rw [runWord]
  split
  · rw [exec_eq_runSymbolic]; exact ⟨_, rfl⟩
  · exact ⟨_, rfl⟩
  · exact ⟨_, rfl⟩

theorem step_has_next (s : State) : ∃ t, step s = .next t := by
  rw [step]
  split
  case h_1 => exact ⟨s, rfl⟩
  case h_2 q rest _ =>
    cases q with
    | op o => exact serve_has_next o _
    | instr w => exact runWord_has_next w _
    | reset => exact ⟨_, rfl⟩

/-- Settles O15: of everything an `ADD` comes to, the hypotheses leave the mnemonic that is too long. -/
theorem everyStepHasANextState : Obligations.EveryStepHasANextState := by
  refine ⟨step_has_next, fun s u hp hnew hroom hlong => ?_⟩
  obtain ⟨hp', -⟩ | ⟨-, ⟨x, hx, hxu⟩, -⟩ | ⟨-, -, hfull, -⟩ | ⟨-, -, -, -, ha⟩ | ⟨-, -, -, hfit, -⟩ := tryAdd_cases s u
  · rw [hp] at hp'; cases hp'
  · exact absurd hxu (hnew x hx)
  · exact absurd hfull hroom
  · rw [serve, opAdd, ha]
    exact (longMnemonicReason_cases s u).imp (fun hr => by rw [hr]; rfl) (fun hr => by rw [hr]; rfl)
  · rw [hlong] at hfit; cases hfit

/-! ### What operations write -/

/-- Settles O57, by everything an operation can do. -/
theorem operationsWriteOnlyWhatTheyMay : Obligations.OperationsWriteOnlyWhatTheyMay := by
  intro o s t r h hr
  obtain ⟨r', rfl⟩ | ⟨u, rfl, -, rfl⟩ | ⟨lines, mode, added, r', rfl, rfl, -⟩ | ⟨rfl, rfl⟩ := serve_cases h
  · exact ⟨⟨rfl, rfl⟩, fun hp => absurd rfl hp, fun hg => absurd rfl hg, fun _ _ => ⟨rfl, rfl, rfl, rfl⟩⟩
  · cases hr
    exact ⟨⟨rfl, rfl⟩, fun hp => absurd rfl hp, fun _ => .inl ⟨u, rfl⟩, nofun⟩
  · exact ⟨⟨rfl, rfl⟩, fun hp => absurd rfl hp, fun _ => .inr ⟨lines, mode, rfl⟩, fun _ hl => absurd rfl (hl lines mode)⟩
  · cases hr
    exact ⟨⟨rfl, rfl⟩, fun _ => rfl, fun hg => absurd rfl hg, nofun⟩

end Sys2Proof.Proofs
end

section
/-! PROOFS. The statements on the state of the codec: what a step and a reset do to it, the invariant of the Registry
and its insert-once life cycle, the layout tables that an encoded word is written by, and the views of the state. -/

namespace Sys2Proof.Proofs

open Sys2Proof.Machine Sys2Proof.Claims

/-! ### The Registry over a step -/

/-- An empty Registry has the invariant, whatever the parameters. -/
theorem inv_of_reg_nil {s : State} (h : s.reg = []) : s.Inv where
  distinct := by rw [h]; exact List.nodup_nil
  capacity n _ := by rw [h]; exact Nat.zero_le n
  fit := by rw [h]; nofun

/-- Settles O16, by everything a step can do: only an operation adds templates, and operations keep the invariant. -/
theorem stepKeepsTheRegistryInvariant : Obligations.StepKeepsTheRegistryInvariant := by
  intro s t hi h
  have htaken (rest : List Request) : (s.withRequests rest).Inv := hi.congr rfl rfl
  obtain ⟨-, rfl⟩ | ⟨q, rest, -, ⟨o, -, ho⟩ | ⟨w, r, -, rfl⟩ | ⟨-, rfl⟩⟩ := step_cases h
  · exact hi
  · exact (htaken rest).serve ho
  · exact (htaken rest).congr rfl rfl
  · exact inv_of_reg_nil rfl

/-- Settles O17: the Registry is empty at reset. -/
theorem resetHasTheRegistryInvariant : Obligations.ResetHasTheRegistryInvariant := inv_of_reg_nil rfl

/-- What an operation does to `REG` and `PHASE`: it appends, nothing when frozen, and only `FREEZE` sets the phase. -/
theorem serve_appends {o : Operation} {s t : State} (h : serve o s = .next t) :
    (∃ added, t.reg = s.reg ++ added ∧ (s.phase = .frozen → added = [])) ∧
      (t.phase = s.phase ∨ (o = .freeze ∧ t.phase = .frozen)) := by
  obtain ⟨r, rfl⟩ | ⟨u, -, ha, rfl⟩ | ⟨_, _, added, r, -, rfl, hfrozen, -⟩ | ⟨rfl, rfl⟩ := serve_cases h
  · exact ⟨⟨[], (List.append_nil _).symm, fun _ => rfl⟩, .inl rfl⟩
  · obtain ⟨hload, -⟩ := tryAdd_ok ha
    exact ⟨⟨[u], rfl, fun hf => by rw [hload] at hf; cases hf⟩, .inl rfl⟩
  · exact ⟨⟨added, rfl, hfrozen⟩, .inl rfl⟩
  · exact ⟨⟨[], (List.append_nil _).symm, fun _ => rfl⟩, .inr ⟨rfl, rfl⟩⟩

/-- The same for a step whose request is no reset. -/
theorem step_appends {s t : State} (h : step s = .next t) (hq : s.requests.head? ≠ some .reset) :
    (∃ added, t.reg = s.reg ++ added ∧ (s.phase = .frozen → added = [])) ∧
      (t.phase = s.phase ∨ (s.requests.head? = some (.op .freeze) ∧ t.phase = .frozen)) := by
  obtain ⟨-, rfl⟩ | ⟨q, rest, hs, ⟨o, rfl, ho⟩ | ⟨w, r, -, rfl⟩ | ⟨rfl, -⟩⟩ := step_cases h
  · exact ⟨⟨[], (List.append_nil _).symm, fun _ => rfl⟩, .inl rfl⟩
  · rw [hs]
    exact (serve_appends ho).imp_right (Or.imp_right fun ⟨hfreeze, hphase⟩ => ⟨by rw [hfreeze]; rfl, hphase⟩)
  · exact ⟨⟨[], (List.append_nil _).symm, fun _ => rfl⟩, .inl rfl⟩
  · exact absurd (by rw [hs]; rfl) hq

/-- Settles O18: a step but a reset appends. -/
theorem templatesAreInsertOnce : Obligations.TemplatesAreInsertOnce := by
  intro s t h hq
  obtain ⟨⟨added, hreg, -⟩, -⟩ := step_appends h hq
  exact ⟨added, hreg.symm⟩

/-- Settles O19: a step but a reset appends nothing when frozen, and sets the phase only for `FREEZE`. -/
theorem frozenRegistriesNeverChange : Obligations.FrozenRegistriesNeverChange := by
  intro s t h hq
  obtain ⟨⟨added, hreg, hnone⟩, hphase⟩ := step_appends h hq
  refine ⟨fun hf => ⟨?_, ?_⟩, fun hl hf => ?_⟩
  · rw [hreg, hnone hf, List.append_nil]
  · exact hphase.elim (·.trans hf) (·.2)
  · refine hphase.elim (fun hsame => ?_) (·.1)
    rw [hsame, hl] at hf
    cases hf

/-! ### One step -/

/-- Settles O9: a row answers and does nothing else. -/
theorem rowsLeaveTheCodecUnchanged : Obligations.RowsLeaveTheCodecUnchanged := by
  intro i s t h
  obtain ⟨r, rfl⟩ := exec_next h
  exact ⟨rfl, rfl, rfl, rfl⟩

/-- Settles O10, as `step_instr` says. -/
theorem stepRunsTheDecodedInstruction : Obligations.StepRunsTheDecodedInstruction :=
  fun _ _ _ _ hq hi => step_instr hq hi

theorem step_of_cons {s : State} {q : Request} {rest : List Request} (hq : s.requests = q :: rest) :
    step s = take q (s.withRequests rest) := by
  rw [step, hq]

theorem step_of_nil {s : State} (hq : s.requests = []) : step s = .next s := by
  rw [step, hq]

theorem runWord_of_err {w : Word} {s : State} {e : CodecError} (h : decodeIn s.reg w = .err e) :
    runWord w s = failed s e := by
  rw [runWord, h]
  rfl

/-- Settles O11: the request at the head of the queue is taken. -/
theorem stepTakesTheOldestRequest : Obligations.StepTakesTheOldestRequest :=
  ⟨fun _ _ _ hq => step_of_cons hq, fun _ _ _ _ hq hd => (step_of_cons hq).trans (runWord_of_err hd),
    fun _ hq => step_of_nil hq⟩

/-- Settles O12: the request taken is the reset event. -/
theorem resetEmptiesTheRegistry : Obligations.ResetEmptiesTheRegistry := fun _ _ hq => step_of_cons hq

/-! ### An empty Registry -/

theorem bindTokens_of_lookup_none {reg : List Template} {m : Text} (h : lookup reg m = none) (tokens : List Int) :
    bindTokens reg m tokens = .err .unknownMnemonic := by
  rw [bindTokens, h]

/-- Settles O13: in an empty Registry a lookup finds no template and a search no candidate. -/
theorem afterResetNothingIsKnown : Obligations.AfterResetNothingIsKnown := by
  refine ⟨⟨rfl, rfl⟩, fun s hs => ?_⟩
  have hbind (m : Text) (tokens : List Int) : bindTokens s.reg m tokens = .err .unknownMnemonic :=
    bindTokens_of_lookup_none (by rw [hs]; rfl) tokens
  refine ⟨fun m tokens => ?_, fun w => ?_, fun i => ?_⟩
  · rw [serve, opBind, hbind]; rfl
  · rw [serve, opDecodeS, hs]; rfl
  · rw [exec_eq_runSymbolic, runSymbolic, dataFlow, hbind]; rfl

/-! ### What the encoder reads, refuses and writes -/

/-- The legal values of a format's operand kinds are the token lists of the table of R107. -/
theorem accepted_of_legalValues {f : Format} {vs : List Int} (h : legalValues (operandKinds f) vs = true) :
    accepted f vs := by
  cases f <;> simp only [operandKinds] at h
  case R =>
    obtain ⟨a, b, c, rfl, ha, hb, hc⟩ := legalValues_three h
    exact ⟨(legalValue_rd a).1 ha, (legalValue_rs1 b).1 hb, (legalValue_rs2 c).1 hc⟩
  case I =>
    obtain ⟨a, b, c, rfl, ha, hb, hc⟩ := legalValues_three h
    exact ⟨(legalValue_rd a).1 ha, (legalValue_rs1 b).1 hb, (legalValue_imm12 c).1 hc⟩
  case S =>
    obtain ⟨a, b, c, rfl, ha, hb, hc⟩ := legalValues_three h
    exact ⟨(legalValue_rs1 a).1 ha, (legalValue_rs2 b).1 hb, (legalValue_imm12 c).1 hc⟩
  case B =>
    obtain ⟨a, b, c, rfl, ha, hb, hc⟩ := legalValues_three h
    rw [legalValue_even12] at hc
    exact ⟨(legalValue_rs1 a).1 ha, (legalValue_rs2 b).1 hb, by omega⟩
  case U =>
    obtain ⟨a, b, rfl, ha, hb⟩ := legalValues_two h
    exact ⟨(legalValue_rd a).1 ha, (legalValue_imm20 b).1 hb⟩
  case J =>
    obtain ⟨a, b, rfl, ha, hb⟩ := legalValues_two h
    rw [legalValue_even20] at hb
    exact ⟨(legalValue_rd a).1 ha, by omega⟩

/-- Settles O32: a valid bound instruction has the kinds of its format and values of the table of R107. -/
theorem encodeRefusesInvalidBoundInstructions : Obligations.EncodeRefusesInvalidBoundInstructions := by
  intro s t ops h
  have hv : ¬ validBound ⟨t, ops⟩ = true := fun hv =>
    h (((validBound_iff _).1 hv).imp_right accepted_of_legalValues)
  rw [serve, opEncode, encodeBound, if_neg hv]
  rfl

theorem required3_iff (f : Format) : required3 f = true ↔ f = .R ∨ f = .I ∨ f = .S ∨ f = .B := by
  cases f <;> decide

theorem required7_iff (f : Format) : required7 f = true ↔ f = .R := by
  cases f <;> decide

/-- Packing reads the format, the opcode and the funct values the format requires. -/
theorem packWord_congr {t u : Template} (hf : t.format = u.format) (hop : t.opcode = u.opcode)
    (h3 : required3 t.format = true → t.funct3 = u.funct3) (h7 : required7 t.format = true → t.funct7 = u.funct7)
    (vs : List Int) : packWord t vs = packWord u vs := by
  obtain ⟨_, _, f, _, _⟩ := t
  obtain ⟨_, _, _, _, _⟩ := u
  cases hf
  cases hop
  cases f
  case R => cases h3 rfl; cases h7 rfl; rfl
  case I | S | B => cases h3 rfl; rcases vs with _ | ⟨_, _ | ⟨_, _ | ⟨_, _ | ⟨_, _⟩⟩⟩⟩ <;> rfl
  case U | J => rcases vs with _ | ⟨_, _ | ⟨_, _ | ⟨_, _⟩⟩⟩ <;> rfl

/-- Settles O34: validity reads the format alone, and packing what `packWord_congr` says. -/
theorem encodingIgnoresMnemonicAndSurplusFuncts : Obligations.EncodingIgnoresMnemonicAndSurplusFuncts := by
  intro t u ops hf hop h3 h7
  have hvalid : validBound ⟨t, ops⟩ = validBound ⟨u, ops⟩ := by rw [validBound, validBound, hf]
  have hpack := packWord_congr hf hop (fun h => h3 ((required3_iff _).1 h)) (fun h => h7 ((required7_iff _).1 h))
    (ops.map (·.value))
  rw [encodeBound, encodeBound, hvalid, hpack]

/-- The sum of the field writes of a bound instruction's layout table, each at its place (R46 to R52). -/
def layoutSum (bi : BoundInstruction) : Int :=
  ((layout bi.template.format).map fun f => sourceNumber bi f.source * 2 ^ f.lo).sum

section
variable {t : Template} {f7 : BitVec 7} {f3 : BitVec 3} {rd rs1 rs2 imm : Int}

theorem layoutSum_R (hf : t.format = .R) (h7 : t.funct7 = some f7) (h3 : t.funct3 = some f3) :
    layoutSum ⟨t, boundOperands .R [rd, rs1, rs2]⟩ = numberR f7.toNat f3.toNat t.opcode.toNat rd rs1 rs2 := by
  simp [layoutSum, layout, sourceNumber, operandValue, boundOperands, operandKinds, numberR, hf, h7, h3]
  ring

theorem layoutSum_I (hf : t.format = .I) (h3 : t.funct3 = some f3) :
    layoutSum ⟨t, boundOperands .I [rd, rs1, imm]⟩ = numberI f3.toNat t.opcode.toNat rd rs1 imm := by
  simp [layoutSum, layout, sourceNumber, operandValue, boundOperands, operandKinds, numberI, hf, h3]
  ring

theorem layoutSum_S (hf : t.format = .S) (h3 : t.funct3 = some f3) :
    layoutSum ⟨t, boundOperands .S [rs1, rs2, imm]⟩ = numberS f3.toNat t.opcode.toNat rs1 rs2 imm := by
  simp [layoutSum, layout, sourceNumber, operandValue, boundOperands, operandKinds, numberS, hf, h3]
  ring

theorem layoutSum_B (hf : t.format = .B) (h3 : t.funct3 = some f3) :
    layoutSum ⟨t, boundOperands .B [rs1, rs2, imm]⟩ = numberB f3.toNat t.opcode.toNat rs1 rs2 imm := by
  simp [layoutSum, layout, sourceNumber, operandValue, boundOperands, operandKinds, numberB, hf, h3]
  ring

theorem layoutSum_U (hf : t.format = .U) :
    layoutSum ⟨t, boundOperands .U [rd, imm]⟩ = numberU t.opcode.toNat rd imm := by
  simp [layoutSum, layout, sourceNumber, operandValue, boundOperands, operandKinds, numberU, hf]
  ring

theorem layoutSum_J (hf : t.format = .J) :
    layoutSum ⟨t, boundOperands .J [rd, imm]⟩ = numberJ t.opcode.toNat rd imm := by
  simp [layoutSum, layout, sourceNumber, operandValue, boundOperands, operandKinds, numberJ, hf]
  ring

end

theorem wordOf_toNat {n : Int} (h : 0 ≤ n ∧ n < 2 ^ 32) : ((wordOf n).toNat : Int) = n := by
  rw [wordOf, trunc_toNat]
  omega

/-- A template that lacks no funct value has those its format requires. -/
theorem functs_of_not_missing {t : Template} (h : missingFunct t = false) :
    (required3 t.format = true → ∃ f3, t.funct3 = some f3) ∧ (required7 t.format = true → ∃ f7, t.funct7 = some f7) := by
  rw [missingFunct, Bool.or_eq_false_iff] at h
  simpa [Option.isSome_iff_exists] using h

/-- The field writes of a word add up to it, format by format as in R111 to R116. -/
theorem packWord_toNat {t : Template} {vs : List Int} {w : Word} (hm : missingFunct t = false)
    (hv : accepted t.format vs) (hw : packWord t vs = .ok w) :
    (w.toNat : Int) = layoutSum ⟨t, boundOperands t.format vs⟩ := by
  obtain ⟨h3, h7⟩ := functs_of_not_missing hm
  generalize hf : t.format = f at hv
  unfold accepted at hv
  split at hv
  case h_1 rd rs1 rs2 =>
    obtain ⟨f7, h7⟩ := h7 (by rw [hf]; rfl)
    obtain ⟨f3, h3⟩ := h3 (by rw [hf]; rfl)
    cases (packWord_R hf h7 h3 hv).symm.trans hw
    rw [layoutSum_R hf h7 h3, wordOf_toNat (by rw [numberR]; omega)]
  case h_2 rd rs1 imm =>
    obtain ⟨f3, h3⟩ := h3 (by rw [hf]; rfl)
    cases (packWord_I hf h3 hv).symm.trans hw
    rw [layoutSum_I hf h3, wordOf_toNat (by rw [numberI]; omega)]
  case h_3 rs1 rs2 imm =>
    obtain ⟨f3, h3⟩ := h3 (by rw [hf]; rfl)
    cases (packWord_S hf h3 hv).symm.trans hw
    rw [layoutSum_S hf h3, wordOf_toNat (by rw [numberS]; omega)]
  case h_4 rs1 rs2 imm =>
    obtain ⟨f3, h3⟩ := h3 (by rw [hf]; rfl)
    cases (packWord_B hf h3 hv).symm.trans hw
    rw [layoutSum_B hf h3, wordOf_toNat (by rw [numberB]; omega)]
  case h_5 rd imm =>
    cases (packWord_U hf hv).symm.trans hw
    rw [layoutSum_U hf, wordOf_toNat (by rw [numberU]; omega)]
  case h_6 rd imm =>
    cases (packWord_J hf hv).symm.trans hw
    rw [layoutSum_J hf, wordOf_toNat (by rw [numberJ]; omega)]
  case h_7 => exact hv.elim

/-- Settles O25: only a valid bound instruction is packed, and of its values `packWord_toNat` gives the sum. -/
theorem encoderWritesTheLayoutTables : Obligations.EncoderWritesTheLayoutTables := by
  rintro ⟨t, ops⟩ w h
  obtain ⟨-, e⟩ | ⟨-, -, e⟩ | ⟨hv, hm, -⟩ := encodeBound_cases ⟨t, ops⟩
  · rw [e] at h; cases h
  · rw [e] at h; cases h
  · obtain ⟨hkinds, hlegal⟩ := (validBound_iff _).1 hv
    rw [encodeBound_of_valid hv] at h
    have hsum := packWord_toNat hm (accepted_of_legalValues hlegal) h
    rwa [boundOperands_of_kinds hkinds] at hsum

/-! ### Parsed templates, and the views -/

/-- The two spellings of R15 in the model: well-formed is lacking no required funct value. -/
theorem wellFormed_eq_not_missing (t : Template) : t.wellFormed = !missingFunct t := by
  simp [Template.wellFormed, missingFunct]

/-- The claims' table of R15 is the model's. -/
theorem lacksFunct_iff (t : Template) : lacksFunct t ↔ missingFunct t = true := by
  obtain ⟨_, _, f, f3, f7⟩ := t
  cases f <;> simp [lacksFunct, missingFunct, required3, required7]

/-- Settles O52: a line answered with a template was parsed to that template. -/
theorem parsedTemplatesAreWellFormed : Obligations.ParsedTemplatesAreWellFormed := by
  intro s line t h
  rw [serve, opParseLine] at h
  cases hp : parseTemplate line with
  | error r => rw [hp] at h; cases respond_inj.1 h
  | ok u =>
    rw [hp] at h
    cases respond_inj.1 h
    have hw := parseTemplate_wellFormed hp
    rw [wellFormed_eq_not_missing, Bool.not_eq_true'] at hw
    rw [lacksFunct_iff, hw]
    exact Bool.false_ne_true

theorem formatTag_toNat (f : Format) : (formatTag f).toNat = tagNumber f := by cases f <;> rfl

theorem formatOfTag_formatTag (f : Format) : formatOfTag (formatTag f) = some f := by cases f <;> rfl

/-- Settles O59: an entry is the template of its index, its tag one that reads back. -/
theorem entriesShowTheRegistry : Obligations.EntriesShowTheRegistry := by
  refine fun reg k => ⟨by simp [entryValid, entryAt], fun t ht => ⟨entryOf t, by rw [entryAt, ht]; rfl, ?_⟩⟩
  exact ⟨rfl, rfl, formatTag_toNat _, formatOfTag_formatTag _, rfl, rfl, rfl, rfl⟩

/-- Everything a request performed on codec `k` does to a system. -/
theorem perform_eq_some {sys sys' : System} {k : Nat} {r : Request} (h : sys.perform k r = some sys') :
    ∃ s t, sys[k]? = some s ∧ take r s = .next t ∧ sys' = sys.set k t := by
  rw [System.perform] at h
  split at h
  case h_1 => cases h
  case h_2 s hs =>
    split at h
    case h_1 t ht => cases h; exact ⟨s, t, hs, ht, rfl⟩
    case h_2 | h_3 => cases h

/-- Settles O60: setting one index of the list leaves the others. -/
theorem instancesShareNothing : Obligations.InstancesShareNothing := by
  intro sys sys' k r h
  obtain ⟨s, t, hs, ht, rfl⟩ := perform_eq_some h
  obtain ⟨hk, -⟩ := List.getElem?_eq_some_iff.1 hs
  exact ⟨⟨s, t, hs, ht, List.getElem?_set_self hk⟩, fun j hj => List.getElem?_set_ne hj.symm⟩

end Sys2Proof.Proofs
end

section
/-! PROOFS. The statement on the Registry as a memory: an accepted `ADD` is seen by the next `LOOKUP`. -/

namespace Sys2Proof.Proofs

open Sys2Proof.Machine Sys2Proof.Claims

/-! ### A Registry with one template more -/

/-- A mnemonic new to the Registry looks up the template appended under it. -/
theorem lookup_concat_self {reg : List Template} {u : Template} (hnew : ∀ v ∈ reg, v.mnemonic ≠ u.mnemonic) :
    lookup (reg ++ [u]) u.mnemonic = some u := by
  rw [lookup_append, (lookup_eq_none_iff _ _).2 hnew, Option.none_or]
  exact lookup_of_mem (reg := [u]) (List.nodup_singleton _) List.mem_cons_self

/-- An appended template changes no other mnemonic's lookup. -/
theorem lookup_concat_ne (reg : List Template) {u : Template} {m : Text} (hm : m ≠ u.mnemonic) :
    lookup (reg ++ [u]) m = lookup reg m := by
  have hnone : lookup [u] m = none := (lookup_eq_none_iff _ _).2 (List.forall_mem_singleton.2 hm.symm)
  rw [lookup_append, hnone, Option.or_none]

/-- Everything an `ADD` that ended in `Ok` did: the mnemonic was new, and the Registry has one template more. -/
theorem serve_add_ok {s t : State} {u : Template} (h : serve (.add u) s = .next t)
    (hok : t.response = some (.done (.ok .unit))) :
    (∀ v ∈ s.reg, v.mnemonic ≠ u.mnemonic) ∧ t.reg = s.reg ++ [u] := by
  rw [serve, opAdd] at h
  cases ha : tryAdd s u with
  | ok s' =>
    rw [ha] at h
    obtain ⟨-, hnew, -, -, rfl⟩ := tryAdd_ok ha
    exact ⟨hnew, by rw [respond_eq_next h]; rfl⟩
  | err e => rw [ha] at h; rw [respond_eq_next h] at hok; cases hok
  | refused r => rw [ha] at h; rw [respond_eq_next h] at hok; cases hok

/-- Settles O49: an accepted `ADD` appends its template under a new mnemonic. -/
theorem addedTemplatesAreVisible : Obligations.AddedTemplatesAreVisible := by
  intro s t u h hok
  obtain ⟨hnew, hreg⟩ := serve_add_ok h hok
  rw [hreg]
  refine ⟨?_, fun m hm => lookup_concat_ne s.reg hm⟩
  rw [serve, opLookup, hreg, lookup_concat_self hnew]
  rfl

end Sys2Proof.Proofs
end

section
/-! PROOFS. The statements on the encoding: decoding and encoding undo each other, a template's match is a masked
comparison, the binder accepts exactly the legal operands, and the layout tables cover a word. -/

namespace Sys2Proof.Proofs

open Sys2Proof.Machine Sys2Proof.Claims

/-! ### Decode after encode -/

/-- A word an instruction encodes to is claimed by the template of its mnemonic, and reads back under it as the
instruction, if that is in its own row's spelling. -/
theorem template_of_encodeIn {reg : List Template} {i : Instr} {w : Word} (hi : i.canonical = true)
    (h : encodeIn reg i = some w) : ∃ t ∈ candidates reg w, instrOf t w = i := by
  obtain ⟨t, ht, hf, hl, hp⟩ := encodeIn_eq_some_iff.1 h
  obtain ⟨hmem, hm⟩ := lookup_some ht
  obtain ⟨-, he⟩ | ⟨-, x, hx, hmatch, hu⟩ := packWord_cases hl
  · rw [he] at hp; cases hp
  · rw [hx, Result.ok.injEq] at hp
    subst hp
    have hform := instrOf_is t x
    rw [hm, hu] at hform
    exact ⟨t, mem_candidates.2 ⟨hmem, hmatch⟩, Instr.is_unique hform ⟨rfl, hf.symm, rfl, hi⟩⟩

theorem wellFormed_iff (i : Instr) : i.wellFormed = true ↔
    legalValues (operandKinds i.format) i.tokens = true ∧ i.canonical = true := Bool.and_eq_true_iff

/-- Settles O21: the one candidate is the template of the instruction's mnemonic. -/
theorem anyInstructionDecodesAfterEncode : Obligations.AnyInstructionDecodesAfterEncode := by
  intro reg i w hi h hone
  obtain ⟨-, hcanonical⟩ := (wellFormed_iff i).1 hi
  obtain ⟨t, ht, rfl⟩ := template_of_encodeIn hcanonical h
  obtain ⟨u, hu⟩ := List.length_eq_one_iff.1 hone
  rw [hu, List.mem_singleton] at ht
  exact decodeIn_of_candidates (ht ▸ hu)

/-- A well-formed instruction with a row of its own has a word by the reference catalog. -/
theorem encode_of_hasOwnRow {i : Instr} (hi : i.wellFormed = true) (hrow : hasOwnRow i.format i.mnemonic = true) :
    ∃ w, encode i = some w := by
  obtain ⟨t, ht, hf⟩ := lookup_of_hasOwnRow hrow
  obtain ⟨hl, -⟩ := (wellFormed_iff i).1 hi
  rw [← hf] at hl
  obtain ⟨hmiss, -⟩ | ⟨-, w, hw, -⟩ := packWord_cases hl
  · rw [referenceCatalog_funct t (lookup_some ht).1] at hmiss; cases hmiss
  · exact ⟨w, encodeIn_eq_some_iff.2 ⟨t, ht, hf, hl, hw⟩⟩

/-- Settles O20: the templates of the reference catalog are pairwise apart, so the word has no other candidate. -/
theorem tableInstructionsDecodeAfterEncode : Obligations.TableInstructionsDecodeAfterEncode := by
  intro i hi hrow
  obtain ⟨w, hw⟩ := encode_of_hasOwnRow hi hrow
  obtain ⟨-, hcanonical⟩ := (wellFormed_iff i).1 hi
  obtain ⟨t, ht, rfl⟩ := template_of_encodeIn hcanonical hw
  obtain ⟨hmem, hmatch⟩ := mem_candidates.1 ht
  have hd := decodeIn_of_candidates (candidates_of_apart referenceCatalog_apart hmem hmatch)
  exact ⟨w, hw, by rw [decodeTableWord, tableWord_32, BitVec.ofNat_toNat, BitVec.setWidth_eq, hd]⟩

/-! ### Encode after decode -/

/-- Settles O22: the one candidate is what the instruction's mnemonic looks up, and it packs the word's own fields. -/
theorem anyInstructionEncodesAfterDecode : Obligations.AnyInstructionEncodesAfterDecode := by
  intro reg w i hd h
  obtain ⟨t, hc, rfl⟩ := decodeIn_eq_ok h
  obtain ⟨hmem, hmatch⟩ := mem_candidates.1 (hc ▸ List.mem_singleton_self t)
  obtain ⟨hm, hf, hv, -⟩ := instrOf_is t w
  refine ⟨encodeIn_eq_some_iff.2 ⟨t, ?_, hf.symm, ?_, ?_⟩, instrOf_wellFormed t w⟩
  · rw [hm, lookup_of_mem hd hmem]
  · rw [hv, unpackValues_legal]
  · rw [hv, packWord_unpackValues hmatch]

/-! ### Matching -/

theorem templateMask_eq (f : Format) : templateMask f = BitVec.ofNat 32 (maskOf f) := by cases f <;> rfl

theorem and_templateMask_toNat (w : Word) (f : Format) : (w &&& templateMask f).toNat = w.toNat &&& maskOf f := by
  rw [BitVec.toNat_and]
  cases f <;> rfl

section
variable (f7 : BitVec 7) (f3 : BitVec 3) (op : BitVec 7)

theorem fixed_R_toNat : (f7 ++ (0 : BitVec 10) ++ f3 ++ (0 : BitVec 5) ++ op : Word).toNat =
    f7.toNat * 2 ^ 25 + f3.toNat * 2 ^ 12 + op.toNat := by
  simp only [append_toNat, BitVec.ofNat_eq_ofNat, BitVec.toNat_ofNat]
  omega

theorem fixed_ISB_toNat : ((0 : BitVec 17) ++ f3 ++ (0 : BitVec 5) ++ op : Word).toNat =
    f3.toNat * 2 ^ 12 + op.toNat := by
  simp only [append_toNat, BitVec.ofNat_eq_ofNat, BitVec.toNat_ofNat]
  omega

theorem fixed_UJ_toNat : ((0 : BitVec 25) ++ op : Word).toNat = op.toNat := by
  simp only [append_toNat, BitVec.ofNat_eq_ofNat, BitVec.toNat_ofNat]
  omega

end

/-- The match value of a template is the number of the table of R66. -/
theorem templateMatch_toNat {t : Template} {v : Word} (h : templateMatch t = some v) : v.toNat = matchNumber t := by
  obtain ⟨_, op, f, f3, f7⟩ := t
  cases f
  case R =>
    cases f3 <;> cases f7 <;> cases h
    exact fixed_R_toNat _ _ op
  case I | S | B =>
    cases f3 <;> cases h
    exact fixed_ISB_toNat _ op
  case U | J =>
    cases h
    exact fixed_UJ_toNat op

/-- Settles O38: `match_cases`, with the mask and the match value as the numbers of the table. -/
theorem matchingIsMaskAndCompare : Obligations.MatchingIsMaskAndCompare := by
  intro t w
  rw [lacksFunct_iff]
  obtain ⟨hmiss, hnone, hno⟩ | ⟨hmiss, v, hv, hiff⟩ := match_cases t
  · exact ⟨fun h => absurd hmiss h, fun _ => ⟨hnone, hno w⟩⟩
  · refine ⟨fun _ => ⟨templateMask_eq _, ?_, ?_⟩, fun h => by rw [hmiss] at h; cases h⟩
    · rw [hv, ← templateMatch_toNat hv, BitVec.ofNat_toNat, BitVec.setWidth_eq]
    · rw [hiff, ← BitVec.toNat_inj, and_templateMask_toNat, templateMatch_toNat hv]

/-! ### The binder -/

/-- `BIND` answers a bound instruction exactly when the binder does. -/
theorem serve_bind_eq_answered {s : State} {m : Text} {tokens : List Int} {bi : BoundInstruction} :
    serve (.bind m tokens) s = answered s (.bound bi) ↔ bindTokens s.reg m tokens = .ok bi := by
  rw [serve, opBind]
  refine respond_inj.trans ?_
  cases bindTokens s.reg m tokens <;> simp [Result.andThen]

/-- Settles O47: the binder answers what it does for legal values only, and pairs them with the format's kinds. -/
theorem bindAcceptsExactlyTheTable : Obligations.BindAcceptsExactlyTheTable := by
  intro s m t tokens ht
  simp only [serve_bind_eq_answered]
  have hok {bi : BoundInstruction} (h : bindTokens s.reg m tokens = .ok bi) :
      legalValues (operandKinds t.format) tokens = true ∧ bi = ⟨t, boundOperands t.format tokens⟩ := by
    obtain ⟨u, hu, hl, rfl⟩ := bindTokens_eq_ok h
    cases ht.symm.trans hu
    exact ⟨hl, rfl⟩
  refine ⟨⟨fun h => ⟨_, bindTokens_of_legal ht (legalValues_of_accepted h)⟩, ?_⟩, ?_⟩
  · rintro ⟨bi, h⟩
    exact accepted_of_legalValues (hok h).1
  · intro bi h
    obtain ⟨hl, rfl⟩ := hok h
    have hlen := legalValues_length hl
    exact ⟨rfl, boundOperands_kinds _ hlen, boundOperands_values _ hlen⟩

/-! ### The layout tables -/

/-- Settles O24, table by table. -/
theorem layoutsWriteEveryBitOnce : Obligations.LayoutsWriteEveryBitOnce := by
  intro f
  cases f <;> decide

end Sys2Proof.Proofs
end

section
/-! PROOFS. The statements on the Catalog Parser: the check that decides a line's reason, and the line of a template read
back. -/

namespace Sys2Proof.Proofs

open Sys2Proof.Machine Sys2Proof.Claims

/-! ### The claims' grammar is the parser's -/

theorem isBinary_iff_digitString (x : Text) (n : Nat) : isBinary x n = true ↔ digitString n x := isBinary_iff x n

theorem functPayload_isSome_iff {opening : Text} {n : Nat} {x : Text} : (functPayload opening n x).isSome = true ↔
    ∃ digits, digitString n digits ∧ x = opening ++ digits ++ ascii ")" := by
  rw [Option.isSome_iff_exists]
  constructor
  · rintro ⟨v, hv⟩
    obtain ⟨digits, hd, hx, -⟩ := functPayload_iff.1 hv
    exact ⟨digits, (isBinary_iff_digitString _ _).1 hd, hx⟩
  · rintro ⟨digits, hd, hx⟩
    exact ⟨_, functPayload_iff.2 ⟨digits, (isBinary_iff_digitString _ _).2 hd, hx, rfl⟩⟩

theorem formatOfLetter_letterOf (f : Format) : formatOfLetter (letterOf f) = some f := by cases f <;> decide

theorem formatOfLetter_eq_none {letter : Text} (h : ∀ f, letter ≠ letterOf f) : formatOfLetter letter = none := by
  obtain ⟨hn, -⟩ | ⟨e, -⟩ | ⟨e, -⟩ | ⟨e, -⟩ | ⟨e, -⟩ | ⟨e, -⟩ | ⟨e, -⟩ := formatOfLetter_cases letter
  · exact hn
  · exact absurd e (h .R)
  · exact absurd e (h .I)
  · exact absurd e (h .S)
  · exact absurd e (h .B)
  · exact absurd e (h .U)
  · exact absurd e (h .J)

/-- The fields after the format letter, read from the start: refused where they are no good, and otherwise read to a
funct value for each field that is there (R78). -/
theorem parseFuncts_from_start (xs : List Text) :
    (¬ goodFuncts xs ∧ parseFuncts xs none none = none) ∨
      (goodFuncts xs ∧ ∃ f3 f7, parseFuncts xs none none = some (f3, f7) ∧
        (f3.isSome = true ↔ ∃ x ∈ xs, funct3Text x) ∧ (f7.isSome = true ↔ ∃ x ∈ xs, funct7Text x)) := by
  have h := parseFuncts_cases xs none none
  simp only [functPayload_isSome_iff, Option.isSome_none, Bool.false_eq_true, false_imp_iff, false_or, and_true] at h
  exact h

/-- The funct values a line holds are missing none exactly when the required funct fields are there (R79). -/
theorem missingFunct_eq_false_iff {t : Template} {xs : List Text}
    (h3 : t.funct3.isSome = true ↔ ∃ x ∈ xs, funct3Text x)
    (h7 : t.funct7.isSome = true ↔ ∃ x ∈ xs, funct7Text x) :
    missingFunct t = false ↔ requiredThere t.format xs := by
  rw [requiredThere, ← h3, ← h7, ← required3_iff, ← required7_iff, missingFunct]
  cases required3 t.format <;> cases required7 t.format <;> simp

/-! ### The five checks of a line -/

section
variable {line m op letter : Text} {functs : List Text} {f : Format}

/-- A line cut into the fields between its commas (R74). -/
theorem splitAndTrim_intercalate {fields : List Text} (hne : fields ≠ []) (hcomma : ∀ x ∈ fields, comma ∉ x) :
    splitAndTrim (List.intercalate [comma] fields) = fields.map trim := by
  rw [splitAndTrim, cutAtCommas_intercalate hne hcomma]

theorem parseTemplate_of_few_fields (h : (splitAndTrim line).length < 3) :
    parseTemplate line = .error .tooFewFields := by
  rw [parseTemplate]
  split
  · rename_i hs
    rw [hs] at h
    simp only [List.length_cons] at h
    omega
  · rfl

theorem parseTemplate_of_bad_opcode (hs : splitAndTrim line = m :: op :: letter :: functs) (ho : ¬ digitString 7 op) :
    parseTemplate line = .error .badOpcodeLength := by
  rw [← isBinary_iff_digitString, Bool.not_eq_true] at ho
  simp [parseTemplate, hs, ho]

theorem parseTemplate_of_no_letter (hs : splitAndTrim line = m :: op :: letter :: functs) (ho : digitString 7 op)
    (hl : ∀ f, letter ≠ letterOf f) : parseTemplate line = .error .unknownFormat := by
  rw [← isBinary_iff_digitString] at ho
  simp [parseTemplate, hs, ho, formatOfLetter_eq_none hl]

theorem parseTemplate_of_bad_functs (hs : splitAndTrim line = m :: op :: letterOf f :: functs) (ho : digitString 7 op)
    (hf : parseFuncts functs none none = none) : parseTemplate line = .error .malformedFunct := by
  rw [← isBinary_iff_digitString] at ho
  simp [parseTemplate, hs, ho, formatOfLetter_letterOf, hf]

/-- A line whose fields can all be read holds a template, returned unless a required funct value is missing. -/
theorem parseTemplate_of_fields {f3 : Option (BitVec 3)} {f7 : Option (BitVec 7)}
    (hs : splitAndTrim line = m :: op :: letterOf f :: functs) (ho : digitString 7 op)
    (hf : parseFuncts functs none none = some (f3, f7)) :
    let t : Template := ⟨m, BitVec.ofNat 7 (binaryValue op), f, f3, f7⟩
    parseTemplate line = if missingFunct t = true then .error .missingRequiredFunct else .ok t := by
  intro t
  rw [← isBinary_iff_digitString] at ho
  cases hm : missingFunct t <;>
    simp [parseTemplate, hs, ho, formatOfLetter_letterOf, hf, wellFormed_eq_not_missing, t, hm]

end

theorem serve_parseLine_error {line : Text} {r : ParseReason} (h : parseTemplate line = .error r) (s : State) :
    serve (.parseLine line) s = failed s (.catalogParse r) := by
  rw [serve, opParseLine, h]
  rfl

theorem serve_parseLine_ok {line : Text} {t : Template} (h : parseTemplate line = .ok t) (s : State) :
    serve (.parseLine line) s = answered s (.template t) := by
  rw [serve, opParseLine, h]
  rfl

/-- Settles O51: the line is cut into the given fields, and each check of the parser is the claim's condition on them. -/
theorem parseReportsTheFirstFailingCheck : Obligations.ParseReportsTheFirstFailingCheck := by
  intro s fields hne hcomma parsed
  have hsplit : splitAndTrim (List.intercalate [0x2C] fields) = fields.map trim := splitAndTrim_intercalate hne hcomma
  refine ⟨fun hfew => serve_parseLine_error (parseTemplate_of_few_fields (by rwa [hsplit, List.length_map])) s, ?_⟩
  intro m op letter functs hfields
  have hs := hsplit.trans hfields
  refine ⟨fun ho => serve_parseLine_error (parseTemplate_of_bad_opcode hs ho) s,
    fun ho hl => serve_parseLine_error (parseTemplate_of_no_letter hs ho hl) s, ?_⟩
  rintro ho f rfl
  obtain ⟨hbad, hf⟩ | ⟨hgood, f3, f7, hf, h3, h7⟩ := parseFuncts_from_start functs
  · exact ⟨fun _ => serve_parseLine_error (parseTemplate_of_bad_functs hs ho hf) s,
      fun hgood => absurd hgood hbad, fun hgood => absurd hgood hbad⟩
  · have hparse := parseTemplate_of_fields hs ho hf
    have hmissing := missingFunct_eq_false_iff (t := ⟨m, BitVec.ofNat 7 (binaryValue op), f, f3, f7⟩) h3 h7
    refine ⟨fun hbad => absurd hgood hbad, fun _ hlacks => ?_, fun _ hthere => ?_⟩
    · rw [← hmissing, Bool.not_eq_false] at hlacks
      exact serve_parseLine_error (hparse.trans (if_pos hlacks)) s
    · rw [← hmissing] at hthere
      exact ⟨_, serve_parseLine_ok (hparse.trans (if_neg (by simp [hthere]))) s, rfl, rfl⟩

/-! ### The line of a template -/

/-- `n + 1` digits are the upper `n` and the lowest. -/
theorem binaryDigits_succ (n v : Nat) :
    binaryDigits (n + 1) v = binaryDigits n (v / 2) ++ [if v.testBit 0 then 0x31 else 0x30] := by
  rw [binaryDigits, List.range_succ, List.map_append, binaryDigits]
  congr 1
  · refine List.map_congr_left fun k hk => ?_
    have hk := List.mem_range.1 hk
    rw [Nat.testBit_div_two, show n + 1 - 1 - k = n - 1 - k + 1 by omega]
  · simp

/-- The value of the digits of a number is the number (R73, R80). -/
theorem binaryValue_binaryDigits (n v : Nat) : binaryValue (binaryDigits n v) = v % 2 ^ n := by
  induction n generalizing v with
  | zero => simp [binaryDigits, binaryValue, Nat.mod_one]
  | succ n ih =>
    have hhigh := ih (v / 2)
    rw [binaryValue] at hhigh
    rw [binaryDigits_succ, binaryValue, List.foldl_append, hhigh, Nat.pow_succ']
    have hlow := Nat.mod_mul (x := v) (a := 2) (b := 2 ^ n)
    rcases Nat.mod_two_eq_zero_or_one v with h | h <;> simp [Nat.testBit_zero, h] <;> omega

theorem ofNat_binaryDigits {n : Nat} (x : BitVec n) : BitVec.ofNat n (binaryValue (binaryDigits n x.toNat)) = x := by
  rw [binaryValue_binaryDigits, Nat.mod_eq_of_lt x.isLt, BitVec.ofNat_toNat, BitVec.setWidth_eq]

theorem digitString_binaryDigits (n v : Nat) : digitString n (binaryDigits n v) := by
  refine ⟨by simp [binaryDigits], fun b hb => ?_⟩
  obtain ⟨k, -, rfl⟩ := List.mem_map.1 hb
  split
  · exact .inr rfl
  · exact .inl rfl

/-- A field without commas and white space: what every field of a template's line but the mnemonic is. -/
def plainField (x : Text) : Prop := ∀ b ∈ x, b ≠ comma ∧ isWhite b = false

theorem plainField_of_digitString {n : Nat} {x : Text} (h : digitString n x) : plainField x := by
  intro b hb
  rcases h.2 b hb with rfl | rfl <;> decide

theorem plainField_letterOf (f : Format) : plainField (letterOf f) := by
  cases f <;> (unfold plainField; decide)

theorem plainField_append {x y : Text} (hx : plainField x) (hy : plainField y) : plainField (x ++ y) :=
  fun b hb => (List.mem_append.1 hb).elim (hx b) (hy b)

/-- The funct3 field of a template's line, and below the funct7 field: what `functFields` writes for a value. -/
def funct3Field (f : BitVec 3) : Text := ascii "funct3(" ++ binaryDigits 3 f.toNat ++ ascii ")"

def funct7Field (f : BitVec 7) : Text := ascii "funct7(" ++ binaryDigits 7 f.toNat ++ ascii ")"

theorem functFields_funct3_first (t : Template) :
    functFields t false = t.funct3.toList.map funct3Field ++ t.funct7.toList.map funct7Field := rfl

theorem functFields_funct7_first (t : Template) :
    functFields t true = t.funct7.toList.map funct7Field ++ t.funct3.toList.map funct3Field := rfl

theorem plainField_funct3Field (f : BitVec 3) : plainField (funct3Field f) :=
  plainField_append (plainField_append (by unfold plainField; decide)
    (plainField_of_digitString (digitString_binaryDigits _ _))) (by unfold plainField; decide)

theorem plainField_funct7Field (f : BitVec 7) : plainField (funct7Field f) :=
  plainField_append (plainField_append (by unfold plainField; decide)
    (plainField_of_digitString (digitString_binaryDigits _ _))) (by unfold plainField; decide)

theorem plainField_functFields (t : Template) (funct7First : Bool) :
    ∀ x ∈ functFields t funct7First, plainField x := by
  have h3 : ∀ x ∈ t.funct3.toList.map funct3Field, plainField x :=
    List.forall_mem_map.2 fun f _ => plainField_funct3Field f
  have h7 : ∀ x ∈ t.funct7.toList.map funct7Field, plainField x :=
    List.forall_mem_map.2 fun f _ => plainField_funct7Field f
  cases funct7First with
  | false =>
    rw [functFields_funct3_first]
    exact List.forall_mem_append.2 ⟨h3, h7⟩
  | true =>
    rw [functFields_funct7_first]
    exact List.forall_mem_append.2 ⟨h7, h3⟩

/-- White space after the commas is white space in front of the fields after the first. -/
theorem intercalate_append_pad (sep pad x : Text) (xs : List Text) :
    List.intercalate (sep ++ pad) (x :: xs) = List.intercalate sep (x :: xs.map (pad ++ ·)) := by
  induction xs generalizing x with
  | nil => rw [List.map_nil, List.intercalate_singleton, List.intercalate_singleton]
  | cons y ys ih =>
    have happend (z : Text) (zs : List Text) :
        List.intercalate sep ((pad ++ z) :: zs) = pad ++ List.intercalate sep (z :: zs) := by
      cases zs <;> simp [List.intercalate_cons_cons]
    rw [List.intercalate_cons_cons, ih, List.map_cons, List.intercalate_cons_cons, happend]
    simp only [List.append_assoc]

/-- A line of a mnemonic and plain fields, with white space after the commas, is cut and trimmed to just these (R74). -/
theorem splitAndTrim_of_plain {m pad : Text} {xs : List Text} (hm : comma ∉ m) (htrim : trim m = m)
    (hpad : pad.all isWhite = true) (hxs : ∀ x ∈ xs, plainField x) :
    splitAndTrim (List.intercalate (ascii "," ++ pad) (m :: xs)) = m :: xs := by
  rw [intercalate_append_pad, show ascii "," = [comma] from rfl, splitAndTrim_intercalate (List.cons_ne_nil _ _)]
  · rw [List.map_cons, htrim, List.map_map, List.cons.injEq]
    refine ⟨rfl, (List.map_congr_left fun x hx => ?_).trans (List.map_id xs)⟩
    rw [Function.comp_apply, trim_append_of_white hpad, trim_of_no_white fun b hb => (hxs x hx b hb).2, id]
  · refine List.forall_mem_cons.2 ⟨hm, List.forall_mem_map.2 fun x hx hmem => ?_⟩
    rcases List.mem_append.1 hmem with hmem | hmem
    · exact absurd (List.all_eq_true.1 hpad _ hmem) (by decide)
    · exact (hxs x hx _ hmem).1 rfl

theorem functPayload_binaryDigits (opening : Text) {n : Nat} (x : BitVec n) :
    functPayload opening n (opening ++ binaryDigits n x.toNat ++ ascii ")") =
      some (binaryValue (binaryDigits n x.toNat)) :=
  functPayload_iff.2 ⟨_, (isBinary_iff_digitString _ _).2 (digitString_binaryDigits _ _), rfl, rfl⟩

theorem functPayload_funct3Field (f : BitVec 3) :
    functPayload (ascii "funct3(") 3 (funct3Field f) = some (binaryValue (binaryDigits 3 f.toNat)) :=
  functPayload_binaryDigits _ f

theorem functPayload_funct7Field (f : BitVec 7) :
    functPayload (ascii "funct7(") 7 (funct7Field f) = some (binaryValue (binaryDigits 7 f.toNat)) :=
  functPayload_binaryDigits _ f

theorem functPayload_3_funct7Field (f : BitVec 7) : functPayload (ascii "funct3(") 3 (funct7Field f) = none :=
  Option.eq_none_iff_forall_ne_some.2 fun _ h3 => functPayload_exclusive h3 (functPayload_funct7Field f)

/-- A funct3 field, where the template has a value, is read to that value (R78). -/
theorem parseFuncts_funct3 (f3 : Option (BitVec 3)) (f7 : Option (BitVec 7)) (xs : List Text) :
    parseFuncts (f3.toList.map funct3Field ++ xs) none f7 = parseFuncts xs f3 f7 := by
  cases f3 with
  | none => rfl
  | some f => simp [parseFuncts, functPayload_funct3Field, ofNat_binaryDigits]

/-- A funct7 field, where the template has a value, is read to that value (R78). -/
theorem parseFuncts_funct7 (f3 : Option (BitVec 3)) (f7 : Option (BitVec 7)) (xs : List Text) :
    parseFuncts (f7.toList.map funct7Field ++ xs) f3 none = parseFuncts xs f3 f7 := by
  cases f7 with
  | none => rfl
  | some f => simp [parseFuncts, functPayload_funct7Field, functPayload_3_funct7Field, ofNat_binaryDigits]

/-- The funct fields of a template, in either order, are read back (R78). -/
theorem parseFuncts_functFields (t : Template) (funct7First : Bool) :
    parseFuncts (functFields t funct7First) none none = some (t.funct3, t.funct7) := by
  rw [← List.append_nil (functFields t funct7First)]
  cases funct7First with
  | false => rw [functFields_funct3_first, List.append_assoc, parseFuncts_funct3, parseFuncts_funct7, parseFuncts]
  | true => rw [functFields_funct7_first, List.append_assoc, parseFuncts_funct7, parseFuncts_funct3, parseFuncts]

/-- Settles O53: the line's fields are read one by one, each to what the template has there. -/
theorem parseReadsTheGrammar : Obligations.ParseReadsTheGrammar := by
  intro s t pad funct7First hlacks hcomma htrim hpad
  have hplain : ∀ x ∈ binaryDigits 7 t.opcode.toNat :: letterOf t.format :: functFields t funct7First, plainField x :=
    List.forall_mem_cons.2 ⟨plainField_of_digitString (digitString_binaryDigits _ _),
      List.forall_mem_cons.2 ⟨plainField_letterOf _, plainField_functFields _ _⟩⟩
  have hparse := parseTemplate_of_fields (splitAndTrim_of_plain hcomma htrim hpad hplain)
    (digitString_binaryDigits _ _) (parseFuncts_functFields t funct7First)
  rw [lacksFunct_iff] at hlacks
  rw [ofNat_binaryDigits] at hparse
  exact serve_parseLine_ok (hparse.trans (if_neg hlacks)) s

end Sys2Proof.Proofs
end

section
/-! PROOFS. The statements on `LOAD`: a catalog without defects loads whole, a strict load stops at its first failing line,
and a lenient load warns of each failing line and goes on. -/

namespace Sys2Proof.Proofs

open Sys2Proof.Machine Sys2Proof.Claims

/-! ### What an `ADD` and a line come to -/

section
variable {s : State} {u : Template}

theorem tryAdd_of_known (hp : s.phase = .load) (hknown : ∃ x ∈ s.reg, x.mnemonic = u.mnemonic) :
    tryAdd s u = .err .duplicateMnemonic := by
  rw [tryAdd, if_neg (by simp [hp]), if_pos ((lookup_isSome_iff _ _).2 hknown)]

/-- A new mnemonic within the bounds is taken (R89). -/
theorem tryAdd_of_room (hp : s.phase = .load) (hnew : ∀ x ∈ s.reg, x.mnemonic ≠ u.mnemonic)
    (hroom : s.cfg.cap ≠ some s.reg.length) (hfits : mnemonicFits s.cfg u.mnemonic = true) :
    tryAdd s u = .ok { s with reg := s.reg ++ [u] } := by
  obtain ⟨h, -⟩ | ⟨-, ⟨x, hx, h⟩, -⟩ | ⟨-, -, h, -⟩ | ⟨-, -, -, h, -⟩ | ⟨-, -, -, -, h⟩ := tryAdd_cases s u
  · simp [hp] at h
  · exact absurd h (hnew x hx)
  · exact absurd h hroom
  · simp [hfits] at h
  · exact h

/-- Why an `ADD` in the LOAD phase is refused: a new mnemonic, and `CAP` reached or the mnemonic too long (R89, U12). -/
theorem tryAdd_refused {r : RefusalReason} (h : tryAdd s u = .refused r) (hp : s.phase = .load) :
    (∀ x ∈ s.reg, x.mnemonic ≠ u.mnemonic) ∧
      ((s.cfg.cap = some s.reg.length ∧ r = .registryFull) ∨
        (s.cfg.cap ≠ some s.reg.length ∧ mnemonicFits s.cfg u.mnemonic = false ∧
          (r = .registryFrozen ∨ r = .registryFull))) := by
  obtain ⟨hf, -⟩ | ⟨-, -, e⟩ | ⟨-, hnew, hfull, e⟩ | ⟨-, hnew, hroom, hlong, e⟩ | ⟨-, -, -, -, e⟩ := tryAdd_cases s u
  · simp [hp] at hf
  · rw [e] at h; cases h
  · rw [e] at h; cases h; exact ⟨hnew, .inl ⟨hfull, rfl⟩⟩
  · rw [e] at h; cases h; exact ⟨hnew, .inr ⟨hroom, hlong, longMnemonicReason_cases s u⟩⟩
  · rw [e] at h; cases h

/-- A new mnemonic that finds `CAP` reached or is too long is refused (R89, U12). -/
theorem tryAdd_of_no_room (hnew : ∀ x ∈ s.reg, x.mnemonic ≠ u.mnemonic)
    (h : s.cfg.cap = some s.reg.length ∨ mnemonicFits s.cfg u.mnemonic = false) : ∃ r, tryAdd s u = .refused r := by
  cases ha : tryAdd s u with
  | refused r => exact ⟨r, rfl⟩
  | err e =>
    obtain ⟨-, x, hx, hm⟩ := tryAdd_err ha
    exact absurd hm (hnew x hx)
  | ok s' =>
    obtain ⟨-, -, hroom, hfits, -⟩ := tryAdd_ok ha
    rcases h with h | h
    · exact absurd h hroom
    · simp [hfits] at h

theorem serve_add_refused {r : RefusalReason} (h : tryAdd s u = .refused r) : serve (.add u) s = turnedDown s r := by
  rw [serve, opAdd, h]
  rfl

theorem loadLine_of_error {line : Text} {r : ParseReason} (h : parseTemplate line = .error r) (s : State) :
    loadLine line s = .err (.catalogParse r) := by
  rw [loadLine, h]

theorem loadLine_of_ok {line : Text} (h : parseTemplate line = .ok u) (s : State) : loadLine line s = tryAdd s u := by
  rw [loadLine, h]

end

/-- Why a line fails in a Registry: it does not parse, or to a mnemonic that is there already (R83 to R85). -/
def lineFails (reg : List Template) (line : Text) (e : CodecError) : Prop :=
  (∃ r, parseTemplate line = .error r ∧ e = .catalogParse r) ∨
    ∃ u, parseTemplate line = .ok u ∧ (∃ x ∈ reg, x.mnemonic = u.mnemonic) ∧ e = .duplicateMnemonic

/-- Everything one line of a load comes to: it fails, its template is appended, or its `ADD` is refused. -/
theorem loadLine_outcomes (line : Text) (s : State) :
    (∃ e, lineFails s.reg line e ∧ loadLine line s = .err e) ∨
      ∃ u, parseTemplate line = .ok u ∧
        (((∀ x ∈ s.reg, x.mnemonic ≠ u.mnemonic) ∧ loadLine line s = .ok { s with reg := s.reg ++ [u] }) ∨
          ∃ r, tryAdd s u = .refused r ∧ loadLine line s = .refused r) := by
  obtain ⟨r, hparse, h⟩ | ⟨u, hparse, h⟩ := loadLine_cases line s
  · exact .inl ⟨_, .inl ⟨r, hparse, rfl⟩, h⟩
  · cases ha : tryAdd s u with
    | err e =>
      obtain ⟨rfl, hknown⟩ := tryAdd_err ha
      exact .inl ⟨_, .inr ⟨u, hparse, hknown, rfl⟩, h.trans ha⟩
    | ok s' =>
      obtain ⟨-, hnew, -, -, rfl⟩ := tryAdd_ok ha
      exact .inr ⟨u, hparse, .inl ⟨hnew, h.trans ha⟩⟩
    | refused r => exact .inr ⟨u, hparse, .inr ⟨r, ha, h.trans ha⟩⟩

theorem loadLine_of_fails {s : State} {line : Text} {e : CodecError} (hp : s.phase = .load)
    (h : lineFails s.reg line e) : loadLine line s = .err e := by
  obtain ⟨r, hparse, rfl⟩ | ⟨u, hparse, hknown, rfl⟩ := h
  · exact loadLine_of_error hparse s
  · rw [loadLine_of_ok hparse, tryAdd_of_known hp hknown]

/-! ### One line of a load -/

section
variable {mode : LoadMode} {k : Nat} {line : Text} {rest : List Text} {ws : List (Nat × CodecError)} {s : State}

theorem loadFrom_of_blank (hb : line.all isWhite = true) :
    loadFrom mode k (line :: rest) ws s = loadFrom mode (k + 1) rest ws s := by
  rw [loadFrom, if_pos hb]

theorem loadFrom_of_loaded {s' : State} (hb : line.all isWhite = false) (h : loadLine line s = .ok s') :
    loadFrom mode k (line :: rest) ws s = loadFrom mode (k + 1) rest ws s' := by
  rw [loadFrom, if_neg (by simp [hb]), h]

theorem loadFrom_of_refused {r : RefusalReason} (hb : line.all isWhite = false) (h : loadLine line s = .refused r) :
    loadFrom mode k (line :: rest) ws s = turnedDown s r := by
  rw [loadFrom, if_neg (by simp [hb]), h]
  rfl

theorem loadFrom_strict_of_failed {e : CodecError} (hb : line.all isWhite = false) (h : loadLine line s = .err e) :
    loadFrom .strict k (line :: rest) ws s = .next (s.answer (.stoppedAt k e)) := by
  rw [loadFrom, if_neg (by simp [hb]), h]

theorem loadFrom_lenient_of_failed {e : CodecError} (hb : line.all isWhite = false) (h : loadLine line s = .err e) :
    loadFrom .lenient k (line :: rest) ws s = loadFrom .lenient (k + 1) rest (ws ++ [(k, e)]) s := by
  rw [loadFrom, if_neg (by simp [hb]), h]

end

theorem phase_cases (s : State) : s.phase = .frozen ∨ s.phase = .load := by
  cases s.phase
  · exact .inr rfl
  · exact .inl rfl

theorem serve_load {s : State} (hp : s.phase = .load) (lines : List Text) (mode : LoadMode) :
    serve (.load lines mode) s = loadFrom mode 1 lines.tail [] s := by
  rw [serve, opLoad, if_neg (by simp [hp])]

theorem serve_load_frozen {s : State} (hp : s.phase = .frozen) (lines : List Text) (mode : LoadMode) :
    serve (.load lines mode) s = turnedDown s .registryFrozen := by
  rw [serve, opLoad, if_pos hp]
  rfl

/-! ### Definition lines -/

section
variable {line : Text}

theorem definitionLines_cons_of_blank (header : Text) (rest : List Text) (hb : line.all isWhite = true) :
    definitionLines (header :: line :: rest) = definitionLines (header :: rest) :=
  List.filter_cons_of_neg (by simp [hb])

theorem definitionLines_cons_of_not_blank (header : Text) (rest : List Text) (hb : line.all isWhite = false) :
    definitionLines (header :: line :: rest) = line :: definitionLines (header :: rest) :=
  List.filter_cons_of_pos (by simp [hb])

variable {ls : List Text} (hne : ls ≠ [])
include hne

theorem definitionLines_concat_of_blank (hb : line.all isWhite = true) :
    definitionLines (ls ++ [line]) = definitionLines ls := by
  rw [definitionLines, List.tail_append_of_ne_nil hne, List.filter_append,
    List.filter_cons_of_neg (by simp [hb]), List.filter_nil, List.append_nil, definitionLines]

theorem definitionLines_concat_of_not_blank (hb : line.all isWhite = false) :
    definitionLines (ls ++ [line]) = definitionLines ls ++ [line] := by
  rw [definitionLines, List.tail_append_of_ne_nil hne, List.filter_append,
    List.filter_cons_of_pos (by simp [hb]), List.filter_nil, definitionLines]

end

/-! ### Lines without defects -/

/-- A Registry with a template in front of others keeps distinct mnemonics only if that template's is new. -/
theorem new_of_distinctMnemonics {reg rest : List Template} {u : Template}
    (h : distinctMnemonics (reg ++ u :: rest)) : ∀ x ∈ reg, x.mnemonic ≠ u.mnemonic := by
  rw [distinctMnemonics, List.map_append, List.map_cons, List.nodup_append] at h
  exact fun x hx => h.2.2 _ (List.mem_map_of_mem hx) _ List.mem_cons_self

theorem distinctMnemonics_concat {reg : List Template} {u : Template} (hd : distinctMnemonics reg)
    (hnew : ∀ x ∈ reg, x.mnemonic ≠ u.mnemonic) : distinctMnemonics (reg ++ [u]) := by
  rw [distinctMnemonics, List.map_append, List.nodup_append]
  refine ⟨hd, List.nodup_singleton _, List.forall_mem_map.2 fun x hx => ?_⟩
  exact List.forall_mem_singleton.2 (hnew x hx)

/-- Lines without defects load whole and in order, in either mode, whatever follows them. -/
theorem loadFrom_of_good (mode : LoadMode) (header : Text) (xs rest : List Text) (ws : List (Nat × CodecError)) :
    ∀ (s : State) (k : Nat) (ts : List Template), s.phase = .load →
      (definitionLines (header :: xs)).map parseTemplate = ts.map Except.ok →
      distinctMnemonics (s.reg ++ ts) → withinCapacity s.cfg (s.reg ++ ts) → mnemonicsFit s.cfg ts →
        loadFrom mode k (xs ++ rest) ws s = loadFrom mode (k + xs.length) rest ws { s with reg := s.reg ++ ts } := by
  induction xs with
  | nil =>
    intro s k ts _ hlines _ _ _
    obtain rfl := List.map_eq_nil_iff.1 hlines.symm
    rw [List.append_nil]
    rfl
  | cons line xs ih =>
    intro s k ts hp hlines hd hc hf
    rw [List.cons_append, List.length_cons, Nat.add_comm xs.length, ← Nat.add_assoc]
    cases hb : line.all isWhite with
    | true =>
      rw [definitionLines_cons_of_blank header xs hb] at hlines
      rw [loadFrom_of_blank hb, ih s (k + 1) ts hp hlines hd hc hf]
    | false =>
      rw [definitionLines_cons_of_not_blank header xs hb, List.map_cons] at hlines
      obtain ⟨u, ts, rfl, hparse, hrest⟩ := List.map_eq_cons_iff.1 hlines.symm
      obtain ⟨hfits, hf⟩ := List.forall_mem_cons.1 hf
      have hroom : s.cfg.cap ≠ some s.reg.length := fun h => by
        have := hc _ h
        simp at this
      have hadd := tryAdd_of_room hp (new_of_distinctMnemonics hd) hroom hfits
      rw [List.append_cons] at hd hc
      rw [loadFrom_of_loaded hb ((loadLine_of_ok hparse.symm s).trans hadd),
        ih { s with reg := s.reg ++ [u] } (k + 1) ts hp hrest.symm hd hc hf]
      simp only [List.append_assoc, List.singleton_append]

/-- Settles O54: every line loads, and nothing follows. -/
theorem goodCatalogsLoadWhole : Obligations.GoodCatalogsLoadWhole := by
  intro s mode lines ts hp hlines hd hc hf
  have h := loadFrom_of_good mode [] lines.tail [] [] s 1 ts hp hlines hd hc hf
  rw [List.append_nil] at h
  rw [serve_load hp, h]
  rfl

/-! ### A strict load -/

/-- What a strict load that reports the line `k` has done: the claim's third part. -/
def stoppedAtLine (s : State) (lines : List Text) (k : Nat) (e : CodecError) (t : State) : Prop :=
  ∃ line added, 1 ≤ k ∧ lines[k]? = some line ∧ line.all isWhite = false ∧
    (definitionLines (lines.take k)).map parseTemplate = added.map Except.ok ∧ t.reg = s.reg ++ added ∧
    lineFails t.reg line e

/-- The lines `ls` have loaded: a strict load that stops at one of the lines after them has loaded the lines before it,
and that line fails. -/
theorem loadFrom_strict_stopped {s t : State} {k : Nat} {e : CodecError} (rest : List Text) :
    ∀ (ls : List Text) (added : List Template) (ws : List (Nat × CodecError)), ls ≠ [] →
      (definitionLines ls).map parseTemplate = added.map Except.ok →
      loadFrom .strict ls.length rest ws { s with reg := s.reg ++ added } = .next t →
      t.response = some (.stoppedAt k e) → stoppedAtLine s (ls ++ rest) k e t := by
  induction rest with
  | nil =>
    intro ls added ws _ _ h hr
    rw [respond_eq_next h] at hr
    cases hr
  | cons line rest ih =>
    intro ls added ws hne hlines h hr
    have hnext := ih (ls ++ [line])
    simp only [List.length_append, List.length_singleton, List.append_assoc, List.singleton_append] at hnext
    cases hb : line.all isWhite with
    | true =>
      rw [loadFrom_of_blank hb] at h
      exact hnext added ws (by simp) (by rw [definitionLines_concat_of_blank hne hb, hlines]) h hr
    | false =>
      obtain ⟨e', hfails, hl⟩ | ⟨u, hparse, ⟨-, hl⟩ | ⟨r, -, hl⟩⟩ :=
        loadLine_outcomes line { s with reg := s.reg ++ added }
      · rw [loadFrom_strict_of_failed hb hl] at h
        cases h
        cases hr
        refine ⟨line, added, List.length_pos_of_ne_nil hne, ?_, hb, ?_, rfl, hfails⟩
        · rw [List.getElem?_append_right (le_refl _), Nat.sub_self, List.getElem?_cons_zero]
        · rw [List.take_left, hlines]
      · rw [loadFrom_of_loaded hb hl] at h
        refine hnext (added ++ [u]) ws (by simp) ?_ (by rw [← List.append_assoc]; exact h) hr
        rw [definitionLines_concat_of_not_blank hne hb, List.map_append, hlines, List.map_append, List.map_singleton,
          List.map_singleton, hparse]
      · rw [loadFrom_of_refused hb hl] at h
        cases h
        cases hr

/-- Settles O55: the lines before the line load whole, and then one step of the load decides; for the converse, the load is
followed to the line it reports. -/
theorem strictLoadStopsAtTheFirstFailure : Obligations.StrictLoadStopsAtTheFirstFailure := by
  refine ⟨fun s lines mode hp => serve_load_frozen hp lines mode, ?_, ?_⟩
  · intro s before line after added hp hne hlines hd hc hf hb
    obtain ⟨header, xs, rfl⟩ := List.exists_cons_of_ne_nil hne
    let s' : State := { s with reg := s.reg ++ added }
    have hreach (mode : LoadMode) : serve (.load (header :: xs ++ line :: after) mode) s =
        loadFrom mode (header :: xs).length (line :: after) [] s' := by
      rw [serve_load hp, List.length_cons, Nat.add_comm]
      exact loadFrom_of_good mode header xs (line :: after) [] s 1 added hp hlines hd hc hf
    have hfail {e : CodecError} (h : lineFails s'.reg line e) : serve (.load (header :: xs ++ line :: after) .strict) s =
        .next (s'.answer (.stoppedAt (header :: xs).length e)) := by
      rw [hreach, loadFrom_strict_of_failed hb (loadLine_of_fails (s := s') hp h)]
    have hrefuse {u : Template} {r : RefusalReason} (hu : parseTemplate line = .ok u) (ha : tryAdd s' u = .refused r)
        (mode : LoadMode) : serve (.load (header :: xs ++ line :: after) mode) s = turnedDown s' r := by
      rw [hreach, loadFrom_of_refused hb ((loadLine_of_ok hu s').trans ha)]
    refine ⟨fun r hr => hfail (.inl ⟨r, hr, rfl⟩), fun u hu hknown => hfail (.inr ⟨u, hu, hknown, rfl⟩), ?_⟩
    intro u hu hnew
    refine ⟨fun hfull => ?_, fun hroom hlong => ?_⟩
    · obtain ⟨r, ha⟩ := tryAdd_of_no_room (s := s') hnew (.inl hfull)
      obtain ⟨-, ⟨-, rfl⟩ | ⟨hroom, -⟩⟩ := tryAdd_refused ha hp
      · exact hrefuse hu ha
      · exact absurd hfull hroom
    · obtain ⟨r, ha⟩ := tryAdd_of_no_room (s := s') hnew (.inr hlong)
      obtain ⟨-, ⟨hfull, -⟩ | ⟨-, -, hr⟩⟩ := tryAdd_refused ha hp
      · exact absurd hfull hroom
      · exact ⟨r, hr, serve_add_refused ha, hrefuse hu ha⟩
  · intro s t lines k e h hr
    rcases phase_cases s with hp | hp
    · rw [serve_load_frozen hp] at h
      cases h
      cases hr
    · rw [serve_load hp] at h
      cases lines with
      | nil => rw [respond_eq_next h] at hr; cases hr
      | cons header rest =>
        refine loadFrom_strict_stopped rest [header] [] [] (List.cons_ne_nil _ _) rfl ?_ hr
        rw [List.append_nil]
        exact h

/-! ### Lines with and without a warning -/

section
variable {ls : List Text} {line : Text} {ws : List (Nat × CodecError)}

/-- A line after the first is one more loaded line exactly when it is not blank and has no warning. -/
theorem loadedLines_concat (hne : ls ≠ []) : loadedLines (ls ++ [line]) ws =
    loadedLines ls ws ++
      if !line.all isWhite && !(ws.map Prod.fst).contains ls.length then [line] else [] := by
  have hlen : 1 + ls.tail.length = ls.length := by
    have := List.length_pos_of_ne_nil hne
    rw [List.length_tail]
    omega
  rw [loadedLines, List.tail_append_of_ne_nil hne, List.zipIdx_append, hlen, List.filter_append, List.map_append,
    ← loadedLines, List.zipIdx_singleton, List.filter_cons, List.filter_nil, apply_ite (List.map Prod.fst)]
  rfl

/-- A warning of a later line changes no line's account. -/
theorem loadedLines_of_later_warning {p : Nat × CodecError} (h : ls.length ≤ p.1) :
    loadedLines ls (ws ++ [p]) = loadedLines ls ws := by
  rw [loadedLines, loadedLines]
  congr 1
  refine List.filter_congr fun q hq => ?_
  have hq : q.2 ≠ p.1 := by
    obtain ⟨hlow, hhigh, -⟩ := List.mem_zipIdx hq
    rw [List.length_tail] at hhigh
    omega
  have hsame : ((ws ++ [p]).map Prod.fst).contains q.2 = (ws.map Prod.fst).contains q.2 := by
    rw [Bool.eq_iff_iff]
    simp [hq]
  rw [hsame]

end

/-- A warning that has its reason among the lines: the last part of what `accountsFor` says. -/
def explained (reg : List Template) (lines : List Text) (ws : List (Nat × CodecError)) (p : Nat × CodecError) : Prop :=
  ∃ line, 1 ≤ p.1 ∧ lines[p.1]? = some line ∧ line.all isWhite = false ∧
    ((∃ r, parseTemplate line = .error r ∧ p.2 = .catalogParse r) ∨
      ∃ u x, parseTemplate line = .ok u ∧ x.mnemonic = u.mnemonic ∧ p.2 = .duplicateMnemonic ∧
        (x ∈ reg ∨ ∃ l ∈ loadedLines (lines.take p.1) ws, parseTemplate l = .ok x))

theorem accountsFor_iff {reg : List Template} {lines : List Text} {added : List Template}
    {ws : List (Nat × CodecError)} : accountsFor reg lines added ws ↔
      (loadedLines lines ws).map parseTemplate = added.map Except.ok ∧
      (distinctMnemonics reg → distinctMnemonics (reg ++ added)) ∧
      (ws.map Prod.fst).Pairwise (· < ·) ∧ ∀ p ∈ ws, explained reg lines ws p := Iff.rfl

section
variable {reg : List Template} {ls : List Text} {ws : List (Nat × CodecError)} {added : List Template} {line : Text}

theorem explained_lt {p : Nat × CodecError} (h : explained reg ls ws p) : p.1 < ls.length := by
  obtain ⟨_, -, hget, -⟩ := h
  exact (List.getElem?_eq_some_iff.1 hget).1

/-- A warning keeps its reason when a line follows. -/
theorem explained_concat {p : Nat × CodecError} (line : Text) (h : explained reg ls ws p) :
    explained reg (ls ++ [line]) ws p := by
  have hlt := explained_lt h
  obtain ⟨l, hpos, hget, hb, hreason⟩ := h
  refine ⟨l, hpos, by rw [List.getElem?_append_left hlt, hget], hb, ?_⟩
  rwa [List.take_append_of_le_length hlt.le]

/-- A warning keeps its reason when there is a warning of a later line. -/
theorem explained_of_later_warning {p q : Nat × CodecError} (hq : ls.length ≤ q.1) (h : explained reg ls ws p) :
    explained reg ls (ws ++ [q]) p := by
  obtain ⟨l, hpos, hget, hb, hreason⟩ := h
  refine ⟨l, hpos, hget, hb, ?_⟩
  rwa [loadedLines_of_later_warning (le_trans (List.length_take_le' _ _) hq)]

/-- A load begins with nothing to account for. -/
theorem accountsFor_of_tail_nil (h : ls.tail = []) : accountsFor reg ls [] [] := by
  refine ⟨?_, fun hd => by rwa [List.append_nil], List.Pairwise.nil, nofun⟩
  rw [loadedLines, h]
  rfl

theorem length_not_mem_of_explained (h : ∀ p ∈ ws, explained reg ls ws p) : ls.length ∉ ws.map Prod.fst := by
  intro hmem
  obtain ⟨p, hp, he⟩ := List.mem_map.1 hmem
  exact absurd (explained_lt (h p hp)) (by omega)

variable (hne : ls ≠ []) (ha : accountsFor reg ls added ws)
include hne ha

/-- A blank line needs no account. -/
theorem accountsFor_of_blank (hb : line.all isWhite = true) : accountsFor reg (ls ++ [line]) added ws := by
  obtain ⟨hloaded, hd, hsorted, hwarned⟩ := ha
  refine ⟨?_, hd, hsorted, fun p hp => explained_concat line (hwarned p hp)⟩
  rw [loadedLines_concat hne, if_neg (by simp [hb]), List.append_nil, hloaded]

/-- A line that loads is accounted for by its template. -/
theorem accountsFor_of_loaded {u : Template} (hb : line.all isWhite = false) (hparse : parseTemplate line = .ok u)
    (hnew : ∀ x ∈ reg ++ added, x.mnemonic ≠ u.mnemonic) : accountsFor reg (ls ++ [line]) (added ++ [u]) ws := by
  obtain ⟨hloaded, hd, hsorted, hwarned⟩ := ha
  refine ⟨?_, fun hreg => ?_, hsorted, fun p hp => explained_concat line (hwarned p hp)⟩
  · have hnot := length_not_mem_of_explained hwarned
    rw [loadedLines_concat hne, if_pos (by simpa [hb] using hnot), List.map_append, hloaded, List.map_append,
      List.map_singleton, List.map_singleton, hparse]
  · rw [← List.append_assoc]
    exact distinctMnemonics_concat (hd hreg) hnew

/-- A line that fails is accounted for by its warning. -/
theorem accountsFor_of_failed {e : CodecError} (hb : line.all isWhite = false)
    (hfails : lineFails (reg ++ added) line e) : accountsFor reg (ls ++ [line]) added (ws ++ [(ls.length, e)]) := by
  obtain ⟨hloaded, hd, hsorted, hwarned⟩ := ha
  have hsame : loadedLines ls (ws ++ [(ls.length, e)]) = loadedLines ls ws := loadedLines_of_later_warning (le_refl _)
  refine accountsFor_iff.2 ⟨?_, hd, ?_, fun p hp => ?_⟩
  · rw [loadedLines_concat hne, if_neg (by simp), List.append_nil, hsame, hloaded]
  · rw [List.map_append, List.pairwise_append]
    refine ⟨hsorted, List.pairwise_singleton _ _, List.forall_mem_map.2 fun p hp => ?_⟩
    exact List.forall_mem_singleton.2 (explained_lt (hwarned p hp))
  · rcases List.mem_append.1 hp with hp | hp
    · exact explained_concat line (explained_of_later_warning (le_refl _) (hwarned p hp))
    · obtain rfl := List.mem_singleton.1 hp
      refine ⟨line, List.length_pos_of_ne_nil hne, by simp, hb, ?_⟩
      rw [List.take_left, hsame]
      obtain hbad | ⟨u, hparse, ⟨x, hx, hm⟩, he⟩ := hfails
      · exact .inl hbad
      · refine .inr ⟨u, x, hparse, hm, he, (List.mem_append.1 hx).imp_right fun hx => ?_⟩
        exact List.mem_map.1 (hloaded ▸ List.mem_map_of_mem hx)

end

/-! ### A lenient load -/

/-- How a lenient load can end in the LOAD phase: with its warnings, or refused at a line: the claim's last two cases. -/
def lenientEnd (s : State) (lines : List Text) (out : Host.Outcome State Fault Refusal) : Prop :=
  (∃ added ws, accountsFor s.reg lines added ws ∧
    out = answered { s with reg := s.reg ++ added } (.warnings ws)) ∨
  ∃ k line u added ws r, 1 ≤ k ∧ lines[k]? = some line ∧ line.all isWhite = false ∧
    parseTemplate line = .ok u ∧ accountsFor s.reg (lines.take k) added ws ∧
    (∀ x ∈ s.reg ++ added, x.mnemonic ≠ u.mnemonic) ∧
    ((s.cfg.cap = some (s.reg ++ added).length ∧ r = .registryFull) ∨
      (s.cfg.cap ≠ some (s.reg ++ added).length ∧ mnemonicFits s.cfg u.mnemonic = false ∧
        (r = .registryFrozen ∨ r = .registryFull))) ∧
    serve (.add u) { s with reg := s.reg ++ added } = turnedDown { s with reg := s.reg ++ added } r ∧
    out = turnedDown { s with reg := s.reg ++ added } r

/-- The lines `ls` are accounted for: so is, in the end, every line, or every line before the one that is refused. -/
theorem loadFrom_lenient_end {s : State} (hp : s.phase = .load) (rest : List Text) :
    ∀ (ls : List Text) (added : List Template) (ws : List (Nat × CodecError)), ls ≠ [] →
      accountsFor s.reg ls added ws →
      lenientEnd s (ls ++ rest) (loadFrom .lenient ls.length rest ws { s with reg := s.reg ++ added }) := by
  induction rest with
  | nil =>
    intro ls added ws _ ha
    rw [List.append_nil]
    exact .inl ⟨added, ws, ha, rfl⟩
  | cons line rest ih =>
    intro ls added ws hne ha
    have hnext := ih (ls ++ [line])
    simp only [List.length_append, List.length_singleton, List.append_assoc, List.singleton_append] at hnext
    cases hb : line.all isWhite with
    | true =>
      rw [loadFrom_of_blank hb]
      exact hnext added ws (by simp) (accountsFor_of_blank hne ha hb)
    | false =>
      obtain ⟨e, hfails, hl⟩ | ⟨u, hparse, ⟨hnew, hl⟩ | ⟨r, hadd, hl⟩⟩ :=
        loadLine_outcomes line { s with reg := s.reg ++ added }
      · rw [loadFrom_lenient_of_failed hb hl]
        exact hnext added _ (by simp) (accountsFor_of_failed hne ha hb hfails)
      · rw [loadFrom_of_loaded hb hl]
        have h := hnext (added ++ [u]) ws (by simp) (accountsFor_of_loaded hne ha hb hparse hnew)
        rw [← List.append_assoc] at h
        exact h
      · rw [loadFrom_of_refused hb hl]
        obtain ⟨hnew, hwhy⟩ := tryAdd_refused hadd hp
        have hbefore : accountsFor s.reg ((ls ++ line :: rest).take ls.length) added ws := by rwa [List.take_left]
        exact .inr ⟨ls.length, line, u, added, ws, r, List.length_pos_of_ne_nil hne, by simp, hb, hparse, hbefore, hnew,
          hwhy, serve_add_refused hadd, rfl⟩

theorem serve_load_lenient {s : State} (hp : s.phase = .load) (lines : List Text) :
    lenientEnd s lines (serve (.load lines .lenient) s) := by
  rw [serve_load hp]
  have hstart : ({ s with reg := s.reg ++ [] } : State) = s := by rw [List.append_nil]
  cases lines with
  | nil => exact .inl ⟨[], [], accountsFor_of_tail_nil rfl, by rw [hstart]; rfl⟩
  | cons header rest =>
    have h := loadFrom_lenient_end hp rest [header] [] [] (List.cons_ne_nil _ _) (accountsFor_of_tail_nil rfl)
    rwa [hstart] at h

/-- Settles O56: a load accounts for its lines as it goes; without bounds no line is refused. -/
theorem lenientLoadWarnsAndGoesOn : Obligations.LenientLoadWarnsAndGoesOn := by
  refine ⟨fun s lines hp hcap hmax => ?_, fun s lines => ?_⟩
  · obtain ⟨added, ws, ha, h⟩ | ⟨k, line, u, added, ws, r, -, -, -, -, -, -, ⟨hfull, -⟩ | ⟨-, hlong, -⟩, -⟩ :=
      serve_load_lenient hp lines
    · exact ⟨added, ws, h, ha⟩
    · simp [hcap] at hfull
    · simp [mnemonicFits, hmax] at hlong
  · rcases phase_cases s with hp | hp
    · exact .inl ⟨hp, serve_load_frozen hp lines .lenient⟩
    · exact .inr ((serve_load_lenient hp lines).imp (⟨hp, ·⟩) (⟨hp, ·⟩))

end Sys2Proof.Proofs
end

section
/-! PROOFS. The statements on the operations of the Registry: each branch of `ADD` (R89), and what `LOOKUP`, `LIST` and
`FREEZE` answer (R90 to R92). -/

namespace Sys2Proof.Proofs

open Sys2Proof.Machine Sys2Proof.Claims

/-! ### `ADD` -/

section
variable {s : State} {u : Template}

theorem tryAdd_of_frozen (hp : s.phase = .frozen) : tryAdd s u = .refused .registryFrozen := if_pos hp

/-- A new mnemonic that finds `CAP` reached is refused, whatever its length (R89). -/
theorem tryAdd_of_full (hp : s.phase = .load) (hnew : ∀ x ∈ s.reg, x.mnemonic ≠ u.mnemonic)
    (hfull : s.cfg.cap = some s.reg.length) : tryAdd s u = .refused .registryFull := by
  obtain ⟨r, hr⟩ := tryAdd_of_no_room hnew (.inl hfull)
  obtain ⟨-, ⟨-, rfl⟩ | ⟨hroom, -⟩⟩ := tryAdd_refused hr hp
  · exact hr
  · exact absurd hfull hroom

theorem serve_add_failed {e : CodecError} (h : tryAdd s u = .err e) : serve (.add u) s = failed s e := by
  rw [serve, opAdd, h]
  rfl

theorem serve_add_answered {s' : State} (h : tryAdd s u = .ok s') : serve (.add u) s = answered s' .unit := by
  rw [serve, opAdd, h]
  rfl

end

/-- Settles O48: one branch of `ADD` for each of its tests, and the append where none of them stops it. -/
theorem addAppendsOnceInOrder : Obligations.AddAppendsOnceInOrder := by
  intro s t
  refine ⟨fun hp => ?_, fun hp hknown => ?_, fun hp hnew => ⟨fun hfull => ?_, fun hroom hfits => ?_⟩⟩
  · exact serve_add_refused (tryAdd_of_frozen hp)
  · exact serve_add_failed (tryAdd_of_known hp hknown)
  · exact serve_add_refused (tryAdd_of_full hp hnew hfull)
  · exact serve_add_answered (tryAdd_of_room hp hnew hroom hfits)

/-! ### `LOOKUP`, `LIST` and `FREEZE` -/

/-- `LOOKUP` answers what the Registry holds under the mnemonic, and does nothing else (R90). -/
theorem serve_lookup {s : State} {m : Text} {found : Option Template} (h : lookup s.reg m = found) :
    serve (.lookup m) s = answered s (.found found) := by
  rw [serve, opLookup, h]
  rfl

/-- Settles O50: a mnemonic absent from the Registry looks up nothing, one of distinct mnemonics its own template; `LIST`
and `FREEZE` are their definitions. -/
theorem lookupListFreezeAlwaysAnswer : Obligations.LookupListFreezeAlwaysAnswer := by
  intro s
  refine ⟨fun m habsent => ?_, fun u hu hd => ?_, rfl, rfl⟩
  · exact serve_lookup ((lookup_eq_none_iff s.reg m).2 habsent)
  · exact serve_lookup (lookup_of_mem hd hu)

end Sys2Proof.Proofs
end

section
/-! PROOFS. The statements on the Operand Binder: unknown mnemonic before arity and arity before any value (R98, R99),
the first bad operand (R100 to R104), and that the binder takes back what a search decoded. -/

namespace Sys2Proof.Proofs

open Sys2Proof.Machine Sys2Proof.Claims

theorem serve_bind_failed {s : State} {m : Text} {tokens : List Int} {e : CodecError}
    (h : bindTokens s.reg m tokens = .err e) : serve (.bind m tokens) s = failed s e := by
  rw [serve, opBind, h]
  rfl

/-! ### What a search decoded -/

/-- `DECODE_S` answers the fields of the word under a template of the Registry. -/
theorem serve_decodeS_answered {s : State} {w : Word} {m : Text} {ops : List BoundOperand}
    (h : serve (.decodeS w) s = answered s (.decoded m ops)) :
    ∃ t ∈ s.reg, t.mnemonic = m ∧ ops = boundOperands t.format (unpackValues t.format w) := by
  rw [serve, opDecodeS, decodeSearch] at h
  have hvalue := respond_inj.1 h
  obtain ⟨-, hs⟩ | ⟨t, hc, hs⟩ | ⟨_, _, _, -, hs⟩ := searchTemplate_cases s.reg w <;> rw [hs] at hvalue <;>
    cases hvalue
  obtain ⟨hmem, -⟩ := mem_candidates.1 (hc ▸ List.mem_singleton_self t)
  exact ⟨t, hmem, rfl, rfl⟩

/-- Settles O44: the mnemonic looks up the template that read the word, and the fields of a word are legal values. -/
theorem decodedOperandsBind : Obligations.DecodedOperandsBind := by
  intro s w m ops hinv h
  obtain ⟨t, ht, rfl, rfl⟩ := serve_decodeS_answered h
  have hlegal := unpackValues_legal t.format w
  refine ⟨t, ht, rfl, ?_⟩
  rw [boundOperands_values _ (legalValues_length hlegal), serve_bind_eq_answered]
  exact bindTokens_of_legal (lookup_of_mem hinv.distinct ht) hlegal

/-! ### The checks before any value -/

/-- A count of tokens other than the format's is an arity mismatch (R99). -/
theorem bindTokens_of_arity {reg : List Template} {m : Text} {t : Template} {tokens : List Int}
    (ht : lookup reg m = some t) (hl : tokens.length ≠ (operandKinds t.format).length) :
    bindTokens reg m tokens = .err .arityMismatch := by
  rw [bindTokens, ht]
  exact if_pos hl

/-- Settles O45: an absent mnemonic looks up nothing, and the counts are those of the operand kinds. -/
theorem bindChecksMnemonicThenArity : Obligations.BindChecksMnemonicThenArity := by
  intro s m tokens
  refine ⟨fun habsent => ?_, fun t ht hcount => ?_⟩
  · exact serve_bind_failed (bindTokens_of_lookup_none ((lookup_eq_none_iff s.reg m).2 habsent) tokens)
  · refine serve_bind_failed (bindTokens_of_arity ht ?_)
    cases hf : t.format <;> rw [hf] at hcount <;> exact hcount

/-! ### The checks of the operands -/

/-- The range check lets through the values between the ends of the claims' table (R100 to R102). -/
theorem inRange_iff (k : OperandKind) (v : Int) : inRange k v = true ↔ (rangeOf k).1 ≤ v ∧ v ≤ (rangeOf k).2 := by
  match k with
  | .rd | .rs1 | .rs2 => exact isRegister_iff v
  | .imm .w12 false | .imm .w20 false | .imm .w12 true | .imm .w20 true => exact fitsSigned_iff _ v

/-- The evenness check is one on the even-only kinds (R103). -/
theorem isAligned_iff (k : OperandKind) (v : Int) : isAligned k v = true ↔ (evenOnly k → v % 2 = 0) := by
  match k with
  | .rd | .rs1 | .rs2 | .imm _ false => exact iff_of_true rfl False.elim
  | .imm _ true => exact ⟨fun h _ => (isEven_iff v).1 h, fun h => (isEven_iff v).2 (h trivial)⟩

theorem checkOperand_of_out_of_range {k : OperandKind} {v : Int} (h : v < (rangeOf k).1 ∨ (rangeOf k).2 < v) :
    checkOperand k v = some .operandRange := by
  have hr : inRange k v = false := by rw [← Bool.not_eq_true, inRange_iff]; omega
  simp [checkOperand, hr]

theorem checkOperand_of_odd {k : OperandKind} {v : Int} (h : (rangeOf k).1 ≤ v ∧ v ≤ (rangeOf k).2) (he : evenOnly k)
    (hodd : v % 2 = 1) : checkOperand k v = some .alignment := by
  have ha : isAligned k v = false := by
    rw [← Bool.not_eq_true, isAligned_iff]
    intro heven
    have hmod := heven he
    omega
  simp [checkOperand, (inRange_iff k v).2 h, ha]

theorem checkOperand_of_good {k : OperandKind} {v : Int} (h : (rangeOf k).1 ≤ v ∧ v ≤ (rangeOf k).2)
    (he : evenOnly k → v % 2 = 0) : checkOperand k v = none := by
  simp [checkOperand, (inRange_iff k v).2 h, (isAligned_iff k v).2 he]

/-- The check of the operands reports the first that fails, whatever follows it (R104). -/
theorem checkOperands_first_bad {k : OperandKind} {v : Int} {e : CodecError} (hbad : checkOperand k v = some e)
    (after : List Int) {before : List Int} {ks : List OperandKind} (hk : ks[before.length]? = some k)
    (hgood : ∀ (j : Nat) (u : Int) (kj : OperandKind), before[j]? = some u → ks[j]? = some kj →
      checkOperand kj u = none) : checkOperands ks (before ++ v :: after) = some e := by
  induction before generalizing ks with
  | nil =>
    cases ks with
    | nil => cases hk
    | cons k' ks =>
      cases hk
      simp only [List.nil_append, checkOperands, hbad]
  | cons u before ih =>
    cases ks with
    | nil => cases hk
    | cons k' ks =>
      simp only [List.cons_append, checkOperands, hgood 0 u k' rfl rfl]
      exact ih hk fun j => hgood (j + 1)

/-- With the right count of tokens, a failure of the operands' check is the binder's. -/
theorem bindTokens_of_bad_operand {reg : List Template} {m : Text} {t : Template} {tokens : List Int} {e : CodecError}
    (ht : lookup reg m = some t) (hl : tokens.length = (operandKinds t.format).length)
    (hc : checkOperands (operandKinds t.format) tokens = some e) : bindTokens reg m tokens = .err e := by
  simp [bindTokens, ht, hl, hc]

/-- Settles O46: the operands before the bad one pass their checks, and `BIND` reports what the check of the bad one
says. -/
theorem bindReportsTheFirstBadOperand : Obligations.BindReportsTheFirstBadOperand := by
  intro s m t before after v k ht hl hk hgood
  have hbind {e : CodecError} (hbad : checkOperand k v = some e) :
      serve (.bind m (before ++ v :: after)) s = failed s e := by
    refine serve_bind_failed (bindTokens_of_bad_operand ht hl (checkOperands_first_bad hbad after hk ?_))
    intro j u kj hu hkj
    obtain ⟨hlow, hhigh, heven⟩ := hgood j u kj hu hkj
    exact checkOperand_of_good ⟨hlow, hhigh⟩ heven
  exact ⟨fun hout => hbind (checkOperand_of_out_of_range hout),
    fun hlow hhigh he hodd => hbind (checkOperand_of_odd ⟨hlow, hhigh⟩ he hodd)⟩

end Sys2Proof.Proofs
end

section
/-! PROOFS. The statements on the Field Encoder: the words of the six formats, the missing funct values, the renderings of
a word, and `ASSEMBLE` as the binder and then the encoder. -/

namespace Sys2Proof.Proofs

open Sys2Proof.Machine Sys2Proof.Claims

/-! ### `ENCODE` -/

/-- The kinds of a format with values of the table of R107 are a valid bound instruction (R16, R17). -/
theorem validBound_of_accepted {t : Template} {ops : List BoundOperand} (hk : ops.map (·.kind) = operandKinds t.format)
    (hv : accepted t.format (ops.map (·.value))) : validBound ⟨t, ops⟩ = true :=
  (validBound_iff _).2 ⟨hk, legalValues_of_accepted hv⟩

/-- `ENCODE` of a valid bound instruction answers the word its template packs. -/
theorem serve_encode_of_packWord {s : State} {t : Template} {f : Format} {ops : List BoundOperand} {w : Word}
    (hf : t.format = f) (hk : ops.map (·.kind) = operandKinds f) (hv : accepted f (ops.map (·.value)))
    (hw : packWord t (ops.map (·.value)) = .ok w) : serve (.encode ⟨t, ops⟩) s = answered s (.word w) := by
  subst hf
  rw [serve, opEncode, encodeBound_of_valid (validBound_of_accepted hk hv), hw]
  rfl

/-- Settles O33: of what the encoder can answer, a valid bound instruction leaves the error and the word, and the
template's funct values decide between them. -/
theorem encodeFailsExactlyWhenAFunctIsMissing : Obligations.EncodeFailsExactlyWhenAFunctIsMissing := by
  intro s t ops hk hv
  rw [lacksFunct_iff, serve, opEncode]
  obtain ⟨hinvalid, -⟩ | ⟨-, hmiss, he⟩ | ⟨-, hmiss, w, he, -⟩ := encodeBound_cases ⟨t, ops⟩
  · rw [validBound_of_accepted hk hv] at hinvalid
    cases hinvalid
  · exact ⟨fun _ => by rw [he]; rfl, fun h => absurd hmiss h⟩
  · refine ⟨fun h => ?_, fun _ => ⟨w, by rw [he]; rfl⟩⟩
    rw [hmiss] at h
    cases h

/-- Settles O26: the word is `packWord_R`. -/
theorem encodePacksRInstructions : Obligations.EncodePacksRInstructions := by
  intro s t f7 f3 rd rs1 rs2 hf h7 h3 hd0 hd1 ha0 ha1 hb0 hb1
  have hv : accepted .R [rd, rs1, rs2] := ⟨⟨hd0, hd1⟩, ⟨ha0, ha1⟩, ⟨hb0, hb1⟩⟩
  exact serve_encode_of_packWord hf rfl hv (packWord_R hf h7 h3 hv)

/-- Settles O27: the word is `packWord_I`. -/
theorem encodePacksIInstructions : Obligations.EncodePacksIInstructions := by
  intro s t f3 rd rs1 imm hf h3 hd0 hd1 ha0 ha1 hi0 hi1
  have hv : accepted .I [rd, rs1, imm] := ⟨⟨hd0, hd1⟩, ⟨ha0, ha1⟩, ⟨hi0, hi1⟩⟩
  exact serve_encode_of_packWord hf rfl hv (packWord_I hf h3 hv)

/-- Settles O28: the word is `packWord_S`. -/
theorem encodePacksSInstructions : Obligations.EncodePacksSInstructions := by
  intro s t f3 rs1 rs2 imm hf h3 ha0 ha1 hb0 hb1 hi0 hi1
  have hv : accepted .S [rs1, rs2, imm] := ⟨⟨ha0, ha1⟩, ⟨hb0, hb1⟩, ⟨hi0, hi1⟩⟩
  exact serve_encode_of_packWord hf rfl hv (packWord_S hf h3 hv)

/-- Settles O29: the word is `packWord_B`. -/
theorem encodePacksBInstructions : Obligations.EncodePacksBInstructions := by
  intro s t f3 rs1 rs2 imm hf h3 ha0 ha1 hb0 hb1 hi0 hi1 heven
  have hv : accepted .B [rs1, rs2, imm] := ⟨⟨ha0, ha1⟩, ⟨hb0, hb1⟩, ⟨hi0, hi1, heven⟩⟩
  exact serve_encode_of_packWord hf rfl hv (packWord_B hf h3 hv)

/-- Settles O30: the word is `packWord_U`. -/
theorem encodePacksUInstructions : Obligations.EncodePacksUInstructions := by
  intro s t rd imm hf hd0 hd1 hi0 hi1
  have hv : accepted .U [rd, imm] := ⟨⟨hd0, hd1⟩, ⟨hi0, hi1⟩⟩
  exact serve_encode_of_packWord hf rfl hv (packWord_U hf hv)

/-- Settles O31: the word is `packWord_J`. -/
theorem encodePacksJInstructions : Obligations.EncodePacksJInstructions := by
  intro s t rd imm hf hd0 hd1 hi0 hi1 heven
  have hv : accepted .J [rd, imm] := ⟨⟨hd0, hd1⟩, ⟨hi0, hi1, heven⟩⟩
  exact serve_encode_of_packWord hf rfl hv (packWord_J hf hv)

/-! ### Words of the reference catalog -/

/-- Settles O23: the model decodes the seven words. -/
theorem someTableWordsDecode : Obligations.SomeTableWordsDecode := by
  unfold Obligations.SomeTableWordsDecode
  decide

/-! ### `BITSTRING` and `HEX` -/

/-- The bit of a word as a digit of its number. -/
theorem getLsbD_eq_true_iff (w : Word) (i : Nat) : w.getLsbD i = true ↔ w.toNat / 2 ^ i % 2 = 1 := by
  rw [← BitVec.testBit_toNat, Nat.testBit_eq_decide_div_mod_eq, decide_eq_true_eq]

theorem bitString_length (w : Word) : (bitString w).length = 32 := by
  rw [bitString, List.length_map, List.length_range]

theorem bitString_getElem? (w : Word) {k : Nat} (hk : k < 32) :
    (bitString w)[k]? = some (if w.toNat / 2 ^ (31 - k) % 2 = 1 then 0x31 else 0x30) := by
  rw [bitString, List.getElem?_map, List.getElem?_range hk, Option.map_some]
  simp only [getLsbD_eq_true_iff]

/-- Settles O35: the digits of `bitString` are the bits of the word, bit 31 first. -/
theorem bitstringIsMostSignificantFirst : Obligations.BitstringIsMostSignificantFirst :=
  fun _ w => ⟨bitString w, rfl, bitString_length w, fun _ hk => bitString_getElem? w hk⟩

/-- A hexadecimal digit is the character of its value (R119). -/
theorem some_hexDigit (d : BitVec 4) : some (hexDigit d) = (ascii "0123456789ABCDEF")[d.toNat]? := by
  revert d
  decide

/-- The four bits of a word that HEX digit `k` shows, as a digit of its number. -/
theorem hexField_toNat (w : Word) {k : Nat} (hk : k < 8) :
    (w.extractLsb' (28 - 4 * k) 4).toNat = w.toNat / 16 ^ (7 - k) % 16 := by
  have hpow : 2 ^ (28 - 4 * k) = 16 ^ (7 - k) := by
    rw [show 28 - 4 * k = 4 * (7 - k) by omega, Nat.pow_mul]
  rw [slice_toNat, hpow]
  rfl

/-- Settles O36: after `0x` come the eight digits of `hexString`, each the character of its four bits. -/
theorem hexIsEightUpperCaseDigits : Obligations.HexIsEightUpperCaseDigits := by
  intro s w
  refine ⟨_, rfl, ?_, fun k hk => ?_⟩
  · rw [List.length_map, List.length_range]
  · rw [List.getElem?_map, List.getElem?_range hk, Option.map_some, some_hexDigit, hexField_toNat w hk]

/-! ### `ASSEMBLE` -/

/-- `BIND` fails exactly when the binder does. -/
theorem serve_bind_eq_failed {s : State} {m : Text} {tokens : List Int} {e : CodecError} :
    serve (.bind m tokens) s = failed s e ↔ bindTokens s.reg m tokens = .err e := by
  rw [serve, opBind]
  refine respond_inj.trans ?_
  cases bindTokens s.reg m tokens <;> simp [Result.andThen]

/-- Settles O37: `ASSEMBLE` passes the binder's error on or encodes its value; that it refuses nothing is
`assemble_ne_refused`. -/
theorem assembleIsBindThenEncode : Obligations.AssembleIsBindThenEncode := by
  intro s m tokens
  refine ⟨fun e h => ?_, fun bi h => ?_, fun r h => ?_⟩
  · rw [serve, opAssemble, assemble, serve_bind_eq_failed.1 h]
    rfl
  · rw [serve, serve, opAssemble, opEncode, assemble, serve_bind_eq_answered.1 h, Result.andThen_ok]
  · rw [serve, opAssemble] at h
    have hresult := respond_inj.1 h
    cases ha : assemble s.reg m tokens with
    | ok w => rw [ha] at hresult; cases hresult
    | err e => rw [ha] at hresult; cases hresult
    | refused r' => exact assemble_ne_refused _ _ _ _ ha

end Sys2Proof.Proofs
end

section
/-! PROOFS. The statements on the Field Decoder: a template's decode reads the fields of the word, a search needs exactly
one match, and the three round trips. The round trips rest on one fact, `encodeBound_eq_ok_iff`: the encoder packs a bound
instruction into a word exactly when the decoder reads that instruction out of the word. -/

namespace Sys2Proof.Proofs

open Sys2Proof.Machine Sys2Proof.Claims

/-! ### Round trips in template mode -/

/-- A bound instruction is packed into `w` exactly when its template matches `w` and its operands are what `EXTRACT` reads
out of `w` (R135, R136). -/
theorem encodeBound_eq_ok_iff {t : Template} {ops : List BoundOperand} {w : Word} :
    encodeBound ⟨t, ops⟩ = .ok w ↔ matchesWord t w = true ∧ extract t.format w = ops := by
  constructor
  · intro h
    obtain ⟨-, he⟩ | ⟨-, -, he⟩ | ⟨hvalid, -, w', he, hmatch, hvalues⟩ := encodeBound_cases ⟨t, ops⟩ <;>
      cases he.symm.trans h
    obtain ⟨hkinds, -⟩ := (validBound_iff _).1 hvalid
    exact ⟨hmatch, by rw [extract, hvalues, boundOperands_of_kinds hkinds]⟩
  · rintro ⟨hmatch, rfl⟩
    rw [extract, encodeBound_boundOperands (unpackValues_legal _ _), packWord_unpackValues hmatch]

/-- `ENCODE` answers a word exactly when the encoder does. -/
theorem serve_encode_eq_answered {s : State} {bi : BoundInstruction} {w : Word} :
    serve (.encode bi) s = answered s (.word w) ↔ encodeBound bi = .ok w := by
  rw [serve, opEncode]
  refine respond_inj.trans ?_
  cases encodeBound bi <;> simp [Result.andThen]

theorem serve_decodeT_of_match {t : Template} {w : Word} (h : matchesWord t w = true) (s : State) :
    serve (.decodeT w t) s = answered s (.decoded t.mnemonic (extract t.format w)) := by
  rw [serve, opDecodeT, decodeTemplate_of_match h]
  rfl

theorem serve_decodeT_of_mismatch {t : Template} {w : Word} (h : matchesWord t w = false) (s : State) :
    serve (.decodeT w t) s = failed s .unknownEncoding := by
  rw [serve, opDecodeT, decodeTemplate, h]
  rfl

/-- `DECODE_T` answers only where the template matches, and then its mnemonic and the operands of the word. -/
theorem serve_decodeT_answered {s : State} {t : Template} {w : Word} {m : Text} {ops : List BoundOperand}
    (h : serve (.decodeT w t) s = answered s (.decoded m ops)) :
    matchesWord t w = true ∧ m = t.mnemonic ∧ extract t.format w = ops := by
  cases hmatch : matchesWord t w with
  | false => cases respond_inj.1 ((serve_decodeT_of_mismatch hmatch s).symm.trans h)
  | true =>
    cases respond_inj.1 ((serve_decodeT_of_match hmatch s).symm.trans h)
    exact ⟨rfl, rfl, rfl⟩

/-- Settles O41: the packed word matches the template and holds the operands, so `DECODE_T` answers them. -/
theorem decodeUndoesEncode : Obligations.DecodeUndoesEncode := by
  rintro s ⟨t, ops⟩ w h
  obtain ⟨hmatch, rfl⟩ := encodeBound_eq_ok_iff.1 (serve_encode_eq_answered.1 h)
  exact serve_decodeT_of_match hmatch s

/-- Settles O42: a decoded word matches the template and holds the operands, so `ENCODE` packs them into it. -/
theorem encodeUndoesDecode : Obligations.EncodeUndoesDecode := by
  intro s t w m ops h
  obtain ⟨hmatch, hm, hops⟩ := serve_decodeT_answered h
  exact ⟨hm, serve_encode_eq_answered.2 (encodeBound_eq_ok_iff.2 ⟨hmatch, hops⟩)⟩

/-! ### Searching the Registry -/

theorem serve_decodeS_of_none {s : State} {w : Word} (h : candidates s.reg w = []) :
    serve (.decodeS w) s = failed s .unknownEncoding := by
  rw [serve, opDecodeS, decodeSearch, searchTemplate, h]
  rfl

theorem serve_decodeS_of_one {s : State} {w : Word} {t : Template} (h : candidates s.reg w = [t]) :
    serve (.decodeS w) s = answered s (.decoded t.mnemonic (extract t.format w)) := by
  rw [serve, opDecodeS, decodeSearch, searchTemplate_of_candidates h]
  rfl

theorem serve_decodeS_of_several {s : State} {w : Word} (h : 2 ≤ (candidates s.reg w).length) :
    serve (.decodeS w) s = failed s .ambiguousDecode := by
  obtain ⟨hc, -⟩ | ⟨_, hc, -⟩ | ⟨_, _, _, -, hs⟩ := searchTemplate_cases s.reg w
  · rw [hc] at h
    exact absurd h (by decide)
  · rw [hc] at h
    exact absurd h (by simp)
  · rw [serve, opDecodeS, decodeSearch, hs]
    rfl

theorem candidates_of_no_match {reg : List Template} {w : Word} (h : ∀ u ∈ reg, matchesWord u w = false) :
    candidates reg w = [] :=
  List.filter_eq_nil_iff.2 fun u hu => Bool.eq_false_iff.1 (h u hu)

theorem candidates_append (xs ys : List Template) (w : Word) :
    candidates (xs ++ ys) w = candidates xs w ++ candidates ys w := List.filter_append ..

theorem candidates_cons_of_match {t : Template} {w : Word} (h : matchesWord t w = true) (reg : List Template) :
    candidates (t :: reg) w = t :: candidates reg w := List.filter_cons_of_pos h

/-- A template that matches where no template before or after it does is the only candidate. -/
theorem candidates_of_only_match {before after : List Template} {t : Template} {w : Word} (ht : matchesWord t w = true)
    (hothers : ∀ u ∈ before ++ after, matchesWord u w = false) : candidates (before ++ t :: after) w = [t] := by
  obtain ⟨hbefore, hafter⟩ := List.forall_mem_append.1 hothers
  rw [candidates_append, candidates_cons_of_match ht, candidates_of_no_match hbefore, candidates_of_no_match hafter,
    List.nil_append]

/-- Two positions that match are two candidates, wherever they stand. -/
theorem two_le_candidates {before between after : List Template} {t u : Template} {w : Word}
    (ht : matchesWord t w = true) (hu : matchesWord u w = true) :
    2 ≤ (candidates (before ++ t :: between ++ u :: after) w).length := by
  simp only [candidates_append, candidates_cons_of_match ht, candidates_cons_of_match hu, List.length_append,
    List.length_cons]
  omega

/-! ### The fields of a word, as numbers -/

/-- The topmost `len` bits of a word need no cut. -/
theorem topField_mod (w : Word) {lo len : Nat} (h : lo + len = 32) : w.toNat / 2 ^ lo % 2 ^ len = w.toNat / 2 ^ lo :=
  Nat.mod_eq_of_lt (Nat.div_lt_of_lt_mul (by rw [← pow_add, h]; exact w.isLt))

/-- `EXTRACT` reads the fields of R128 to R133 out of the word as a number. -/
theorem extract_eq_fieldsOf (f : Format) (w : Word) : extract f w = fieldsOf f w.toNat := by
  have top31 : w.toNat / 2 ^ 31 % 2 = w.toNat / 2 ^ 31 := topField_mod w (lo := 31) (len := 1) rfl
  have top25 := topField_mod w (lo := 25) (len := 7) rfl
  have top20 := topField_mod w (lo := 20) (len := 12) rfl
  have top12 := topField_mod w (lo := 12) (len := 20) rfl
  cases f
  case R => simp only [extract, unpackValues, rdOf_eq, rs1Of_eq, rs2Of_eq]; rfl
  case I => simp only [extract, unpackValues, rdOf_eq, rs1Of_eq, immIOf_eq, top20]; rfl
  case S => simp only [extract, unpackValues, rs1Of_eq, rs2Of_eq, immSOf_eq, top25]; rfl
  case B => simp only [extract, unpackValues, rs1Of_eq, rs2Of_eq, immBOf_eq, top31]; rfl
  case U => simp only [extract, unpackValues, rdOf_eq, immUOf_eq, top12]; rfl
  case J => simp only [extract, unpackValues, rdOf_eq, immJOf_eq, top31]; rfl

/-- Settles O39: `DECODE_T` answers what `EXTRACT` reads, which `extract_eq_fieldsOf` gives in numbers. -/
theorem templateDecodeExtractsTheFields : Obligations.TemplateDecodeExtractsTheFields := by
  intro s t w
  rw [← extract_eq_fieldsOf]
  exact ⟨fun h => serve_decodeT_of_mismatch h s, fun h => serve_decodeT_of_match h s⟩

/-- Settles O40: no match leaves no candidate, two positions leave two, and a match that stands alone is the one. -/
theorem searchDecodeNeedsExactlyOneMatch : Obligations.SearchDecodeNeedsExactlyOneMatch := by
  intro s w
  refine ⟨fun hnone => ?_, ?_, fun before t after hreg ht hothers => ?_⟩
  · exact serve_decodeS_of_none (candidates_of_no_match hnone)
  · rintro ⟨before, t, between, u, after, hreg, ht, hu⟩
    exact serve_decodeS_of_several (hreg ▸ two_le_candidates ht hu)
  · rw [← extract_eq_fieldsOf]
    exact serve_decodeS_of_one (hreg ▸ candidates_of_only_match ht hothers)

/-! ### Round trip in search mode -/

/-- In a Registry without repeated templates, one that matches where no different one does is the only candidate. -/
theorem candidates_of_unique {reg : List Template} {t : Template} {w : Word} (hd : reg.Nodup) (hmem : t ∈ reg)
    (ht : matchesWord t w = true) (hunique : ∀ u ∈ reg, matchesWord u w = true → u = t) : candidates reg w = [t] := by
  obtain ⟨before, after, rfl⟩ := List.append_of_mem hmem
  have hnot : t ∉ before ++ after := (List.nodup_cons.1 (List.nodup_middle.1 hd)).1
  refine candidates_of_only_match ht fun u hu => ?_
  have hreg : u ∈ before ++ t :: after := (List.sublist_cons_self t after).append_left before |>.subset hu
  exact Bool.eq_false_iff.2 fun hmatch => hnot (hunique u hreg hmatch ▸ hu)

/-- Two different templates that match are two candidates. -/
theorem two_le_candidates_of_ne {reg : List Template} {t u : Template} {w : Word} (hne : u ≠ t)
    (ht : t ∈ candidates reg w) (hu : u ∈ candidates reg w) : 2 ≤ (candidates reg w).length :=
  (List.subperm_of_subset (l₁ := [u, t]) (by simp [hne]) (by simp [ht, hu])).length_le

/-- Settles O43: the packed word matches its template and holds the operands, so the search finds that template, alone or
beside another. -/
theorem searchRoundTripUnlessAmbiguous : Obligations.SearchRoundTripUnlessAmbiguous := by
  rintro s ⟨t, ops⟩ w hinv hmem h
  obtain ⟨hmatch, rfl⟩ := encodeBound_eq_ok_iff.1 (serve_encode_eq_answered.1 h)
  refine ⟨fun hunique => ?_, ?_⟩
  · exact serve_decodeS_of_one (candidates_of_unique hinv.distinct.of_map hmem hmatch hunique)
  · rintro ⟨u, hu, hne, humatch⟩
    exact serve_decodeS_of_several
      (two_le_candidates_of_ne hne (mem_candidates.2 ⟨hmem, hmatch⟩) (mem_candidates.2 ⟨hu, humatch⟩))

end Sys2Proof.Proofs
end

section
/-! PROOFS. The statement on the status and reason codes (spec/60_exceptions.md R161). It lists every error, refusal and
parse reason, so each part is the code's own definition read off constructor by constructor. -/

namespace Sys2Proof.Proofs

open Sys2Proof.Machine Sys2Proof.Claims

/-- Settles O58: an `Ok` and a parse error have their codes whatever they carry, and the rest is the table of R161. -/
theorem statusCodesAreAsListed : Obligations.StatusCodesAreAsListed :=
  ⟨fun v => Result.status_of_toOption (r := .ok v) rfl, fun _ => rfl, rfl, rfl, fun _ => rfl, rfl, rfl, fun _ => rfl⟩

end Sys2Proof.Proofs
end
